-- ==== Sys2Proof/Word.lean ====
section
/-! DEFINITION. The bit-vector types of the codec core and the two extensions of 00_scope.md R11. -/

namespace Sys2Proof

/-- A stream byte, and the width of the bit buffer BUF (R8 BUF_W). -/
abbrev Byte := BitVec 8

/-- A 16-bit value: a PCM sample, the Golomb parameter (R8 PCM_W, M_W). -/
abbrev Half := BitVec 16

/-- A 32-bit value: a command word, a host access, a residual (R8 RES_W). -/
abbrev Word := BitVec 32

/-- A 64-bit value: OPA, OPB and RES (R33). -/
abbrev DWord := BitVec 64

/-- `zext_64` (R11): the pattern of `v`, zero-extended to 64 bits. -/
def zext64 {w : Nat} (v : BitVec w) : DWord := v.setWidth 64

/-- `sext_64` (R11): the pattern of `v`, read as two's complement and sign-extended to 64 bits. -/
def sext64 {w : Nat} (v : BitVec w) : DWord := v.signExtend 64

/-- `trunc_N` (R11): the low `w` bits of an exact integer. -/
def trunc (w : Nat) (x : Int) : BitVec w := BitVec.ofInt w x

end Sys2Proof
end

