-- ==== Sys2Proof/Syntax.lean ====
section
/-! DEFINITION. The commands of core command set v1 (30_encoding.md R113), one constructor per row of
the opcode table. Field `S` is one bit, `N` a bit count, `IMM16` an unsigned 16-bit value (R111, R112). -/

namespace Sys2Proof

/-- The sign mapping of the Golomb coder, STATUS.GMODE (R34, R174). -/
inductive GMode where
  /-- GMODE = 0, the default mapping. -/
  | interleaving
  /-- GMODE = 1. -/
  | signAndMagnitude
  deriving DecidableEq, Repr, Inhabited

/-- One command of the core. The width field of the two field commands is a count 0..127 (R111);
WellFormed says so, and the range 1..64 is checked when the command executes (R115). -/
inductive Instr where
  | bsOpenw
  | bsOpenr
  | bsClose
  | bsWrbit (bit : Bool)
  | bsWrbits (n : Nat)
  | bsRdbit
  | bsRdbits (n : Nat)
  | gSetm (imm : Half)
  | gSetmode (mode : GMode)
  | gEncu
  | gDecu
  | gEnc
  | gDec
  | gRdm
  | apReset
  | apEncl
  | apEncr
  | apDecl
  | apDecr
  | medPred
  | medEnc
  | medDec
  | estClr
  | estAcc
  | estM
  deriving DecidableEq, Repr

end Sys2Proof
end

