-- ==== Sys2Proof/WellFormed.lean ====
section
/-! DEFINITION. Which terms of `Instr` a command word can spell (30_encoding.md R111). -/

namespace Sys2Proof

/-- The field of format N is `w[6:0]`, 0..127 (R111). -/
def widthFieldFits (n : Nat) : Bool := n < 128

/-- An instruction is well formed when each of its fields fits the bits its format gives it (R111).
The other fields fit by their types. Widths 0 and 65..127 are well formed: they decode, and raise
InvalidParameter when the command executes (R115). -/
def Instr.wellFormed : Instr → Bool
  | .bsWrbits n => widthFieldFits n
  | .bsRdbits n => widthFieldFits n
  | .bsOpenw => true
  | .bsOpenr => true
  | .bsClose => true
  | .bsWrbit _ => true
  | .bsRdbit => true
  | .gSetm _ => true
  | .gSetmode _ => true
  | .gEncu => true
  | .gDecu => true
  | .gEnc => true
  | .gDec => true
  | .gRdm => true
  | .apReset => true
  | .apEncl => true
  | .apEncr => true
  | .apDecl => true
  | .apDecr => true
  | .medPred => true
  | .medEnc => true
  | .medDec => true
  | .estClr => true
  | .estAcc => true
  | .estM => true

end Sys2Proof
end

