-- ==== Sys2Proof/Decode.lean ====
section
/-! DEFINITION. Command words (30_encoding.md): the decoder, total on every 32-bit word (R114), and the
encoder, both written from the opcode map R113 and the formats R111. -/

namespace Sys2Proof

/-- Why a word spells no command (R114): both reasons raise IllegalCommand when it executes. -/
inductive DecodeError where
  /-- `w[31:24]` is not an opcode of R113. -/
  | undefinedOpcode
  /-- A bit that the opcode's format reserves is 1 (R111, R116). -/
  | reservedBits
  deriving DecidableEq, Repr

/-- OPC = `w[31:24]` (R110). -/
def opcodeOf (w : Word) : BitVec 8 := w.extractLsb' 24 8

/-- `S = w[0]` (R111). -/
def fieldS (w : Word) : Bool := w.getLsbD 0

/-- `N = w[6:0]`, an unsigned bit count (R111, R112). -/
def fieldN (w : Word) : Nat := (w.extractLsb' 0 7).toNat

/-- `IMM16 = w[15:0]` (R111). -/
def fieldImm16 (w : Word) : Half := w.extractLsb' 0 16

/-- The mode that `S` spells in G.SETMODE: 0 is INTERLEAVING, 1 is SIGN_AND_MAGNITUDE (R176). -/
def modeOfBit : Bool → GMode
  | false => .interleaving
  | true => .signAndMagnitude

/-- The bit that spells a mode in G.SETMODE and in STATUS.GMODE (R34, R176). -/
def bitOfMode : GMode → Bool
  | .interleaving => false
  | .signAndMagnitude => true

/-- The reserved bits of format Z (R116). -/
def maskZ : Word := 0x00FFFFFF#32
/-- The reserved bits of format S (R116). -/
def maskS : Word := 0x00FFFFFE#32
/-- The reserved bits of format N (R116). -/
def maskN : Word := 0x00FFFF80#32
/-- The reserved bits of format I (R116). -/
def maskI : Word := 0x00FF0000#32

/-- Answers `i` when the bits of `w` that `mask` reserves are all zero (R114, R116). -/
def whenReservedZero (mask w : Word) (i : Instr) : Except DecodeError Instr :=
  if w &&& mask = 0#32 then .ok i else .error .reservedBits

/-- The command a word spells, or why it spells none (R113, R114, R116). -/
def decode (w : Word) : Except DecodeError Instr :=
  match (opcodeOf w).toNat with
  | 0x01 => whenReservedZero maskZ w .bsOpenw
  | 0x02 => whenReservedZero maskZ w .bsOpenr
  | 0x03 => whenReservedZero maskZ w .bsClose
  | 0x04 => whenReservedZero maskS w (.bsWrbit (fieldS w))
  | 0x05 => whenReservedZero maskN w (.bsWrbits (fieldN w))
  | 0x06 => whenReservedZero maskZ w .bsRdbit
  | 0x07 => whenReservedZero maskN w (.bsRdbits (fieldN w))
  | 0x10 => whenReservedZero maskI w (.gSetm (fieldImm16 w))
  | 0x11 => whenReservedZero maskS w (.gSetmode (modeOfBit (fieldS w)))
  | 0x12 => whenReservedZero maskZ w .gEncu
  | 0x13 => whenReservedZero maskZ w .gDecu
  | 0x14 => whenReservedZero maskZ w .gEnc
  | 0x15 => whenReservedZero maskZ w .gDec
  | 0x16 => whenReservedZero maskZ w .gRdm
  | 0x20 => whenReservedZero maskZ w .apReset
  | 0x21 => whenReservedZero maskZ w .apEncl
  | 0x22 => whenReservedZero maskZ w .apEncr
  | 0x23 => whenReservedZero maskZ w .apDecl
  | 0x24 => whenReservedZero maskZ w .apDecr
  | 0x28 => whenReservedZero maskZ w .medPred
  | 0x29 => whenReservedZero maskZ w .medEnc
  | 0x2A => whenReservedZero maskZ w .medDec
  | 0x30 => whenReservedZero maskZ w .estClr
  | 0x31 => whenReservedZero maskZ w .estAcc
  | 0x32 => whenReservedZero maskZ w .estM
  | _ => .error .undefinedOpcode

/-- The opcode of a command (R113). -/
def opcode : Instr → BitVec 8
  | .bsOpenw => 0x01#8
  | .bsOpenr => 0x02#8
  | .bsClose => 0x03#8
  | .bsWrbit _ => 0x04#8
  | .bsWrbits _ => 0x05#8
  | .bsRdbit => 0x06#8
  | .bsRdbits _ => 0x07#8
  | .gSetm _ => 0x10#8
  | .gSetmode _ => 0x11#8
  | .gEncu => 0x12#8
  | .gDecu => 0x13#8
  | .gEnc => 0x14#8
  | .gDec => 0x15#8
  | .gRdm => 0x16#8
  | .apReset => 0x20#8
  | .apEncl => 0x21#8
  | .apEncr => 0x22#8
  | .apDecl => 0x23#8
  | .apDecr => 0x24#8
  | .medPred => 0x28#8
  | .medEnc => 0x29#8
  | .medDec => 0x2A#8
  | .estClr => 0x30#8
  | .estAcc => 0x31#8
  | .estM => 0x32#8

/-- The field of a command, as the low 24 bits of its word (R111). -/
def operandField : Instr → BitVec 24
  | .bsWrbit b => (BitVec.ofBool b).setWidth 24
  | .bsWrbits n => (BitVec.ofNat 7 n).setWidth 24
  | .bsRdbits n => (BitVec.ofNat 7 n).setWidth 24
  | .gSetm imm => imm.setWidth 24
  | .gSetmode m => (BitVec.ofBool (bitOfMode m)).setWidth 24
  | .bsOpenw => 0#24
  | .bsOpenr => 0#24
  | .bsClose => 0#24
  | .bsRdbit => 0#24
  | .gEncu => 0#24
  | .gDecu => 0#24
  | .gEnc => 0#24
  | .gDec => 0#24
  | .gRdm => 0#24
  | .apReset => 0#24
  | .apEncl => 0#24
  | .apEncr => 0#24
  | .apDecl => 0#24
  | .apDecr => 0#24
  | .medPred => 0#24
  | .medEnc => 0#24
  | .medDec => 0#24
  | .estClr => 0#24
  | .estAcc => 0#24
  | .estM => 0#24

/-- The bits that a command's format reserves (R113, R116). -/
def reservedMask : Instr → Word
  | .bsWrbit _ => maskS
  | .gSetmode _ => maskS
  | .bsWrbits _ => maskN
  | .bsRdbits _ => maskN
  | .gSetm _ => maskI
  | .bsOpenw => maskZ
  | .bsOpenr => maskZ
  | .bsClose => maskZ
  | .bsRdbit => maskZ
  | .gEncu => maskZ
  | .gDecu => maskZ
  | .gEnc => maskZ
  | .gDec => maskZ
  | .gRdm => maskZ
  | .apReset => maskZ
  | .apEncl => maskZ
  | .apEncr => maskZ
  | .apDecl => maskZ
  | .apDecr => maskZ
  | .medPred => maskZ
  | .medEnc => maskZ
  | .medDec => maskZ
  | .estClr => maskZ
  | .estAcc => maskZ
  | .estM => maskZ

/-- The word of a command: `(OPC << 24) OR field` (R117). -/
def encode (i : Instr) : Word := opcode i ++ operandField i

/-- The command register's 32 bits of an instruction whose table bits are `w`: `nbits` of them are
given, the others are zero (the table gives all 32, R110). -/
def tableWord (nbits w : Nat) : Word := BitVec.ofNat 32 (w % 2 ^ nbits)

/-- The instruction the decoder reads from the table's bits; none where the word spells no command. -/
def decodeTableWord (nbits w : Nat) : Option Instr := (decode (tableWord nbits w)).toOption

end Sys2Proof
end

