-- ==== Sys2Proof/Config.lean ====
section
/-! DEFINITION. What an implementation or the environment fixes: the parameters of 00_scope.md R9 and the
free values of 93_implementation_defined.md. A constant without a body is a free value: nothing can be
proved of it but that it is one value of its type. -/

namespace Sys2Proof

/-- An answer of the sink port to an offered byte (20_memory.md R84). -/
inductive SinkAnswer where
  | ok
  | ioErr
  deriving DecidableEq, Repr, Inhabited

/-- An answer of the source port to a request (20_memory.md R85). -/
inductive SourceAnswer where
  | byte (v : Byte)
  | eof
  | ioErr
  deriving DecidableEq, Repr, Inhabited

/-- The two agents that can move while a command is pending (10_state.md R30). -/
inductive Turn where
  | core
  | host
  deriving DecidableEq, Repr, Inhabited

/-- What the source port answers after its tape (R85, R360). -/
inductive SourceRest where
  /-- EOF for ever, as a file does at its end. -/
  | eof
  /-- The byte 0 for ever: a source that never ends. -/
  | zeros
  /-- Free: the answers of `Config.sourceTail`, then EOF or zero bytes for ever as `Config.sourceEndless` says. -/
  | draws
  deriving DecidableEq, Repr, Inhabited

/-- The configuration field `estimate` (93_implementation_defined.md I6). -/
inductive EstimateRule where
  /-- The exact-rational formula of 44_estimator.md R240, with LN2_NUM and LN2_DEN (R9, R13). -/
  | rational (num den : Nat)
  /-- Another function into 1..65535, a free value. -/
  | other
  deriving DecidableEq, Repr, Inhabited

namespace Config

/-- CORE_BASE, the host bus address of the register block (R9, I16). OPEN: see log 7. -/
opaque coreBase : Nat

/-- The default value of LN2_NUM (R9, R13); the parameter itself is in the state's `estRule` (log 8). -/
def ln2NumDefault : Nat := 693147

/-- The default value of LN2_DEN (R9, R13). -/
def ln2DenDefault : Nat := 1000000

/-- An estimate of another implementation, before it is kept in 1..65535 (I6). Free value, log 8. -/
opaque otherEstimate : Nat → Nat → Nat

/-- PortOracle, sink side (R84, I15): the answer to offer number `k` that the state's plan does not
give. Free value, log 1. -/
opaque sinkDraw : Nat → SinkAnswer

/-- PortOracle, source side (R85, I15): the answers after those of the state's tape. Free value, log 1. -/
opaque sourceTail : List SourceAnswer

/-- Whether the source supplies zero bytes for ever after `sourceTail`, instead of EOF (R360). Free value,
log 2. -/
opaque sourceEndless : Bool

/-- Who moves while a command is pending, where the state does not settle it (I23). Free value, log 3. -/
opaque turnDraw : Nat → Turn

/-- What a register read returns while BUSY = 1 (R74, I13). Free value, log 4. -/
opaque busyRead : Nat → Word

/-- BUF after an IoError (R306, I14). Free value, log 5. -/
opaque ioBuf : Nat → Byte

/-- CNT after an IoError (R306, I14). Free value, log 5. -/
opaque ioCnt : Nat → BitVec 3

/-- How many port exchanges a command abandoned by a reset had made (R340). Free value, log 6. -/
opaque abandonedAfter : Nat → Nat

end Config

end Sys2Proof
end

