-- ==== Sys2Proof/Machine/State.lean ====
section
/-! DEFINITION. The state of the codec core and of the agents around it (10_state.md, 20_memory.md), the
reasons a step can stop, and the state after power-on (R48). Plain data. -/

namespace Sys2Proof.Machine

/-- CSTATE, the execution state (R31). STATUS.BUSY is 1 exactly in `busy` (R34). -/
inductive CState where
  /-- No command pending. -/
  | idle
  /-- The command word `w` is accepted and not yet completed. -/
  | busy (w : Word)
  /-- A fault was recorded; only reset leaves this state. -/
  | halted
  deriving DecidableEq, Repr

/-- BSMODE (R34, R38); the fourth code of the field is never held. -/
inductive BsMode where
  | closed
  | write
  | read
  deriving DecidableEq, Repr

/-- ERRCODE, by kind (60_exceptions.md R301). `invalidFormat` is an outcome of the host procedures of
45_codec_framing.md; the core never records it. -/
inductive ErrCode where
  | none
  | ioError
  | invalidFormat
  | invalidParameter
  | unexpectedEndOfStream
  | illegalCommand
  | overflow
  deriving DecidableEq, Repr

/-- One access of the host to its bus, of `size` bytes at address `addr` (R11 MemRead, MemWrite). -/
inductive HostAccess where
  | read (addr size : Nat)
  | write (addr size : Nat) (value : Word)
  deriving DecidableEq, Repr

/-- Everything the spec gives the machine: the core's registers (R31 to R45), the two port agents (R47,
R84, R85) and the host agent (R30, R91). INVENTORY.md lists each field with its rule. -/
structure State where
  /-- CSTATE (R31), which holds STATUS.BUSY and the pending command word (R47). -/
  cstate : CState
  /-- OPA (R33). -/
  opa : DWord
  /-- OPB (R33). -/
  opb : DWord
  /-- RES (R33). -/
  res : DWord
  /-- STATUS.LOST (R34, R36). -/
  lost : Bool
  /-- STATUS.ERRCODE (R34, R301). -/
  errCode : ErrCode
  /-- BSMODE (R38). -/
  bsMode : BsMode
  /-- BUF (R38, R39). -/
  buf : Byte
  /-- CNT (R38, R39). -/
  cnt : BitVec 3
  /-- EOS (R38, R46). -/
  eos : Bool
  /-- BYTECNT (R38). -/
  byteCnt : DWord
  /-- M (R41). -/
  gM : Half
  /-- B (R41, R42). -/
  gB : BitVec 5
  /-- CUTOFF (R41, R42). -/
  gCutoff : Half
  /-- GMODE (R41). -/
  gMode : GMode
  /-- PREV_L (R43). -/
  prevL : Half
  /-- PREV_R (R43). -/
  prevR : Half
  /-- SUM (R45). -/
  sum : DWord
  /-- COUNT (R45). -/
  count : Word
  /-- The bytes the sink port has accepted, oldest first (R47, R84). -/
  sinkBytes : List Byte
  /-- How many offers the sink port has answered (the model's own, log 1). -/
  sinkAsked : Nat
  /-- The sink port's answers to offers 0, 1, ...; past its end each answer is free (log 1). -/
  sinkPlan : List SinkAnswer
  /-- The source port's answers to requests 0, 1, ... (log 1). -/
  srcTape : List SourceAnswer
  /-- What the source port answers past the end of `srcTape` (R85, R360; log 1, log 2). -/
  srcRest : SourceRest
  /-- The position of the source port: how many requests it has answered (R47, R85). -/
  srcPos : Nat
  /-- The accesses the host has still to make, oldest first (R91; the model's own, log 9). -/
  hostQueue : List HostAccess
  /-- The values the host's reads have returned, oldest first (the model's own, log 11). -/
  hostReplies : List Word
  /-- Who moves at the coming steps at which a command is pending (R360, I23; log 3). -/
  turns : List Turn
  /-- Who moves past the end of `turns`, at every such step; `none`: a free value each time (log 3). -/
  turnRest : Option Turn
  /-- The implementation's parameter `estimate` with LN2_NUM and LN2_DEN (R9, I6); no step changes it (log 8). -/
  estRule : EstimateRule
  /-- How many free values the machine has used (the model's own, log 11). -/
  draws : Nat
  deriving DecidableEq, Repr

/-- The state at power-on (R48, R340): the core's registers at the values of R48; the ports and the
host, which the core does not reset (R342), with nothing placed (DESIGN CHOICE, log 11); the parameter
LN2_NUM / LN2_DEN at its default (R9). -/
def State.reset : State where
  cstate := .idle
  opa := 0#64
  opb := 0#64
  res := 0#64
  lost := false
  errCode := .none
  bsMode := .closed
  buf := 0#8
  cnt := 0#3
  eos := false
  byteCnt := 0#64
  gM := 1#16
  gB := 0#5
  gCutoff := 0#16
  gMode := .interleaving
  prevL := 0#16
  prevR := 0#16
  sum := 0#64
  count := 0#32
  sinkBytes := []
  sinkAsked := 0
  sinkPlan := []
  srcTape := []
  srcRest := .draws
  srcPos := 0
  hostQueue := []
  hostReplies := []
  turns := []
  turnRest := none
  estRule := .rational Config.ln2NumDefault Config.ln2DenDefault
  draws := 0

/-- Why a step stops with a fault. The core's own errors are no such stop: they are recorded in ERRCODE
and give a next state (R306). -/
inductive Fault where
  /-- The host's next access is to an address outside the 256-byte block (R70): no address of this core.
  Raised by `hostAccess`. Safe: the core has no effect there. -/
  | outsideBlock
  deriving DecidableEq, Repr

/-- Why a step has no meaning. -/
inductive Refusal where
  /-- An instruction without a meaning, by its mnemonic. No arm of `exec` raises it. Safe. -/
  | notModelled (mnemonic : String)
  /-- A host access of a size other than 4 bytes, or not 4-byte aligned in the block: outside the
  interface, 'the model gives it no step (refused)' (R70, I19). Raised by `hostAccess`. Safe. -/
  | accessShape
  deriving DecidableEq, Repr

end Sys2Proof.Machine
end

