-- ==== Sys2Proof/Machine/Flags.lean ====
section
/-! DEFINITION. The flags: STATUS (10_state.md R34) and the codes of its fields. The core has no condition
codes (R46). -/

namespace Sys2Proof.Machine

/-- STATUS.BUSY: 1 while CSTATE = BUSY(w) (R34). -/
def isBusy (s : State) : Bool :=
  match s.cstate with
  | .busy _ => true
  | .idle => false
  | .halted => false

/-- The code of BSMODE in STATUS[3:2] (R34). -/
def bsModeCode : BsMode → BitVec 2
  | .closed => 0#2
  | .write => 1#2
  | .read => 2#2

/-- The code of ERRCODE in STATUS[11:8] (R301). -/
def errCodeBits : ErrCode → BitVec 4
  | .none => 0#4
  | .ioError => 1#4
  | .invalidFormat => 2#4
  | .invalidParameter => 3#4
  | .unexpectedEndOfStream => 4#4
  | .illegalCommand => 5#4
  | .overflow => 6#4

/-- STATUS, all its fields exact (R34); what a read returns while BUSY is `readReg`'s (R74). -/
def statusWord (s : State) : Word :=
  0#19 ++ BitVec.ofBool s.lost ++ errCodeBits s.errCode ++ BitVec.ofBool (bitOfMode s.gMode) ++ s.cnt ++
    bsModeCode s.bsMode ++ BitVec.ofBool s.eos ++ BitVec.ofBool (isBusy s)

/-- LOST <- 1, and no other effect (R36). -/
def markLost (s : State) : State := { s with lost := true }

/-- EOS <- 1 (R46, R142). -/
def markEos (s : State) : State := { s with eos := true }

end Sys2Proof.Machine
end

