-- ==== Sys2Proof/Machine/Operands.lean ====
section
/-! DEFINITION. The operand and result forms of the commands (30_encoding.md R112, 00_scope.md R12): which
low bits of OPA and OPB a command reads, and with which signedness. -/

namespace Sys2Proof.Machine

/-- `unsigned(OPA[31:0])` (R177). -/
def opaUnsigned32 (s : State) : Nat := (s.opa.extractLsb' 0 32).toNat

/-- `signed(OPA[31:0])`, a residual (R12). -/
def opaSigned32 (s : State) : Int := (s.opa.extractLsb' 0 32).toInt

/-- `OPA[15:0]`, a PCM sample as a pattern (R213). -/
def opaSample (s : State) : Half := s.opa.extractLsb' 0 16

/-- `unsigned(OPA[7:0])`, a pixel (R222). -/
def opaPixel (s : State) : Nat := (s.opa.extractLsb' 0 8).toNat

/-- Neighbour A = `OPB[7:0]`, unsigned (R221). -/
def medA (s : State) : Nat := (s.opb.extractLsb' 0 8).toNat

/-- Neighbour B = `OPB[15:8]`, unsigned (R221). -/
def medB (s : State) : Nat := (s.opb.extractLsb' 8 8).toNat

/-- Neighbour C = `OPB[23:16]`, unsigned (R221). -/
def medC (s : State) : Nat := (s.opb.extractLsb' 16 8).toNat

/-- `sext_64(trunc_32(x))`: how a signed result is written to RES (R12). -/
def signedResult (x : Int) : DWord := sext64 (trunc 32 x)

/-- `zext_64(n)`: how an unsigned result is written to RES (R12). -/
def unsignedResult (n : Nat) : DWord := BitVec.ofNat 64 n

/-- The RES value of BS.RDBIT at the end of the stream, all ones (R150). -/
def eofSentinel : DWord := 0xFFFFFFFFFFFFFFFF#64

end Sys2Proof.Machine
end

