-- ==== Sys2Proof/Machine/Ops.lean ====
section
/-! DEFINITION. The shared operations: port exchanges (20_memory.md R84, R85), the bit-level helpers
(41_bitstream.md R140 to R143), the Golomb parameter (10_state.md R42), fault entry (60_exceptions.md
R306), the frame of every command (R31, R310) and the reset of the core (70_reset_and_hazards.md R340). -/

namespace Sys2Proof.Machine

/-! ### Outcome of a step and of a part of a command -/

/-- What a step answers. -/
abbrev StepOutcome := Host.Outcome State Fault Refusal

/-- A part of a command: it completes with a value, or raises an error, both with the state reached, since
what a command wrote before a fault keeps its value (R306); or it never ends (R360). -/
inductive Flow (α : Type) where
  | done (a : α) (s : State)
  | raised (e : ErrCode) (s : State)
  | running
  deriving DecidableEq, Repr

/-- Goes on with `k` when the part before completes. -/
def andThen {α β : Type} (f : Flow α) (k : α → State → Flow β) : Flow β :=
  match f with
  | .done a s => k a s
  | .raised e s => .raised e s
  | .running => .running

/-! ### Fault entry and completion -/

/-- Fault entry (R306): ERRCODE <- code(E), CSTATE <- HALTED (so BUSY is 0); after IoError BUF and CNT hold
any value, which is a free value (log 5). RES and everything else keep their values. -/
def faultEntry (e : ErrCode) (s : State) : State :=
  match e with
  | .ioError =>
    { s with
      errCode := .ioError
      cstate := .halted
      buf := Config.ioBuf s.draws
      cnt := Config.ioCnt s.draws
      draws := s.draws + 1 }
  | _ => { s with errCode := e, cstate := .halted }

/-- A command completes: the core returns to IDLE (R31). -/
def complete (s : State) : State := { s with cstate := .idle }

/-- The end of a command that was started in `s₀`: completion, or fault entry (R31, R306). A command that
never ends leaves the state as it is: the core stays BUSY (R360), and the host sees nothing of it (R89). -/
def conclude (s₀ : State) (f : Flow Unit) : StepOutcome :=
  match f with
  | .done _ s => .next (complete s)
  | .raised e s => .next (faultEntry e s)
  | .running => .next s₀

/-- Whether BSMODE is the one a command needs; `none` is 'any' (R113). -/
def modeAllows (need : Option BsMode) (s : State) : Bool :=
  match need with
  | none => true
  | some m => s.bsMode = m

/-- The frame of every command, in the order of R310: in HALTED it is dropped and sets LOST; a BSMODE the
command does not allow is IllegalCommand; then the body, which checks its fields first. -/
def command (need : Option BsMode) (body : State → Flow Unit) (s : State) : StepOutcome :=
  if s.cstate = .halted then .next (markLost s)
  else if modeAllows need s then conclude s (body s)
  else .next (faultEntry .illegalCommand s)

/-! ### Register writes -/

/-- RES <- v. -/
def setRes (v : DWord) (s : State) : State := { s with res := v }

/-- `⌈log₂ m⌉`: the least `b` with `2^b ≥ m`, for `m ≤ 2^16` (R42). -/
def ceilLog2 (m : Nat) : Nat := ((List.range 17).find? (fun b => decide (m ≤ 2 ^ b))).getD 16

/-- M <- v, and in the same step B <- ⌈log₂ M⌉ and CUTOFF <- 2^B − M (R42). -/
def setM (v : Half) (s : State) : State :=
  { s with
    gM := v
    gB := BitVec.ofNat 5 (ceilLog2 v.toNat)
    gCutoff := BitVec.ofNat 16 (2 ^ ceilLog2 v.toNat - v.toNat) }

/-- Binds the BitStream in mode `m` with an empty buffer (R145, R146). -/
def openStream (m : BsMode) (s : State) : State :=
  { s with bsMode := m, buf := 0#8, cnt := 0#3, eos := false, byteCnt := 0#64 }

/-- Drops the bit buffer and unbinds the BitStream; EOS and BYTECNT stay (R147). -/
def closeStream (s : State) : State := { s with bsMode := .closed, buf := 0#8, cnt := 0#3 }

/-- BUF <- buf, CNT <- cnt. -/
def setBitBuffer (buf : Byte) (cnt : BitVec 3) (s : State) : State := { s with buf := buf, cnt := cnt }

/-! ### Port exchanges -/

/-- The sink port's answer to the offer it gets next: the plan's, else a draw (R84, log 1). -/
def sinkAnswer (s : State) : SinkAnswer :=
  (s.sinkPlan[s.sinkAsked]?).getD (Config.sinkDraw s.sinkAsked)

/-- `PutByte(v)` (R84): on `ok` the byte is accepted and BYTECNT counts it; on `IoErr` IoError. -/
def putByte (v : Byte) (s : State) : Flow Unit :=
  match sinkAnswer s with
  | .ok =>
    .done () { s with
      sinkBytes := s.sinkBytes ++ [v]
      sinkAsked := s.sinkAsked + 1
      byteCnt := s.byteCnt + 1#64 }
  | .ioErr => .raised .ioError { s with sinkAsked := s.sinkAsked + 1 }

/-- The answers listed after the source's tape: a free tail, or none (log 1). -/
def tailAnswers (s : State) : List SourceAnswer :=
  match s.srcRest with
  | .eof => []
  | .zeros => []
  | .draws => Config.sourceTail

/-- Whether the source supplies zero bytes for ever after its listed answers, instead of EOF (R85, R360,
log 2). -/
def zerosForever (s : State) : Bool :=
  match s.srcRest with
  | .eof => false
  | .zeros => true
  | .draws => Config.sourceEndless

/-- The listed answers that the source port has still to give (R85, log 1). -/
def pendingAnswers (s : State) : List SourceAnswer := (s.srcTape ++ tailAnswers s).drop s.srcPos

/-- The source port's answer to the request it gets next (R85). -/
def sourceAnswer (s : State) : SourceAnswer :=
  match pendingAnswers s with
  | a :: _ => a
  | [] => if zerosForever s then .byte 0#8 else .eof

/-- `GetByte()` (R85): one answer. A byte counts in BYTECNT; `none` is EOF, which consumes no byte; `IoErr`
raises IoError. -/
def getByte (s : State) : Flow (Option Byte) :=
  match sourceAnswer s with
  | .byte v => .done (some v) { s with srcPos := s.srcPos + 1, byteCnt := s.byteCnt + 1#64 }
  | .eof => .done none { s with srcPos := s.srcPos + 1 }
  | .ioErr => .raised .ioError { s with srcPos := s.srcPos + 1 }

/-! ### Bit-level helpers -/

/-- `v` with bit `i` set to `b`. -/
def withBit (v : Byte) (i : Nat) (b : Bool) : Byte :=
  if b then v ||| (1#8 <<< i) else v &&& ~~~(1#8 <<< i)

/-- `PutBit(b)` (R140): BUF[7 − CNT] <- b; the eighth bit sends the byte and empties the buffer. -/
def putBit (b : Bool) (s : State) : Flow Unit :=
  let buf := withBit s.buf (7 - s.cnt.toNat) b
  if s.cnt = 7#3 then
    andThen (putByte buf { s with buf := buf }) fun _ s' => .done () (setBitBuffer 0#8 0#3 s')
  else .done () (setBitBuffer buf (s.cnt + 1#3) s)

/-- `PutField(v, n)` (R141): the bits `v[n−1]`, ..., `v[0]`, in this order. -/
def putField (v : DWord) : Nat → State → Flow Unit
  | 0, s => .done () s
  | n + 1, s => andThen (putBit (v.getLsbD n) s) fun _ s' => putField v n s'

/-- `GetBit()` (R142); `none` is EOF. -/
def getBit (s : State) : Flow (Option Bool) :=
  if s.cnt = 0#3 then
    if s.eos then .done none s
    else
      andThen (getByte s) fun a s' =>
        match a with
        | none => .done none (markEos s')
        | some v => .done (some (v.getLsbD 7)) (setBitBuffer v 7#3 s')
  else .done (some (s.buf.getLsbD (s.cnt.toNat - 1))) (setBitBuffer s.buf (s.cnt - 1#3) s)

/-- The loop of `GetField`: `n` more bits after the value `v` (R143). A bit past the end reads as 0. -/
def getFieldFrom (v : Nat) : Nat → State → Flow Nat
  | 0, s => .done v s
  | n + 1, s => andThen (getBit s) fun t s' => getFieldFrom (2 * v + (t.getD false).toNat) n s'

/-- `GetField(n)` (R143): an `n`-bit unsigned value. -/
def getField (n : Nat) (s : State) : Flow Nat := getFieldFrom 0 n s

/-! ### Reset -/

/-- The reset of the core (R340): every register of the core at its value in R48. The ports and the host
agent are not reset (R342), and the parameters stay. -/
def resetCore (s : State) : State :=
  { State.reset with
    sinkBytes := s.sinkBytes
    sinkAsked := s.sinkAsked
    sinkPlan := s.sinkPlan
    srcTape := s.srcTape
    srcRest := s.srcRest
    srcPos := s.srcPos
    hostQueue := s.hostQueue
    hostReplies := s.hostReplies
    turns := s.turns
    turnRest := s.turnRest
    estRule := s.estRule
    draws := s.draws }

/-! ### The pending command word -/

/-- The command word the core's next step executes (R31). -/
def pendingWord (s : State) : Option Word :=
  match s.cstate with
  | .busy w => some w
  | .idle => none
  | .halted => none

end Sys2Proof.Machine
end

