-- ==== Sys2Proof/Machine/BitStream.lean ====
section
/-! DEFINITION. The BitStream commands (41_bitstream.md R145 to R151). -/

namespace Sys2Proof.Machine

/-- BS.OPENW (R145). -/
def execBsOpenw (s : State) : StepOutcome :=
  command (some .closed) (fun s => .done () (openStream .write s)) s

/-- BS.OPENR (R146). -/
def execBsOpenr (s : State) : StepOutcome :=
  command (some .closed) (fun s => .done () (openStream .read s)) s

/-- The flush of BS.CLOSE: a writer's pending bits are sent as one byte (R147). -/
def flushPending (s : State) : Flow Unit :=
  if s.bsMode = .write ∧ s.cnt ≠ 0#3 then putByte s.buf s else .done () s

/-- BS.CLOSE (R147): a no-op in CLOSED. -/
def execBsClose (s : State) : StepOutcome :=
  command none
    (fun s => andThen (flushPending s) fun _ s' =>
      .done () (if s'.bsMode = .closed then s' else closeStream s'))
    s

/-- BS.WRBIT (R148). -/
def execBsWrbit (bit : Bool) (s : State) : StepOutcome :=
  command (some .write) (putBit bit) s

/-- The range of a field width, 1..64 (R115). -/
def widthInRange (n : Nat) : Bool := 1 ≤ n && n ≤ 64

/-- BS.WRBITS (R149). -/
def execBsWrbits (n : Nat) (s : State) : StepOutcome :=
  command (some .write)
    (fun s => if widthInRange n then putField s.opa n s else .raised .invalidParameter s) s

/-- BS.RDBIT (R150). -/
def execBsRdbit (s : State) : StepOutcome :=
  command (some .read)
    (fun s => andThen (getBit s) fun t s' =>
      match t with
      | none => .done () (setRes eofSentinel s')
      | some b => .done () (setRes (zext64 (BitVec.ofBool b)) s'))
    s

/-- BS.RDBITS (R151). -/
def execBsRdbits (n : Nat) (s : State) : StepOutcome :=
  command (some .read)
    (fun s =>
      if widthInRange n then andThen (getField n s) fun v s' => .done () (setRes (unsignedResult v) s')
      else .raised .invalidParameter s)
    s

end Sys2Proof.Machine
end

