-- ==== Sys2Proof/Machine/Estimator.lean ====
section
/-! DEFINITION. The block-adaptive m estimator (44_estimator.md R240 to R243). -/

namespace Sys2Proof.Machine

/-- `estimate(SUM, COUNT)` for a rational approximation `num / den` of ln 2 (R240): 1 for an empty block,
else the exact mean times `num / den`, rounded half up, kept in 1..65535. -/
def estimateWith (num den sum count : Nat) : Nat :=
  if count = 0 then 1
  else min 65535 (max 1 ((2 * sum * num + count * den) / (2 * count * den)))

/-- The configuration field `estimate : (SUM, COUNT) → 1..65535` (I6, R240; log 8). -/
def estimate (r : EstimateRule) (sum count : Nat) : Nat :=
  match r with
  | .rational num den => estimateWith num den sum count
  | .other => min 65535 (max 1 (Config.otherEstimate sum count))

/-- EST.CLR (R241). -/
def execEstClr (s : State) : StepOutcome :=
  command none (fun s => .done () { s with sum := 0#64, count := 0#32 }) s

/-- EST.ACC (R242): Overflow when COUNT is full. -/
def execEstAcc (s : State) : StepOutcome :=
  command none
    (fun s =>
      if s.count = 0xFFFFFFFF#32 then .raised .overflow s
      else .done () { s with
        sum := s.sum + BitVec.ofNat 64 (opaSigned32 s).natAbs
        count := s.count + 1#32 })
    s

/-- EST.M (R243): the estimate goes to M and to RES. -/
def execEstM (s : State) : StepOutcome :=
  command none
    (fun s =>
      let v := estimate s.estRule s.sum.toNat s.count.toNat
      .done () (setRes (unsignedResult v) (setM (BitVec.ofNat 16 v) s)))
    s

end Sys2Proof.Machine
end

