-- ==== Sys2Proof/Machine/Golomb.lean ====
section
/-! DEFINITION. The Golomb coder: its shared procedures (42_golomb.md R170 to R174) and its commands
(R175 to R181). -/

namespace Sys2Proof.Machine

/-! ### Procedures -/

/-- `PutUnary(q)` (R170): `q` zero bits, then a one bit. -/
def putUnary : Nat → State → Flow Unit
  | 0, s => putBit true s
  | q + 1, s => andThen (putBit false s) fun _ s' => putUnary q s'

/-- The truncated-binary code of the remainder `r` (R171): nothing when M = 1, `B − 1` bits when `r` is
below CUTOFF, else `r + CUTOFF` in `B` bits. -/
def putRemainder (r : Nat) (s : State) : Flow Unit :=
  if s.gM = 1#16 then .done () s
  else if r < s.gCutoff.toNat then putField (BitVec.ofNat 64 r) (s.gB.toNat - 1) s
  else putField (BitVec.ofNat 64 (r + s.gCutoff.toNat)) s.gB.toNat s

/-- `EncodeU(n)` (R171). -/
def encodeU (n : Nat) (s : State) : Flow Unit :=
  andThen (putUnary (n / s.gM.toNat) s) fun _ s' => putRemainder (n % s.gM.toNat) s'

/-- The loop of `GetUnary()` (R172) with `q` zeros read so far. The first argument bounds the bits read:
past `unaryBound` of them only a source of endless zero bytes still answers, and the loop never ends (R360,
log 2). -/
def getUnaryFrom : Nat → Nat → State → Flow Nat
  | 0, _, _ => .running
  | fuel + 1, q, s =>
    andThen (getBit s) fun t s' =>
      match t with
      | none => .raised .unexpectedEndOfStream s'
      | some true => .done q s'
      | some false => getUnaryFrom fuel (q + 1) s'

/-- One more than the number of bits that are buffered or that the source's listed answers can supply. -/
def unaryBound (s : State) : Nat := s.cnt.toNat + 8 * (pendingAnswers s).length + 1

/-- `GetUnary()` (R172): the number of zeros before the next one bit. -/
def getUnary (s : State) : Flow Nat := getUnaryFrom (unaryBound s) 0 s

/-- The remainder part of `DecodeU()` (R173). -/
def getRemainder (s : State) : Flow Nat :=
  if s.gM = 1#16 then .done 0 s
  else
    andThen (getField (s.gB.toNat - 1) s) fun h s' =>
      if h < s.gCutoff.toNat then .done h s'
      else andThen (getField 1 s') fun t s'' => .done (2 * h + t - s.gCutoff.toNat) s''

/-- `DecodeU()` (R173): Overflow when `q·M + r` does not fit 32 bits. -/
def decodeU (s : State) : Flow Nat :=
  andThen (getUnary s) fun q s' =>
    andThen (getRemainder s') fun r s'' =>
      if 2 ^ 32 ≤ q * s.gM.toNat + r then .raised .overflow s''
      else .done (q * s.gM.toNat + r) s''

/-- `map(n)` of INTERLEAVING (R174): `2n` for `n ≥ 0`, `−2n − 1` for `n < 0`. -/
def interleave (n : Int) : Nat := if 0 ≤ n then (2 * n).toNat else (-2 * n - 1).toNat

/-- The inverse of `interleave` (R174): even `u → u/2`, odd `u → −(u+1)/2`. -/
def uninterleave (u : Nat) : Int := if u % 2 = 0 then ((u / 2 : Nat) : Int) else -(((u + 1) / 2 : Nat) : Int)

/-- The signed encoding of `n` under GMODE (R174, R179). -/
def encodeSigned (n : Int) (s : State) : Flow Unit :=
  match s.gMode with
  | .interleaving => encodeU (interleave n) s
  | .signAndMagnitude => andThen (putBit (decide (n < 0)) s) fun _ s' => encodeU n.natAbs s'

/-- The value of a sign bit and a magnitude; Overflow when it does not fit a signed 32-bit result (R180). -/
def signMagnitude (negative : Bool) (u : Nat) (s : State) : Flow Int :=
  if negative then if 2 ^ 31 < u then .raised .overflow s else .done (-(u : Int)) s
  else if 2 ^ 31 - 1 < u then .raised .overflow s else .done (u : Int) s

/-- The signed decoding under GMODE (R180). -/
def decodeSigned (s : State) : Flow Int :=
  match s.gMode with
  | .interleaving => andThen (decodeU s) fun u s' => .done (uninterleave u) s'
  | .signAndMagnitude =>
    andThen (getBit s) fun t s' =>
      match t with
      | none => .raised .unexpectedEndOfStream s'
      | some negative => andThen (decodeU s') fun u s'' => signMagnitude negative u s''

/-! ### Commands -/

/-- G.SETM (R175): 0 is InvalidParameter. -/
def execGSetm (imm : Half) (s : State) : StepOutcome :=
  command none
    (fun s => if imm = 0#16 then .raised .invalidParameter s else .done () (setM imm s)) s

/-- G.SETMODE (R176). -/
def execGSetmode (mode : GMode) (s : State) : StepOutcome :=
  command none (fun s => .done () { s with gMode := mode }) s

/-- G.ENCU (R177). -/
def execGEncu (s : State) : StepOutcome :=
  command (some .write) (fun s => encodeU (opaUnsigned32 s) s) s

/-- G.DECU (R178). -/
def execGDecu (s : State) : StepOutcome :=
  command (some .read)
    (fun s => andThen (decodeU s) fun u s' => .done () (setRes (unsignedResult u) s')) s

/-- G.ENC (R179). -/
def execGEnc (s : State) : StepOutcome :=
  command (some .write) (fun s => encodeSigned (opaSigned32 s) s) s

/-- G.DEC (R180). -/
def execGDec (s : State) : StepOutcome :=
  command (some .read)
    (fun s => andThen (decodeSigned s) fun n s' => .done () (setRes (signedResult n) s')) s

/-- The block parameter a 16-bit field stands for: 0 is clamped up to 1 (R181). -/
def clampZeroM (v : Nat) : Nat := if v = 0 then 1 else v

/-- G.RDM (R181). -/
def execGRdm (s : State) : StepOutcome :=
  command (some .read)
    (fun s => andThen (getField 16 s) fun v s' =>
      .done () (setRes (unsignedResult (clampZeroM v)) (setM (BitVec.ofNat 16 (clampZeroM v)) s')))
    s

end Sys2Proof.Machine
end

