-- ==== Sys2Proof/Machine/Predictor.lean ====
section
/-! DEFINITION. The audio predictor (43_predictors.md R210 to R216) and the MED image predictor (R220 to
R223). -/

namespace Sys2Proof.Machine

/-! ### Audio predictor -/

/-- The residual of sample `x` against PREV_L, the only prediction there is (R210, R213, R214); exact. -/
def audioResidual (x : Half) (s : State) : Int := x.toInt - s.prevL.toInt

/-- The sample that residual OPA[31:0] stands for against PREV_L, with 16-bit wrap (R215, R216). -/
def audioSample (s : State) : Half := trunc 16 (s.prevL.toInt + opaSigned32 s)

/-- AP.RESET (R212). -/
def execApReset (s : State) : StepOutcome :=
  command none (fun s => .done () { s with prevL := 0#16, prevR := 0#16 }) s

/-- AP.ENCL (R213). -/
def execApEncl (s : State) : StepOutcome :=
  command none
    (fun s => .done () (setRes (signedResult (audioResidual (opaSample s) s)) { s with prevL := opaSample s })) s

/-- AP.ENCR (R214): PREV_L is this frame's left sample and stays. -/
def execApEncr (s : State) : StepOutcome :=
  command none
    (fun s => .done () (setRes (signedResult (audioResidual (opaSample s) s)) { s with prevR := opaSample s })) s

/-- AP.DECL (R215). -/
def execApDecl (s : State) : StepOutcome :=
  command none (fun s => .done () (setRes (sext64 (audioSample s)) { s with prevL := audioSample s })) s

/-- AP.DECR (R216): PREV_L stays. -/
def execApDecr (s : State) : StepOutcome :=
  command none (fun s => .done () (setRes (sext64 (audioSample s)) { s with prevR := audioSample s })) s

/-! ### MED predictor -/

/-- `P(A, B, C)` (R220), the conditions tested in the rule's order. -/
def medPredict (a b c : Nat) : Int :=
  if max a b ≤ c then (min a b : Nat)
  else if c ≤ min a b then (max a b : Nat)
  else (a : Int) + b - c

/-- `P` of the neighbours in OPB (R221). -/
def medPrediction (s : State) : Int := medPredict (medA s) (medB s) (medC s)

/-- The defensive clamp to 0..255 (R223). -/
def clampPixel (v : Int) : Int := min 255 (max 0 v)

/-- MED.PRED (R221). -/
def execMedPred (s : State) : StepOutcome :=
  command none (fun s => .done () (setRes (unsignedResult (medPrediction s).toNat) s)) s

/-- MED.ENC (R222). -/
def execMedEnc (s : State) : StepOutcome :=
  command none (fun s => .done () (setRes (signedResult ((opaPixel s : Int) - medPrediction s)) s)) s

/-- MED.DEC (R223). -/
def execMedDec (s : State) : StepOutcome :=
  command none
    (fun s => .done () (setRes (unsignedResult (clampPixel (medPrediction s + opaSigned32 s)).toNat) s)) s

end Sys2Proof.Machine
end

