-- ==== Sys2Proof/Machine/Dispatch.lean ====
section
/-! DEFINITION. The meaning of every command, one arm per constructor of Instr. -/

namespace Sys2Proof.Machine

def exec (i : Instr) (s : State) : Host.Outcome State Fault Refusal :=
  match i with
  | .bsOpenw => Sys2Proof.Machine.execBsOpenw s
  | .bsOpenr => Sys2Proof.Machine.execBsOpenr s
  | .bsClose => Sys2Proof.Machine.execBsClose s
  | .bsWrbit bit => Sys2Proof.Machine.execBsWrbit bit s
  | .bsWrbits n => Sys2Proof.Machine.execBsWrbits n s
  | .bsRdbit => Sys2Proof.Machine.execBsRdbit s
  | .bsRdbits n => Sys2Proof.Machine.execBsRdbits n s
  | .gSetm imm => Sys2Proof.Machine.execGSetm imm s
  | .gSetmode mode => Sys2Proof.Machine.execGSetmode mode s
  | .gEncu => Sys2Proof.Machine.execGEncu s
  | .gDecu => Sys2Proof.Machine.execGDecu s
  | .gEnc => Sys2Proof.Machine.execGEnc s
  | .gDec => Sys2Proof.Machine.execGDec s
  | .gRdm => Sys2Proof.Machine.execGRdm s
  | .apReset => Sys2Proof.Machine.execApReset s
  | .apEncl => Sys2Proof.Machine.execApEncl s
  | .apEncr => Sys2Proof.Machine.execApEncr s
  | .apDecl => Sys2Proof.Machine.execApDecl s
  | .apDecr => Sys2Proof.Machine.execApDecr s
  | .medPred => Sys2Proof.Machine.execMedPred s
  | .medEnc => Sys2Proof.Machine.execMedEnc s
  | .medDec => Sys2Proof.Machine.execMedDec s
  | .estClr => Sys2Proof.Machine.execEstClr s
  | .estAcc => Sys2Proof.Machine.execEstAcc s
  | .estM => Sys2Proof.Machine.execEstM s

end Sys2Proof.Machine
end

