-- ==== Sys2Proof/Machine/CoreStep.lean ====
section
/-! DEFINITION. The core's own step: the command of the pending word, as one atomic transition (10_state.md
R31, 30_encoding.md R114). -/

namespace Sys2Proof.Machine

/-- A word that spells no command, executed: IllegalCommand (R114), within the frame of R310. -/
def illegalWord (s : State) : StepOutcome :=
  command none (fun s => .raised .illegalCommand s) s

/-- Executes the command of word `w` (R31, R114). -/
def runWord (w : Word) (s : State) : StepOutcome :=
  match decode w with
  | .ok i => exec i s
  | .error _ => illegalWord s

/-- The state the command of `w` leaves; every command gives one (a fault is a state, R306; a command that never
ends stays BUSY, R360). -/
def afterCommand (w : Word) (s : State) : State :=
  match runWord w s with
  | .next t => t
  | .fault _ => s
  | .refused _ => s

end Sys2Proof.Machine
end

