-- ==== Sys2Proof/Machine/RegisterBlock.lean ====
section
/-! DEFINITION. The register block (20_memory.md R70 to R74): its map, what a read returns and what a write
does, and the host's accesses to it. -/

namespace Sys2Proof.Machine

/-- The registers of the block (R71); `reserved` is every other offset. -/
inductive Reg where
  | cmd
  | status
  | ctrl
  | opaLo
  | opaHi
  | opbLo
  | opbHi
  | resLo
  | resHi
  | gparam
  | gcutoff
  | bsbuf
  | bytecntLo
  | bytecntHi
  | aprev
  | estsumLo
  | estsumHi
  | estcnt
  | reserved
  deriving DecidableEq, Repr

/-- The register map (R71), by offset from CORE_BASE. -/
def regAt (off : Nat) : Reg :=
  match off with
  | 0x00 => .cmd
  | 0x04 => .status
  | 0x08 => .ctrl
  | 0x10 => .opaLo
  | 0x14 => .opaHi
  | 0x18 => .opbLo
  | 0x1C => .opbHi
  | 0x20 => .resLo
  | 0x24 => .resHi
  | 0x28 => .gparam
  | 0x2C => .gcutoff
  | 0x30 => .bsbuf
  | 0x38 => .bytecntLo
  | 0x3C => .bytecntHi
  | 0x40 => .aprev
  | 0x48 => .estsumLo
  | 0x4C => .estsumHi
  | 0x50 => .estcnt
  | _ => .reserved

/-! ### Halves of 64-bit registers -/

/-- The `_LO` half, bits 31:0 (R73). -/
def loHalf (v : DWord) : Word := v.extractLsb' 0 32

/-- The `_HI` half, bits 63:32 (R73). -/
def hiHalf (v : DWord) : Word := v.extractLsb' 32 32

/-- `v` with its `_LO` half replaced (R73). -/
def withLo (v : DWord) (x : Word) : DWord := hiHalf v ++ x

/-- `v` with its `_HI` half replaced (R73). -/
def withHi (v : DWord) (x : Word) : DWord := x ++ loHalf v

/-! ### Reads -/

/-- What a register holds (R34, R71, R72): CMD, CTRL and the reserved offsets read 0. -/
def regValue (r : Reg) (s : State) : Word :=
  match r with
  | .cmd => 0#32
  | .status => statusWord s
  | .ctrl => 0#32
  | .opaLo => loHalf s.opa
  | .opaHi => hiHalf s.opa
  | .opbLo => loHalf s.opb
  | .opbHi => hiHalf s.opb
  | .resLo => loHalf s.res
  | .resHi => hiHalf s.res
  | .gparam => 0#11 ++ s.gB ++ s.gM
  | .gcutoff => 0#16 ++ s.gCutoff
  | .bsbuf => 0#24 ++ s.buf
  | .bytecntLo => loHalf s.byteCnt
  | .bytecntHi => hiHalf s.byteCnt
  | .aprev => s.prevR ++ s.prevL
  | .estsumLo => loHalf s.sum
  | .estsumHi => hiHalf s.sum
  | .estcnt => s.count
  | .reserved => 0#32

/-- The bits of a register whose value a read while BUSY = 1 does not fix (R74 with D5 and I13): the STATUS
fields other than BUSY, and all of OPA, OPB and the result and state registers. CMD, CTRL, the reserved offsets
and STATUS[31:13] read 0 always (R34, R72; log 4). -/
def busyMask (r : Reg) : Word :=
  match r with
  | .status => 0x00001FFE#32
  | .opaLo => BitVec.allOnes 32
  | .opaHi => BitVec.allOnes 32
  | .opbLo => BitVec.allOnes 32
  | .opbHi => BitVec.allOnes 32
  | .resLo => BitVec.allOnes 32
  | .resHi => BitVec.allOnes 32
  | .gparam => BitVec.allOnes 32
  | .gcutoff => BitVec.allOnes 32
  | .bsbuf => BitVec.allOnes 32
  | .bytecntLo => BitVec.allOnes 32
  | .bytecntHi => BitVec.allOnes 32
  | .aprev => BitVec.allOnes 32
  | .estsumLo => BitVec.allOnes 32
  | .estsumHi => BitVec.allOnes 32
  | .estcnt => BitVec.allOnes 32
  | .cmd => 0#32
  | .ctrl => 0#32
  | .reserved => 0#32

/-- What a host read of `r` returns (R72, R74): the register, but for the bits a draw replaces while
BUSY = 1. -/
def readReg (r : Reg) (s : State) : Word :=
  if isBusy s then (regValue r s &&& ~~~busyMask r) ||| (Config.busyRead s.draws &&& busyMask r)
  else regValue r s

/-- The read uses up a draw while BUSY = 1; it has no other effect on the machine (R72). -/
def afterRead (s : State) : State := if isBusy s then { s with draws := s.draws + 1 } else s

/-! ### Writes -/

/-- What a command abandoned by a reset leaves of its port exchanges (R340): some number of them, a free
value (log 6), were made before the reset; `t` is the state the whole command would have left, BUSY still if
it never ends, reading zero bytes without end (R360). -/
def abandonPorts (t s : State) : State :=
  let k := Config.abandonedAfter s.draws
  { s with
    sinkBytes := s.sinkBytes ++ (t.sinkBytes.drop s.sinkBytes.length).take k
    sinkAsked := min (s.sinkAsked + k) t.sinkAsked
    srcPos := if isBusy t then s.srcPos + k else min (s.srcPos + k) t.srcPos
    draws := s.draws + 1 }

/-- CTRL.SRST (R35, R340): the core's registers take their reset values in every CSTATE; a pending command
is abandoned. -/
def softReset (s : State) : State :=
  match s.cstate with
  | .busy w => resetCore (abandonPorts (afterCommand w s) s)
  | .idle => resetCore s
  | .halted => resetCore s

/-- A write of CMD (R31, R36, R37, R308): in IDLE it starts the command, else it is dropped and sets LOST. -/
def writeCmd (w : Word) (s : State) : State :=
  match s.cstate with
  | .idle => { s with cstate := .busy w }
  | .busy _ => markLost s
  | .halted => markLost s

/-- A write of OPA or OPB (R36): dropped while BUSY, setting LOST; else stored. -/
def writeOperand (f : State → State) (s : State) : State := if isBusy s then markLost s else f s

/-- What a host write of `v` to `r` does (R72): a write to a read-only register or to a reserved offset is
ignored. -/
def writeReg (r : Reg) (v : Word) (s : State) : State :=
  match r with
  | .cmd => writeCmd v s
  | .ctrl => if v.getLsbD 0 then softReset s else s
  | .opaLo => writeOperand (fun s => { s with opa := withLo s.opa v }) s
  | .opaHi => writeOperand (fun s => { s with opa := withHi s.opa v }) s
  | .opbLo => writeOperand (fun s => { s with opb := withLo s.opb v }) s
  | .opbHi => writeOperand (fun s => { s with opb := withHi s.opb v }) s
  | .status => s
  | .resLo => s
  | .resHi => s
  | .gparam => s
  | .gcutoff => s
  | .bsbuf => s
  | .bytecntLo => s
  | .bytecntHi => s
  | .aprev => s
  | .estsumLo => s
  | .estsumHi => s
  | .estcnt => s
  | .reserved => s

/-! ### Accesses -/

/-- Where an access falls (R70). -/
inductive Place where
  /-- An aligned 32-bit access to the block, at this offset. -/
  | inside (off : Nat)
  /-- An address that is not of the block. -/
  | outside
  /-- An access to the block of another size or alignment. -/
  | misshapen
  deriving DecidableEq, Repr

/-- The place of an access of `size` bytes at offset `off` of the block (R70). -/
def placeAt (off size : Nat) : Place :=
  if 256 ≤ off then .outside
  else if size = 4 ∧ off % 4 = 0 then .inside off
  else .misshapen

/-- The place of an access of `size` bytes at address `addr` of the host bus (R70). -/
def placeOf (addr size : Nat) : Place :=
  if addr < Config.coreBase then .outside else placeAt (addr - Config.coreBase) size

/-- One access of the host (R70, R91). A read's value goes to the host. -/
def hostAccess (a : HostAccess) (s : State) : StepOutcome :=
  match a with
  | .read addr size =>
    match placeOf addr size with
    | .inside off =>
      .next { afterRead s with hostReplies := s.hostReplies ++ [readReg (regAt off) s] }
    | .outside => .fault .outsideBlock
    | .misshapen => .refused .accessShape
  | .write addr size v =>
    match placeOf addr size with
    | .inside off => .next (writeReg (regAt off) v s)
    | .outside => .fault .outsideBlock
    | .misshapen => .refused .accessShape

end Sys2Proof.Machine
end

