-- ==== Sys2Proof/Machine/Agents.lean ====
section
/-! DEFINITION. Which agent moves next (10_state.md R30, R31). With no command pending the host moves. While a
command is pending, the state's turns say at each step whether the core completes it or the host moves first:
the command takes any time (70_reset_and_hazards.md R360, log 3). -/

namespace Sys2Proof.Machine

/-- The move a step makes. -/
inductive Move where
  /-- The host has no access to make: the core waits in IDLE or HALTED (R342), or is BUSY still (R360). -/
  | wait
  /-- The core executes the pending command word. -/
  | core (w : Word)
  /-- The host makes this access. -/
  | host (a : HostAccess)
  deriving DecidableEq, Repr

/-- Who moves while a command is pending, and the state with that turn used up. -/
def nextTurn (s : State) : Turn × State :=
  match s.turns, s.turnRest with
  | t :: ts, _ => (t, { s with turns := ts })
  | [], some t => (t, s)
  | [], none => (Config.turnDraw s.draws, { s with draws := s.draws + 1 })

/-- The host's move in `s`, and the state in which it is made (the access taken off the host's queue). -/
def hostMove (s : State) : Move × State :=
  match s.hostQueue with
  | [] => (.wait, s)
  | a :: rest => (.host a, { s with hostQueue := rest })

/-- The next move, and the state in which it is made. -/
def arbitrate (s : State) : Move × State :=
  match pendingWord s with
  | none => hostMove s
  | some w =>
    match nextTurn s with
    | (.core, s') => (.core w, s')
    | (.host, s') => hostMove s'

/-- Makes a move. -/
def perform (m : Move) (s : State) : StepOutcome :=
  match m with
  | .wait => .next s
  | .core w => runWord w s
  | .host a => hostAccess a s

/-- Puts the command word `w` where the core's next step takes it from, and gives the core the turn. -/
def placeWord (w : Word) (s : State) : State := { s with cstate := .busy w, turns := [], turnRest := some .core }

end Sys2Proof.Machine
end

