-- ==== Sys2Proof/Machine/Step.lean ====
section
/-! DEFINITION. One step of the machine. -/

namespace Sys2Proof.Machine

/-- One step: the agent whose move it is makes it (10_state.md R30, R31; 20_memory.md R91). -/
def step (s : State) : Host.Outcome State Fault Refusal :=
  perform (arbitrate s).1 (arbitrate s).2

/-- `s` with the command word of `nbits` table bits `w` accepted and pending (CSTATE = BUSY, R31), so that
the very next step executes it. -/
def State.withFetchWord (s : State) (nbits w : Nat) : State := placeWord (tableWord nbits w) s

end Sys2Proof.Machine
end

