-- ==== Sys2Proof/Machine/Framing.lean ====
section
/-! DEFINITION. The GACL and GICL stream formats (45_codec_framing.md R260 to R264, R270): header layouts,
little-endian and packed (20_memory.md R83), their validation, and how frames and rows are cut into blocks. -/

namespace Sys2Proof.Machine

/-! ### Little-endian fields -/

/-- The `n` bytes of a header field, least significant byte first (R83). The spec does not say what becomes of a
value that does not fit the field (a sample rate, width or height of 2^32 or more, 2^64 frames or more): its low
`n` bytes are written and no error is raised. DESIGN CHOICE, log 18. -/
def leBytes : Nat → Nat → List Byte
  | 0, _ => []
  | n + 1, v => BitVec.ofNat 8 v :: leBytes n (v / 256)

/-- The unsigned value of the bytes of a header field, least significant byte first (R83, D35). -/
def leValue : List Byte → Nat
  | [] => 0
  | b :: bs => b.toNat + 256 * leValue bs

/-- The field of `n` bytes at byte offset `off` of a header. -/
def fieldAt (hdr : List Byte) (off n : Nat) : Nat := leValue ((hdr.drop off).take n)

/-! ### GACL -/

/-- The magic `"GACL"` (R260). -/
def gaclMagic : List Byte := [0x47#8, 0x41#8, 0x43#8, 0x4C#8]

/-- The length of the GACL header in bytes (R260). -/
def gaclLength : Nat := 25

/-- The variable fields of a GACL header (R260). -/
structure GaclHeader where
  channels : Nat
  sampleRate : Nat
  totalFrames : Nat
  adaptive : Bool
  fixedM : Nat
  deriving DecidableEq, Repr

/-- The adaptive byte: 0 fixed m, 1 adaptive (R260). -/
def adaptiveByte (adaptive : Bool) : Nat := adaptive.toNat

/-- The fixed_m field: 0 is written when adaptive (R260). -/
def fixedMField (adaptive : Bool) (m : Nat) : Nat := if adaptive then 0 else m

/-- The 25 bytes of a GACL header (R260). -/
def gaclBytes (h : GaclHeader) : List Byte :=
  gaclMagic ++ leBytes 2 1 ++ leBytes 2 h.channels ++ leBytes 4 h.sampleRate ++ leBytes 2 16 ++
    leBytes 8 h.totalFrames ++ leBytes 1 (adaptiveByte h.adaptive) ++ leBytes 2 (fixedMField h.adaptive h.fixedM)

/-- GACL header validation, in the order of R270; every failure here is InvalidFormat. A zero fixed_m is
not checked here: G.SETM faults on it. -/
def parseGacl (hdr : List Byte) : Except ErrCode GaclHeader :=
  if hdr.take 4 ≠ gaclMagic then .error .invalidFormat
  else if fieldAt hdr 4 2 ≠ 1 then .error .invalidFormat
  else if fieldAt hdr 6 2 ≠ 1 ∧ fieldAt hdr 6 2 ≠ 2 then .error .invalidFormat
  else if fieldAt hdr 12 2 ≠ 16 then .error .invalidFormat
  else if 1 < fieldAt hdr 22 1 then .error .invalidFormat
  else .ok
    { channels := fieldAt hdr 6 2
      sampleRate := fieldAt hdr 8 4
      totalFrames := fieldAt hdr 14 8
      adaptive := fieldAt hdr 22 1 == 1
      fixedM := fieldAt hdr 23 2 }

/-! ### GICL -/

/-- The magic `"GICL"` (R261). -/
def giclMagic : List Byte := [0x47#8, 0x49#8, 0x43#8, 0x4C#8]

/-- The length of the GICL header in bytes (R261). -/
def giclLength : Nat := 17

/-- The variable fields of a GICL header (R261). -/
structure GiclHeader where
  width : Nat
  height : Nat
  adaptive : Bool
  fixedM : Nat
  deriving DecidableEq, Repr

/-- The 17 bytes of a GICL header (R261). -/
def giclBytes (h : GiclHeader) : List Byte :=
  giclMagic ++ leBytes 2 1 ++ leBytes 4 h.width ++ leBytes 4 h.height ++
    leBytes 1 (adaptiveByte h.adaptive) ++ leBytes 2 (fixedMField h.adaptive h.fixedM)

/-- GICL header validation (R272): magic, version, adaptive byte. -/
def parseGicl (hdr : List Byte) : Except ErrCode GiclHeader :=
  if hdr.take 4 ≠ giclMagic then .error .invalidFormat
  else if fieldAt hdr 4 2 ≠ 1 then .error .invalidFormat
  else if 1 < fieldAt hdr 14 1 then .error .invalidFormat
  else .ok
    { width := fieldAt hdr 6 4
      height := fieldAt hdr 10 4
      adaptive := fieldAt hdr 14 1 == 1
      fixedM := fieldAt hdr 15 2 }

/-! ### Blocks -/

/-- Frames in a full audio block (R8 AUDIO_BLOCK). -/
def audioBlock : Nat := 4096

/-- Rows in a full image band (R8 IMAGE_BAND). -/
def imageBand : Nat := 64

/-- How many blocks of `size` cover `n` items, `⌈n / size⌉` (R263, R264). -/
def blockCount (size n : Nat) : Nat := (n + size - 1) / size

/-- How many of `n` items block `j` holds, `min(size, n − size·j)` (R263, R264). -/
def blockLength (size n j : Nat) : Nat := min size (n - size * j)

end Sys2Proof.Machine
end

