-- ==== Sys2Proof/Machine/HostProcedure.lean ====
section
/-! DEFINITION. The host procedures of 45_codec_framing.md (R268, R269, R271, R272), written over the
register block in the host notation of 30_encoding.md R118. A procedure is a `Flow`: it completes, or
stops with an error, both with the machine's state, or waits for ever for a command that never ends (log 12). -/

namespace Sys2Proof.Machine

/-! ### Host notation (R118) -/

/-- `OPA = v` (R118). -/
def hostSetOpa (v : DWord) (s : State) : State := writeReg .opaHi (hiHalf v) (writeReg .opaLo (loHalf v) s)

/-- `OPB = v` (R118). -/
def hostSetOpb (v : DWord) (s : State) : State := writeReg .opbHi (hiHalf v) (writeReg .opbLo (loHalf v) s)

/-- `ISSUE C` (R118). -/
def hostIssue (i : Instr) (s : State) : State := writeReg .cmd (encode i) s

/-- `WAIT` (R118, R350): the core completes the pending command; the wait does not end when the command does
not (R360). The reads of STATUS that find BUSY = 1 change nothing (R72) and are left out (log 12). -/
def hostWait (s : State) : Flow Unit :=
  match pendingWord s with
  | some w => if isBusy (afterCommand w s) then .running else .done () (afterCommand w s)
  | none => .done () s

/-- `t = RES` (R118). -/
def hostRes (s : State) : DWord := readReg .resHi s ++ readReg .resLo s

/-- `CHECK` (R118): the procedure stops with the error that STATUS shows. -/
def hostCheck (s : State) : Flow Unit :=
  if (readReg .status s).extractLsb' 8 4 = 0#4 then .done () s else .raised s.errCode s

/-- `DO C; CHECK` (R118; 45_codec_framing.md, opening). -/
def hostDo (i : Instr) (s : State) : Flow Unit := andThen (hostWait (hostIssue i s)) fun _ s' => hostCheck s'

/-- `RESET` (R118). -/
def hostReset (s : State) : State := writeReg .ctrl 1#32 s

/-- `PUTB8 v` (R118). -/
def hostPutB8 (v : Byte) (s : State) : Flow Unit := hostDo (.bsWrbits 8) (hostSetOpa (zext64 v) s)

/-- `GETB8 t` (R118). -/
def hostGetB8 (s : State) : Flow Byte :=
  andThen (hostDo (.bsRdbits 8) s) fun _ s' => .done ((hostRes s').setWidth 8) s'

/-- `OPA = v; DO C; t = RES`. -/
def hostApply (i : Instr) (v : DWord) (s : State) : Flow DWord :=
  andThen (hostDo i (hostSetOpa v s)) fun _ s' => .done (hostRes s') s'

/-- `DO C; t = RES`. -/
def hostFetch (i : Instr) (s : State) : Flow DWord := andThen (hostDo i s) fun _ s' => .done (hostRes s') s'

/-- The commands of a list, one after another. -/
def hostDoAll : List Instr → State → Flow Unit
  | [], s => .done () s
  | i :: is, s => andThen (hostDo i s) fun _ s' => hostDoAll is s'

/-- `PUTB8` of each byte of a list (R262). -/
def hostPutBytes : List Byte → State → Flow Unit
  | [], s => .done () s
  | v :: vs, s => andThen (hostPutB8 v s) fun _ s' => hostPutBytes vs s'

/-- `GETB8` `n` times (R262). -/
def hostGetBytes : Nat → State → Flow (List Byte)
  | 0, s => .done [] s
  | n + 1, s =>
    andThen (hostGetB8 s) fun v s' => andThen (hostGetBytes n s') fun vs s'' => .done (v :: vs) s''

/-- `STATUS.EOS = 1`, as the host reads it. -/
def hostSeesEos (s : State) : Bool := (readReg .status s).getLsbD 1

/-- Runs a procedure for each number of a list. -/
def hostForEach (body : Nat → State → Flow Unit) : List Nat → State → Flow Unit
  | [], s => .done () s
  | j :: js, s => andThen (body j s) fun _ s' => hostForEach body js s'

/-- Issues `C` with OPA = e for each residual `e` (EST.ACC, G.ENC). -/
def hostFeed (i : Instr) : List DWord → State → Flow Unit
  | [], s => .done () s
  | e :: es, s => andThen (hostDo i (hostSetOpa e s)) fun _ s' => hostFeed i es s'

/-! ### Blocks of residuals (R263, R264) -/

/-- Computes a block's `m` and writes it as a 16-bit field (R268, R271, R355); M is then the block's `m`. -/
def hostPutBlockM (es : List DWord) (s : State) : Flow Unit :=
  andThen (hostDo .estClr s) fun _ s1 =>
    andThen (hostFeed .estAcc es s1) fun _ s2 =>
      andThen (hostFetch .estM s2) fun m s3 => hostDo (.bsWrbits 16) (hostSetOpa m s3)

/-- Writes a block: its `m` field when adaptive, then its residuals' codewords (R263, R264). -/
def hostPutBlock (adaptive : Bool) (es : List DWord) (s : State) : Flow Unit :=
  if adaptive then andThen (hostPutBlockM es s) fun _ s' => hostFeed .gEnc es s' else hostFeed .gEnc es s

/-- The encoders' check of a fixed `m` (R268, R271). -/
def fixedMAllowed (adaptive : Bool) (m : Nat) : Bool := adaptive || (1 ≤ m && m ≤ 65535)

/-- `if not adaptive: DO G.SETM m` (R268, R269, R271, R272). -/
def hostSetFixedM (adaptive : Bool) (m : Nat) (s : State) : Flow Unit :=
  if adaptive then .done () s else hostDo (.gSetm (BitVec.ofNat 16 m)) s

/-- `if adaptive = 1: DO G.RDM` (R269, R272). -/
def hostReadBlockM (adaptive : Bool) (s : State) : Flow Unit := if adaptive then hostDo .gRdm s else .done () s

/-! ### Audio (R267 to R270) -/

/-- A frame: one sample for mono, two for stereo (R14). -/
inductive Frame where
  | mono (x : Half)
  | stereo (left right : Half)
  deriving DecidableEq, Repr

/-- What the WAV source provides (R267); every frame has the shape that `channels` says. -/
structure WavInput where
  pcm16 : Bool
  channels : Nat
  sampleRate : Nat
  frames : List Frame
  deriving DecidableEq, Repr

/-- The residuals of one frame, L before R (R211, R268). -/
def encodeFrame (f : Frame) (s : State) : Flow (List DWord) :=
  match f with
  | .mono x => andThen (hostApply .apEncl (sext64 x) s) fun e s' => .done [e] s'
  | .stereo l r =>
    andThen (hostApply .apEncl (sext64 l) s) fun el s' =>
      andThen (hostApply .apEncr (sext64 r) s') fun er s'' => .done [el, er] s''

/-- The residuals of a block's frames, channel-interleaved (R268). -/
def encodeFrames : List Frame → State → Flow (List DWord)
  | [], s => .done [] s
  | f :: fs, s =>
    andThen (encodeFrame f s) fun e s' => andThen (encodeFrames fs s') fun es s'' => .done (e ++ es) s''

/-- One block of the audio encoder (R268). -/
def encodeAudioBlock (inp : WavInput) (adaptive : Bool) (j : Nat) (s : State) : Flow Unit :=
  andThen (encodeFrames ((inp.frames.drop (audioBlock * j)).take audioBlock) s) fun es s' =>
    hostPutBlock adaptive es s'

/-- The header the audio encoder writes (R260). -/
def gaclHeaderOf (inp : WavInput) (adaptive : Bool) (m : Nat) : GaclHeader where
  channels := inp.channels
  sampleRate := inp.sampleRate
  totalFrames := inp.frames.length
  adaptive := adaptive
  fixedM := m

/-- Audio encode (R268). -/
def audioEncode (inp : WavInput) (adaptive : Bool) (m : Nat) (s : State) : Flow Unit :=
  if !inp.pcm16 || !(inp.channels == 1 || inp.channels == 2) then .raised .invalidParameter s
  else if !fixedMAllowed adaptive m then .raised .invalidParameter s
  else
    andThen (hostDoAll [.bsOpenw, .apReset, .gSetmode .interleaving] s) fun _ s1 =>
      andThen (hostPutBytes (gaclBytes (gaclHeaderOf inp adaptive m)) s1) fun _ s2 =>
        andThen (hostSetFixedM adaptive m s2) fun _ s3 =>
          andThen (hostForEach (encodeAudioBlock inp adaptive)
            (List.range (blockCount audioBlock inp.frames.length)) s3) fun _ s4 => hostDo .bsClose s4

/-- `DO G.DEC; OPA = RES; DO C; t = RES`: one decoded value (R269, R272). -/
def hostDecode (i : Instr) (s : State) : Flow DWord :=
  andThen (hostFetch .gDec s) fun e s' => hostApply i e s'

/-- One frame of the audio decoder (R269). -/
def decodeFrame (channels : Nat) (s : State) : Flow Frame :=
  andThen (hostDecode .apDecl s) fun l s' =>
    if channels = 2 then andThen (hostDecode .apDecr s') fun r s'' => .done (.stereo (l.setWidth 16) (r.setWidth 16)) s''
    else .done (.mono (l.setWidth 16)) s'

/-- `n` frames of the audio decoder (R269). -/
def decodeFrames (channels : Nat) : Nat → State → Flow (List Frame)
  | 0, s => .done [] s
  | n + 1, s =>
    andThen (decodeFrame channels s) fun f s' => andThen (decodeFrames channels n s') fun fs s'' => .done (f :: fs) s''

/-- The blocks of the audio decoder, `nb` of them, `remaining` frames in all (R269). -/
def decodeAudioBlocks (h : GaclHeader) : Nat → Nat → State → Flow (List Frame)
  | 0, _, s => .done [] s
  | nb + 1, remaining, s =>
    andThen (hostReadBlockM h.adaptive s) fun _ s1 =>
      andThen (decodeFrames h.channels (min audioBlock remaining) s1) fun fs s2 =>
        andThen (decodeAudioBlocks h nb (remaining - min audioBlock remaining) s2) fun gs s3 => .done (fs ++ gs) s3

/-- What the audio decoder gives its output collaborator (R267, R269). -/
structure WavOutput where
  channels : Nat
  sampleRate : Nat
  frames : List Frame
  deriving DecidableEq, Repr

/-- The audio decoder after its header (R269). -/
def decodeAudioBody (h : GaclHeader) (s : State) : Flow WavOutput :=
  andThen (hostDoAll [.apReset, .gSetmode .interleaving] s) fun _ s1 =>
    andThen (hostSetFixedM h.adaptive h.fixedM s1) fun _ s2 =>
      andThen (decodeAudioBlocks h (blockCount audioBlock h.totalFrames) h.totalFrames s2) fun fs s3 =>
        andThen (hostDo .bsClose s3) fun _ s4 =>
          .done { channels := h.channels, sampleRate := h.sampleRate, frames := fs } s4

/-- Audio decode (R269, R270). -/
def audioDecode (s : State) : Flow WavOutput :=
  andThen (hostDo .bsOpenr s) fun _ s1 =>
    andThen (hostGetBytes gaclLength s1) fun hdr s2 =>
      if hostSeesEos s2 then .raised .invalidFormat s2
      else
        match parseGacl hdr with
        | .error e => .raised e s2
        | .ok h => decodeAudioBody h s2

/-! ### Images (R267, R271, R272) -/

/-- A greyscale image: `height` rows of `width` pixels in raster order (R267). -/
structure GreyImage where
  width : Nat
  height : Nat
  pixels : List Byte
  deriving DecidableEq, Repr

/-- Pixel `x(r, c)` of a raster of rows of `w` pixels. -/
def pixelAt (w : Nat) (px : List Byte) (r c : Nat) : Byte := px.getD (r * w + c) 0#8

/-- What image I/O provides (R267): the image, and whether it is 8-bit greyscale; `image` is read only if so. -/
structure ImageInput where
  grey8 : Bool
  image : GreyImage
  deriving DecidableEq, Repr

/-- OPB for the pixel at row `r`, column `c` (R224): the neighbours A, B, C, zero out of bounds. -/
def neighbours (w : Nat) (px : List Byte) (r c : Nat) : DWord :=
  let a := if c = 0 then 0#8 else pixelAt w px r (c - 1)
  let b := if r = 0 then 0#8 else pixelAt w px (r - 1) c
  let d := if r = 0 ∨ c = 0 then 0#8 else pixelAt w px (r - 1) (c - 1)
  zext64 (d ++ b ++ a)

/-- The residuals of the pixels with raster indices `ks` (R271). -/
def encodePixels (img : GreyImage) : List Nat → State → Flow (List DWord)
  | [], s => .done [] s
  | k :: ks, s =>
    andThen (hostApply .medEnc (zext64 (img.pixels.getD k 0#8))
      (hostSetOpb (neighbours img.width img.pixels (k / img.width) (k % img.width)) s)) fun e s' =>
        andThen (encodePixels img ks s') fun es s'' => .done (e :: es) s''

/-- The raster indices of band `j`'s pixels: rows 64j to min(64j + 64, H) − 1 (R264). -/
def bandPixels (w h j : Nat) : List Nat :=
  (List.range (blockLength imageBand h j * w)).map (· + imageBand * j * w)

/-- One band of the image encoder (R271). -/
def encodeBand (img : GreyImage) (adaptive : Bool) (j : Nat) (s : State) : Flow Unit :=
  andThen (encodePixels img (bandPixels img.width img.height j) s) fun es s' => hostPutBlock adaptive es s'

/-- The header the image encoder writes (R261). -/
def giclHeaderOf (img : GreyImage) (adaptive : Bool) (m : Nat) : GiclHeader where
  width := img.width
  height := img.height
  adaptive := adaptive
  fixedM := m

/-- Image encode (R271) of an 8-bit greyscale image. -/
def imageEncodeGrey (img : GreyImage) (adaptive : Bool) (m : Nat) (s : State) : Flow Unit :=
  if !fixedMAllowed adaptive m then .raised .invalidParameter s
  else
    andThen (hostDoAll [.bsOpenw, .gSetmode .interleaving] s) fun _ s1 =>
      andThen (hostPutBytes (giclBytes (giclHeaderOf img adaptive m)) s1) fun _ s2 =>
        andThen (hostSetFixedM adaptive m s2) fun _ s3 =>
          andThen (hostForEach (encodeBand img adaptive) (List.range (blockCount imageBand img.height)) s3)
            fun _ s4 => hostDo .bsClose s4

/-- Image encode (R271) with the host's check of the image depth (R303). -/
def imageEncode (inp : ImageInput) (adaptive : Bool) (m : Nat) (s : State) : Flow Unit :=
  if inp.grey8 then imageEncodeGrey inp.image adaptive m s else .raised .invalidParameter s

/-- The next `n` pixels of the image decoder, after the decoded pixels `px` (R272). -/
def decodePixels (w : Nat) : Nat → List Byte → State → Flow (List Byte)
  | 0, px, s => .done px s
  | n + 1, px, s =>
    andThen (hostDecode .medDec (hostSetOpb (neighbours w px (px.length / w) (px.length % w)) s)) fun x s1 =>
      decodePixels w n (px ++ [x.setWidth 8]) s1

/-- The rows of the image decoder from row `r` on, `n` of them (R272): a band's `m` is read at its first row. -/
def decodeRows (h : GiclHeader) : Nat → Nat → List Byte → State → Flow (List Byte)
  | 0, _, px, s => .done px s
  | n + 1, r, px, s =>
    andThen (hostReadBlockM (h.adaptive && r % imageBand == 0) s) fun _ s1 =>
      andThen (decodePixels h.width h.width px s1) fun px' s2 => decodeRows h n (r + 1) px' s2

/-- The image decoder after its header (R272). -/
def decodeImageBody (h : GiclHeader) (s : State) : Flow GreyImage :=
  andThen (hostDoAll [.gSetmode .interleaving] s) fun _ s1 =>
    andThen (hostSetFixedM h.adaptive h.fixedM s1) fun _ s2 =>
      andThen (decodeRows h h.height 0 [] s2) fun px s3 =>
        andThen (hostDo .bsClose s3) fun _ s4 => .done { width := h.width, height := h.height, pixels := px } s4

/-- Image decode (R272). -/
def imageDecode (s : State) : Flow GreyImage :=
  andThen (hostDo .bsOpenr s) fun _ s1 =>
    andThen (hostGetBytes giclLength s1) fun hdr s2 =>
      if hostSeesEos s2 then .raised .invalidFormat s2
      else
        match parseGicl hdr with
        | .error e => .raised e s2
        | .ok h => decodeImageBody h s2

end Sys2Proof.Machine
end

