-- ==== Sys2Proof/Safety.lean ====
section
/-! DEFINITION. What counts as a safe state of the core, and the terms in which claims speak of the byte
stream: the bits a writer has written, the bits a reader has still to read, the codeword of a value. -/

namespace Sys2Proof.Machine

/-! ### Safe states -/

/-- The BSMODE a command needs (30_encoding.md R113, column Mode); `none` is 'any'. -/
def requiredMode : Instr → Option BsMode
  | .bsOpenw => some .closed
  | .bsOpenr => some .closed
  | .bsClose => none
  | .bsWrbit _ => some .write
  | .bsWrbits _ => some .write
  | .bsRdbit => some .read
  | .bsRdbits _ => some .read
  | .gSetm _ => none
  | .gSetmode _ => none
  | .gEncu => some .write
  | .gDecu => some .read
  | .gEnc => some .write
  | .gDec => some .read
  | .gRdm => some .read
  | .apReset => none
  | .apEncl => none
  | .apEncr => none
  | .apDecl => none
  | .apDecr => none
  | .medPred => none
  | .medEnc => none
  | .medDec => none
  | .estClr => none
  | .estAcc => none
  | .estM => none

/-- No fault is recorded and the core accepts commands (R31, R300). -/
abbrev NoFault (s : State) : Prop := s.cstate ≠ .halted ∧ s.errCode = .none

/-- The Golomb registers agree (R41, R42): M is legal, B is the least `b` with `2^b ≥ M`, and
`CUTOFF = 2^B − M`. -/
abbrev GolombOk (s : State) : Prop :=
  s.gM ≠ 0#16 ∧ s.gM.toNat ≤ 2 ^ s.gB.toNat ∧ (∀ b < s.gB.toNat, 2 ^ b < s.gM.toNat) ∧
    s.gCutoff.toNat + s.gM.toNat = 2 ^ s.gB.toNat

/-- The unused low bits of a writer's buffer, `BUF[7−CNT:0]`, are zero (R39). -/
abbrev LowBitsZero (s : State) : Prop := ∀ i < 8 - s.cnt.toNat, s.buf.getLsbD i = false

/-- The bit buffer is as R39 says: empty when CLOSED, high-aligned over zeros in WRITE. After an IoError
BUF and CNT hold any value (R306). -/
abbrev BitBufferOk (s : State) : Prop :=
  s.errCode = .ioError ∨
    ((s.bsMode = .closed → s.buf = 0#8 ∧ s.cnt = 0#3) ∧ (s.bsMode = .write → LowBitsZero s))

/-- The core is HALTED exactly when a fault is recorded, and never records InvalidFormat (R31, R301, R306). -/
abbrev FaultOk (s : State) : Prop :=
  (s.cstate = .halted ↔ s.errCode ≠ .none) ∧ s.errCode ≠ .invalidFormat

/-- The estimator's sum is bounded by its count, so that it never passes `2^64 − 1` (R242). -/
abbrev EstimatorOk (s : State) : Prop := s.sum.toNat ≤ s.count.toNat * 2 ^ 31

/-- The invariant of the core that every step keeps. -/
abbrev CoreInv (s : State) : Prop := GolombOk s ∧ BitBufferOk s ∧ FaultOk s ∧ EstimatorOk s

/-! ### Bits of the stream (R81, R82) -/

/-- The bits of a stream byte in stream order, bit 7 first (R81). -/
def byteBits (v : Byte) : List Bool := (List.range 8).map fun i => v.getLsbD (7 - i)

/-- The `n`-bit field of `v`, most significant bit first (R82, R141). -/
def fieldBits (n : Nat) (v : DWord) : List Bool := (List.range n).map fun i => v.getLsbD (n - 1 - i)

/-- The unsigned number that bits spell, most significant bit first (R143). -/
def bitsValue (bits : List Bool) : Nat := bits.foldl (fun v b => 2 * v + b.toNat) 0

/-- The first `n` bits, with zero bits past the end (R143). -/
def paddedTake (n : Nat) (bits : List Bool) : List Bool := (bits ++ List.replicate n false).take n

/-- The pending bits of a writer, `BUF[7:8−CNT]` from bit 7 down (R39). -/
def pendingBits (s : State) : List Bool := (List.range s.cnt.toNat).map fun i => s.buf.getLsbD (7 - i)

/-- Every bit written to the sink, those pending in BUF last (R39, R40). -/
def writtenBits (s : State) : List Bool := s.sinkBytes.flatMap byteBits ++ pendingBits s

/-- The bits of a reader's current byte not yet returned, `BUF[CNT−1:0]`, next bit first (R39). -/
def bufferedBits (s : State) : List Bool :=
  (List.range s.cnt.toNat).map fun i => s.buf.getLsbD (s.cnt.toNat - 1 - i)

/-- The bytes before the first answer that is none. -/
def suppliedBytes : List SourceAnswer → List Byte
  | .byte v :: as => v :: suppliedBytes as
  | .eof :: _ => []
  | .ioErr :: _ => []
  | [] => []

/-- Whether the first answer that is no byte is an IoErr. -/
def endsInIoErr : List SourceAnswer → Bool
  | .byte _ :: as => endsInIoErr as
  | .eof :: _ => false
  | .ioErr :: _ => true
  | [] => false

/-- Whether every answer is a byte. -/
def onlyBytes : List SourceAnswer → Bool
  | .byte _ :: as => onlyBytes as
  | .eof :: _ => false
  | .ioErr :: _ => false
  | [] => true

/-- The bits a reader can still return before EOF, an IoErr or endless zero bytes: the buffered ones, then those
of the bytes the source lists; none of the latter once EOS is set (R142). -/
def unreadBits (s : State) : List Bool :=
  bufferedBits s ++ (if s.eos then [] else (suppliedBytes (pendingAnswers s)).flatMap byteBits)

/-- Whether reading past `unreadBits` meets an IoErr of the source, not EOF (R85, R142). -/
def sourceFails (s : State) : Bool := !s.eos && endsInIoErr (pendingAnswers s)

/-- Whether the source supplies zero bytes for ever after `unreadBits` (R360, log 2). -/
def sourceEndless (s : State) : Bool := !s.eos && onlyBytes (pendingAnswers s) && zerosForever s

/-- The unread bits as a reader of `n` bits finds them: a source of endless zero bytes adds the zero bytes that
`n` bits still take. -/
def available (n : Nat) (s : State) : List Bool :=
  unreadBits s ++
    List.replicate (if sourceEndless s then 8 * ((n - (unreadBits s).length + 7) / 8) else 0) false

/-- The reader can read `n` bits without an IoErr: it has them, or finds EOF or zero bytes after what it has
(R142). -/
abbrev CanRead (n : Nat) (s : State) : Prop := n ≤ (unreadBits s).length ∨ sourceFails s = false

/-- The sink port's answer to the `j`-th offer from now (R84). -/
def sinkAnswerAt (j : Nat) (s : State) : SinkAnswer :=
  (s.sinkPlan[s.sinkAsked + j]?).getD (Config.sinkDraw (s.sinkAsked + j))

/-- The sink port accepts the next `k` bytes (R84). -/
abbrev SinkAccepts (k : Nat) (s : State) : Prop := ∀ j < k, sinkAnswerAt j s = .ok

/-- How many bytes writing `n` more bits completes (R140). -/
def bytesCompleted (n : Nat) (s : State) : Nat := (s.cnt.toNat + n) / 8

/-! ### Golomb codewords (42_golomb.md R170, R171) -/

/-- The unary code of `q` (R170). -/
def unaryBits (q : Nat) : List Bool := List.replicate q false ++ [true]

/-- The truncated-binary code of a remainder under the coder's registers (R171). -/
def remainderBits (r : Nat) (s : State) : List Bool :=
  if s.gM = 1#16 then []
  else if r < s.gCutoff.toNat then fieldBits (s.gB.toNat - 1) (BitVec.ofNat 64 r)
  else fieldBits s.gB.toNat (BitVec.ofNat 64 (r + s.gCutoff.toNat))

/-- The codeword of an unsigned value under the coder's registers (R171). -/
def golombBits (n : Nat) (s : State) : List Bool :=
  unaryBits (n / s.gM.toNat) ++ remainderBits (n % s.gM.toNat) s

/-- The codeword of a signed value under GMODE (R174, R179). -/
def signedBits (n : Int) (s : State) : List Bool :=
  match s.gMode with
  | .interleaving => golombBits (if 0 ≤ n then 2 * n else -2 * n - 1).toNat s
  | .signAndMagnitude => decide (n < 0) :: golombBits n.natAbs s

/-- The length of the codeword of an unsigned value under the coder's registers, `L(n)` of R182. -/
def codewordLength (n : Nat) (s : State) : Nat :=
  if s.gM = 1#16 then n + 1
  else n / s.gM.toNat + 1 + (if n % s.gM.toNat < s.gCutoff.toNat then s.gB.toNat - 1 else s.gB.toNat)

/-- The head of a remainder that `tail` spells: `B − 1` bits, zero-padded past the end (R173). -/
def remainderHead (tail : List Bool) (s : State) : Nat := bitsValue (paddedTake (s.gB.toNat - 1) tail)

/-- The remainder that `DecodeU` reads from the bits after the unary code (R173). -/
def remainderValue (tail : List Bool) (s : State) : Nat :=
  if s.gM = 1#16 then 0
  else if remainderHead tail s < s.gCutoff.toNat then remainderHead tail s
  else bitsValue (paddedTake (s.gB.toNat - 1 + 1) tail) - s.gCutoff.toNat

/-- How many bits after the unary code `DecodeU` reads (R173). -/
def remainderLength (tail : List Bool) (s : State) : Nat :=
  if s.gM = 1#16 then 0
  else if remainderHead tail s < s.gCutoff.toNat then s.gB.toNat - 1
  else s.gB.toNat - 1 + 1

/-! ### Frames (10_state.md R49) -/

/-- What a writing command that completes leaves (R39, R49, R84): only BUF, CNT, BYTECNT and the sink change
(and CSTATE); the bytes accepted before stay; BYTECNT counts the new ones; the unused low bits of BUF stay
zero. -/
abbrev WriteFrame (s t : State) : Prop :=
  t = { s with
    cstate := .idle, buf := t.buf, cnt := t.cnt, byteCnt := t.byteCnt,
    sinkBytes := t.sinkBytes, sinkAsked := t.sinkAsked } ∧
  s.sinkBytes <+: t.sinkBytes ∧
  t.byteCnt = s.byteCnt + BitVec.ofNat 64 (t.sinkBytes.length - s.sinkBytes.length) ∧
  t.sinkAsked = s.sinkAsked + (t.sinkBytes.length - s.sinkBytes.length) ∧
  (LowBitsZero s → LowBitsZero t)

/-- What a command that writes `bits` leaves when the sink refuses the byte after `j` accepted ones (R89, R302,
R306): an IoError, the first `j` bytes of the stream's bits delivered and counted, BUF and CNT any value, and
everything else as it was. -/
abbrev RefusedFrame (j : Nat) (bits : List Bool) (s t : State) : Prop :=
  t = { s with
    cstate := .halted, errCode := .ioError, buf := t.buf, cnt := t.cnt,
    byteCnt := s.byteCnt + BitVec.ofNat 64 j, sinkBytes := t.sinkBytes, sinkAsked := s.sinkAsked + j + 1,
    draws := t.draws } ∧
  s.sinkBytes <+: t.sinkBytes ∧ t.sinkBytes.length = s.sinkBytes.length + j ∧
  t.sinkBytes.flatMap byteBits <+: writtenBits s ++ bits

/-- What a reading command that completes leaves (R49): only BUF, CNT, EOS, BYTECNT, RES and the position
of the source change (and CSTATE). -/
abbrev ReadFrame (s t : State) : Prop :=
  t = { s with
    cstate := .idle, buf := t.buf, cnt := t.cnt, eos := t.eos, byteCnt := t.byteCnt, srcPos := t.srcPos,
    res := t.res }

/-- What a reading command leaves when it faults with `e` after port exchanges (R306): the stream as far as
it was read, and everything else as it was; RES above all. -/
abbrev ReadFaultFrame (e : ErrCode) (s t : State) : Prop :=
  t = { s with
    cstate := .halted, errCode := e, buf := t.buf, cnt := t.cnt, eos := t.eos, byteCnt := t.byteCnt,
    srcPos := t.srcPos }

/-- What a reading command leaves when the source answers IoErr (R302, R306): every bit it had is read, the
bytes moved before are counted, BUF and CNT are any value, and everything else is as it was. -/
abbrev SourceFaultFrame (s t : State) : Prop :=
  t = { s with
    cstate := .halted, errCode := .ioError, buf := t.buf, cnt := t.cnt, byteCnt := t.byteCnt,
    srcPos := t.srcPos, draws := t.draws } ∧
  ∃ k, t.byteCnt = s.byteCnt + BitVec.ofNat 64 k ∧ 8 * k + s.cnt.toNat = (unreadBits s).length ∧
    t.srcPos = s.srcPos + k + 1

/-- What reading `n` bits leaves of the stream (R39, R40, R85, R142, R143): the rest of the unread bits; EOS set
when the bits ran out; BYTECNT counts the `k` bytes taken from the source, which account for the bits; the
source is asked for those bytes and, when they ran out with EOS still 0, once more; BUF is as it was, or the last
byte taken (a zero byte past those that the source lists). -/
abbrev ReadBits (n : Nat) (s t : State) : Prop :=
  unreadBits t = (available n s).drop n ∧
  t.eos = (s.eos || decide ((available n s).length < n)) ∧
  ∃ k, t.byteCnt = s.byteCnt + BitVec.ofNat 64 k ∧
    8 * k + s.cnt.toNat = min n (available n s).length + t.cnt.toNat ∧
    t.srcPos = s.srcPos + k + (!s.eos && decide ((available n s).length < n)).toNat ∧
    t.buf = if k = 0 then s.buf else (suppliedBytes (pendingAnswers s)).getD (k - 1) 0#8

/-! ### Which command writes which state (R49) -/

/-- Whether R49 lists RES for a command. -/
def writesRes : Instr → Bool
  | .bsRdbit => true
  | .bsRdbits _ => true
  | .gDecu => true
  | .gDec => true
  | .gRdm => true
  | .apEncl => true
  | .apEncr => true
  | .apDecl => true
  | .apDecr => true
  | .medPred => true
  | .medEnc => true
  | .medDec => true
  | .estM => true
  | .bsOpenw => false
  | .bsOpenr => false
  | .bsClose => false
  | .bsWrbit _ => false
  | .bsWrbits _ => false
  | .gSetm _ => false
  | .gSetmode _ => false
  | .gEncu => false
  | .gEnc => false
  | .apReset => false
  | .estClr => false
  | .estAcc => false

/-- Whether a command can move bits of the stream or bind it (R49: BUF, CNT, BYTECNT). -/
def touchesStream : Instr → Bool
  | .bsOpenw => true
  | .bsOpenr => true
  | .bsClose => true
  | .bsWrbit _ => true
  | .bsWrbits _ => true
  | .bsRdbit => true
  | .bsRdbits _ => true
  | .gEncu => true
  | .gDecu => true
  | .gEnc => true
  | .gDec => true
  | .gRdm => true
  | .gSetm _ => false
  | .gSetmode _ => false
  | .apReset => false
  | .apEncl => false
  | .apEncr => false
  | .apDecl => false
  | .apDecr => false
  | .medPred => false
  | .medEnc => false
  | .medDec => false
  | .estClr => false
  | .estAcc => false
  | .estM => false

/-- Whether R49 lists EOS for a command. -/
def writesEos (i : Instr) : Bool := i = .bsOpenw || requiredMode i = some .read || i = .bsOpenr

/-- Whether R49 lists M, B and CUTOFF for a command. -/
def writesM (i : Instr) : Bool :=
  match i with
  | .gSetm _ => true
  | _ => i = .gRdm || i = .estM

/-- Every register of the core at its reset value (R48). -/
abbrev ResetValues (t : State) : Prop :=
  t.cstate = .idle ∧ t.opa = 0#64 ∧ t.opb = 0#64 ∧ t.res = 0#64 ∧ t.lost = false ∧ t.errCode = .none ∧
    t.bsMode = .closed ∧ t.buf = 0#8 ∧ t.cnt = 0#3 ∧ t.eos = false ∧ t.byteCnt = 0#64 ∧
    t.gM = 1#16 ∧ t.gB = 0#5 ∧ t.gCutoff = 0#16 ∧ t.gMode = .interleaving ∧ t.prevL = 0#16 ∧ t.prevR = 0#16 ∧
    t.sum = 0#64 ∧ t.count = 0#32

/-! ### Turns (R360, I23) -/

/-- The turn of `s` is `a`'s, and `u` is `s` with that turn used up: the next of `turns`, or past their end the
fixed `turnRest` or a free value (log 3). -/
abbrev TurnOf (a : Turn) (s u : State) : Prop :=
  (∃ ts, s.turns = a :: ts ∧ u = { s with turns := ts }) ∨
  (s.turns = [] ∧ s.turnRest = some a ∧ u = s) ∨
  (s.turns = [] ∧ s.turnRest = none ∧ Config.turnDraw s.draws = a ∧ u = { s with draws := s.draws + 1 })

/-- Whether the next step of `s` is the host's write of CTRL with SRST = 1 (R35): it is the host's oldest access,
and no command is pending or the turn is the host's. -/
abbrev ResetNext (s : State) : Prop :=
  (∃ v rest, s.hostQueue = .write (Config.coreBase + 8) 4 v :: rest ∧ v.getLsbD 0 = true) ∧
    ((∀ w, s.cstate ≠ .busy w) ∨ ∃ u, TurnOf .host s u)

end Sys2Proof.Machine
end

