-- ==== Sys2Proof/Certificates/Slice0/Obligations.lean ====
section
/-! DEFINITION. The statements about the model, for the provers. Each docstring names the rules of spec/ it
formalises. -/

open Sys2Proof Sys2Proof.Machine

/-! ### Encoding -/

/-- Decode and encode agree on every well-formed command, with every field at every value (R111, R113, R117). -/
def Obligations.DecodeOfEncode : Prop :=
  ∀ i : Instr, i.wellFormed = true → decode (encode i) = .ok i

/-- A word that decodes is the word of the command it decodes to, which is well formed: no bit is dropped. -/
def Obligations.EncodeOfDecode : Prop :=
  ∀ (w : Word) (i : Instr), decode w = .ok i → i.wellFormed = true ∧ encode i = w

/-- Exactly the words with an opcode of R113 and zero reserved bits are defined (R116). -/
def Obligations.DefinedWords : Prop :=
  (∀ w : Word, (∃ i, decode w = .ok i) ↔ ∃ i, opcode i = w.extractLsb' 24 8 ∧ w &&& reservedMask i = 0#32) ∧
  maskZ = 0x00FFFFFF#32 ∧ maskS = 0x00FFFFFE#32 ∧ maskN = 0x00FFFF80#32 ∧ maskI = 0x00FF0000#32

/-- A few words written out from the formats decode to their commands, one per family. -/
def Obligations.SampleWordsDecode : Prop :=
  decode 0x05000040#32 = .ok (.bsWrbits 64) ∧ decode 0x1000FFFF#32 = .ok (.gSetm 0xFFFF#16) ∧
  decode 0x11000001#32 = .ok (.gSetmode .signAndMagnitude) ∧ decode 0x24000000#32 = .ok .apDecr ∧
  decode 0x2A000000#32 = .ok .medDec ∧ decode 0x31000000#32 = .ok .estAcc

/-- A pending word with an undefined opcode or a nonzero reserved bit raises IllegalCommand when the core has the
turn (R114; the turns are the model's, log 3). -/
def Obligations.UndefinedWordFaults : Prop :=
  ∀ (s u : State) (w : Word), s.cstate = .busy w → TurnOf .core s u →
    (¬∃ i, opcode i = w.extractLsb' 24 8 ∧ w &&& reservedMask i = 0#32) →
    step s = .next { u with cstate := .halted, errCode := .illegalCommand }

/-! ### The step -/

/-- A step runs the decoded command: when the turn is the core's, whatever the host still has to do, the step is
exec of the command the pending word decodes to, in the state with that turn used up (R31); the turns are the
model's (log 3). -/
def Obligations.StepRunsDecodedCommand : Prop :=
  ∀ (s u : State) (w : Word) (i : Instr), s.cstate = .busy w → decode w = .ok i → TurnOf .core s u →
    step s = exec i u

/-- The word that withFetchWord places is the one the very next step runs, in the state with that word
pending, the turns the core's and nothing else changed (the model's, log 9). -/
def Obligations.PlacedWordRunsNext : Prop :=
  ∀ (s : State) (w : Nat) (i : Instr), w < 2 ^ 32 → decodeTableWord 32 w = some i →
    step (s.withFetchWord 32 w) =
      exec i { s with cstate := .busy (BitVec.ofNat 32 w), turns := [], turnRest := some .core }

/-- A step stops only on an access of the host that is not an aligned 32-bit access to the block (R70; the
two ways of stopping are the model's, log 7). So every command gives a next state: it completes, or its error is
recorded in ERRCODE (R306), or the core stays BUSY on a source of endless zero bits (R360; that the model shows
this as the same state is log 2). -/
def Obligations.StopsOnlyOnForeignAccess : Prop :=
  ∀ s : State, (∀ t, step s ≠ .next t) →
    ∃ a rest addr size, s.hostQueue = a :: rest ∧ (a = .read addr size ∨ ∃ v, a = .write addr size v) ∧
      ¬(Config.coreBase ≤ addr ∧ addr < Config.coreBase + 256 ∧ size = 4 ∧ (addr - Config.coreBase) % 4 = 0)

/-- An access to the block of another size or alignment is refused; one outside the block is a fault of the
model (log 7). -/
def Obligations.ForeignAccessStops : Prop :=
  ∀ (s : State) (off size : Nat) (v : Word),
    (off < 256 → (size ≠ 4 ∨ off % 4 ≠ 0) →
      hostAccess (.read (Config.coreBase + off) size) s = .refused .accessShape ∧
      hostAccess (.write (Config.coreBase + off) size v) s = .refused .accessShape) ∧
    (256 ≤ off →
      hostAccess (.read (Config.coreBase + off) size) s = .fault .outsideBlock ∧
      hostAccess (.write (Config.coreBase + off) size v) s = .fault .outsideBlock)

/-- With no command pending, and while one is pending when the turn is the host's, a step makes the host's oldest
access, and waits when it has none (R91, R342, R360). While a command is pending the turn is always the core's or
the host's (the host's queue and the turns are the model's, log 3 and log 9). -/
def Obligations.StepMakesOldestAccess : Prop :=
  ∀ s : State,
    ((∀ w, s.cstate ≠ .busy w) →
      (s.hostQueue = [] → step s = .next s) ∧
      ∀ a rest, s.hostQueue = a :: rest → step s = hostAccess a { s with hostQueue := rest }) ∧
    ∀ w, s.cstate = .busy w →
      (∃ u, TurnOf .core s u ∨ TurnOf .host s u) ∧
      ∀ u, TurnOf .host s u →
        (s.hostQueue = [] → step s = .next u) ∧
        ∀ a rest, s.hostQueue = a :: rest → step s = hostAccess a { u with hostQueue := rest }

/-! ### The register block -/

/-- A write of CMD starts the command in IDLE, and else only sets LOST (R31, R36, R37, R308). -/
def Obligations.CmdWriteResult : Prop :=
  ∀ (s : State) (w : Word),
    (s.cstate = .idle →
      hostAccess (.write Config.coreBase 4 w) s = .next { s with cstate := .busy w }) ∧
    (s.cstate ≠ .idle →
      hostAccess (.write Config.coreBase 4 w) s = .next { s with lost := true })

/-- Writes of OPA and OPB: dropped while BUSY, setting LOST; else one half is stored and the other stays
(R36, R73). -/
def Obligations.OperandWriteResult : Prop :=
  ∀ (s : State) (v : Word),
    ((∃ w, s.cstate = .busy w) → ∀ off ∈ [0x10, 0x14, 0x18, 0x1C],
      hostAccess (.write (Config.coreBase + off) 4 v) s = .next { s with lost := true }) ∧
    ((∀ w, s.cstate ≠ .busy w) →
      hostAccess (.write (Config.coreBase + 0x10) 4 v) s =
        .next { s with opa := BitVec.ofNat 64 (s.opa.toNat / 2 ^ 32 * 2 ^ 32 + v.toNat) } ∧
      hostAccess (.write (Config.coreBase + 0x14) 4 v) s =
        .next { s with opa := BitVec.ofNat 64 (v.toNat * 2 ^ 32 + s.opa.toNat % 2 ^ 32) } ∧
      hostAccess (.write (Config.coreBase + 0x18) 4 v) s =
        .next { s with opb := BitVec.ofNat 64 (s.opb.toNat / 2 ^ 32 * 2 ^ 32 + v.toNat) } ∧
      hostAccess (.write (Config.coreBase + 0x1C) 4 v) s =
        .next { s with opb := BitVec.ofNat 64 (v.toNat * 2 ^ 32 + s.opb.toNat % 2 ^ 32) })

/-- Writes to the read-only registers and to the reserved offsets are ignored (R72), and so is a write of 0
to bit 0 of CTRL (R35). -/
def Obligations.OtherWritesIgnored : Prop :=
  (∀ (s : State) (off : Nat) (v : Word), off < 256 → off % 4 = 0 →
    off ∉ [0x00, 0x08, 0x10, 0x14, 0x18, 0x1C] →
    hostAccess (.write (Config.coreBase + off) 4 v) s = .next s) ∧
  ∀ (s : State) (v : Word), v.getLsbD 0 = false → hostAccess (.write (Config.coreBase + 8) 4 v) s = .next s

/-- What each register reads as while no command is pending (R71, R72, R73): the value goes to the host and
nothing else changes. -/
def Obligations.RegisterReadValues : Prop :=
  ∀ s : State, (∀ w, s.cstate ≠ .busy w) →
    let reads := fun (off v : Nat) =>
      hostAccess (.read (Config.coreBase + off) 4) s =
        .next { s with hostReplies := s.hostReplies ++ [BitVec.ofNat 32 v] }
    reads 0x10 (s.opa.toNat % 2 ^ 32) ∧ reads 0x14 (s.opa.toNat / 2 ^ 32) ∧
    reads 0x18 (s.opb.toNat % 2 ^ 32) ∧ reads 0x1C (s.opb.toNat / 2 ^ 32) ∧
    reads 0x20 (s.res.toNat % 2 ^ 32) ∧ reads 0x24 (s.res.toNat / 2 ^ 32) ∧
    reads 0x28 (s.gM.toNat + 2 ^ 16 * s.gB.toNat) ∧ reads 0x2C s.gCutoff.toNat ∧ reads 0x30 s.buf.toNat ∧
    reads 0x38 (s.byteCnt.toNat % 2 ^ 32) ∧ reads 0x3C (s.byteCnt.toNat / 2 ^ 32) ∧
    reads 0x40 (s.prevL.toNat + 2 ^ 16 * s.prevR.toNat) ∧
    reads 0x48 (s.sum.toNat % 2 ^ 32) ∧ reads 0x4C (s.sum.toNat / 2 ^ 32) ∧ reads 0x50 s.count.toNat ∧
    ∀ off < 256, off % 4 = 0 →
      off ∉ [0x04, 0x10, 0x14, 0x18, 0x1C, 0x20, 0x24, 0x28, 0x2C, 0x30, 0x38, 0x3C, 0x40, 0x48, 0x4C, 0x50] →
      reads off 0

/-- The fields of STATUS, as the host reads them while no command is pending (R34, R301). -/
def Obligations.StatusReadFields : Prop :=
  ∀ s : State, (∀ w, s.cstate ≠ .busy w) → ∃ v : Word,
    hostAccess (.read (Config.coreBase + 4) 4) s = .next { s with hostReplies := s.hostReplies ++ [v] } ∧
    v.getLsbD 0 = false ∧ v.getLsbD 1 = s.eos ∧
    v.extractLsb' 2 2 = (match s.bsMode with | .closed => 0#2 | .write => 1#2 | .read => 2#2) ∧
    v.extractLsb' 4 3 = s.cnt ∧
    v.getLsbD 7 = decide (s.gMode = .signAndMagnitude) ∧
    v.extractLsb' 8 4 = (match s.errCode with
      | .none => 0#4 | .ioError => 1#4 | .invalidFormat => 2#4 | .invalidParameter => 3#4
      | .unexpectedEndOfStream => 4#4 | .illegalCommand => 5#4 | .overflow => 6#4) ∧
    v.getLsbD 12 = s.lost ∧ v.extractLsb' 13 19 = 0#19

/-- While BUSY, every read gives the host some value and has no side effect on the core; a STATUS read shows
BUSY = 1 and the reserved bits 0, and CMD, CTRL and the reserved offsets read 0 (R34, R72, R74; that these read 0
while BUSY too, and that a read uses up a free value, is log 4). -/
def Obligations.ReadsWhileBusy : Prop :=
  ∀ (s : State) (w : Word), s.cstate = .busy w →
    ∀ off < 256, off % 4 = 0 → ∃ v : Word, hostAccess (.read (Config.coreBase + off) 4) s =
        .next { s with hostReplies := s.hostReplies ++ [v], draws := s.draws + 1 } ∧
      (off = 0x04 → v.getLsbD 0 = true ∧ v.extractLsb' 13 19 = 0#19) ∧
      (off ∉ [0x04, 0x10, 0x14, 0x18, 0x1C, 0x20, 0x24, 0x28, 0x2C, 0x30, 0x38, 0x3C, 0x40, 0x48, 0x4C, 0x50] →
        v = 0#32)

/-! ### Reset -/

/-- Power-on, and a write of CTRL with bit 0 = 1 in every CSTATE, leave every register of the core at its
reset value; the bytes already in the sink stay, and the source does not go back (R35, R48, R340, R341, R342). -/
def Obligations.ResetResult : Prop :=
  ResetValues State.reset ∧ ∀ (s : State) (v : Word), v.getLsbD 0 = true → ∃ t,
    hostAccess (.write (Config.coreBase + 8) 4 v) s = .next t ∧ ResetValues t ∧
    s.sinkBytes <+: t.sinkBytes ∧ s.srcPos ≤ t.srcPos ∧
    t.sinkPlan = s.sinkPlan ∧ t.srcTape = s.srcTape ∧ t.srcRest = s.srcRest ∧
    t.hostQueue = s.hostQueue ∧ t.hostReplies = s.hostReplies ∧ t.estRule = s.estRule

/-- A reset with no command pending moves no byte; a command that a reset abandons has delivered and taken no
more than the whole command would have, and delivered nothing when it never ends: how much is the model's free
value (R340, log 6). -/
def Obligations.ResetAbandonsCommand : Prop :=
  ∀ (s t : State) (v : Word), v.getLsbD 0 = true →
    hostAccess (.write (Config.coreBase + 8) 4 v) s = .next t →
    ((∀ w, s.cstate ≠ .busy w) →
      t.sinkBytes = s.sinkBytes ∧ t.sinkAsked = s.sinkAsked ∧ t.srcPos = s.srcPos) ∧
    ∀ w, s.cstate = .busy w →
      t.sinkBytes <+: (afterCommand w s).sinkBytes ∧
      ((∀ x, (afterCommand w s).cstate ≠ .busy x) → t.srcPos ≤ (afterCommand w s).srcPos) ∧
      (∀ x, (afterCommand w s).cstate = .busy x → t.sinkBytes = s.sinkBytes ∧ t.sinkAsked = s.sinkAsked)

/-- The invariant holds at power-on. -/
def Obligations.InvariantAtReset : Prop := CoreInv State.reset

/-- Every step keeps the invariant: the Golomb registers agree (R42), the bit buffer is as R39 says, HALTED
and ERRCODE agree (R31, R306), InvalidFormat is never recorded (R301), SUM is bounded by COUNT (R242). -/
def Obligations.StepKeepsInvariant : Prop :=
  ∀ s t : State, CoreInv s → step s = .next t → CoreInv t

/-- HALTED is left only by reset, and until then the recorded error and RES stay (R31, R308); LOST is cleared
only by reset (R36). The reset is the host's access that the step makes. -/
def Obligations.HaltedAndLostUntilReset : Prop :=
  (∀ s t : State, s.cstate = .halted → step s = .next t →
    (t.cstate = .halted ∧ t.errCode = s.errCode ∧ t.res = s.res) ∨ ResetNext s) ∧
  ∀ s t : State, s.lost = true → step s = .next t → t.lost = true ∨ ResetNext s

/-! ### Every command -/

/-- In HALTED a command is dropped: LOST is set and no error code changes (R308, R310 item 1). -/
def Obligations.HaltedDropsCommand : Prop :=
  ∀ (i : Instr) (s : State), s.cstate = .halted → exec i s = .next { s with lost := true }

/-- A command in a BSMODE it does not allow is IllegalCommand, whatever its fields, and changes nothing else
(R113, R304, R310). -/
def Obligations.WrongModeFaults : Prop :=
  ∀ (i : Instr) (m : BsMode) (s : State), s.cstate ≠ .halted → requiredMode i = some m → s.bsMode ≠ m →
    exec i s = .next { s with cstate := .halted, errCode := .illegalCommand }

/-- A faulting command writes neither RES nor the registers it would write at its end, and records its error
(R306). -/
def Obligations.FaultLeavesResults : Prop :=
  ∀ (i : Instr) (s t : State), s.cstate ≠ .halted → exec i s = .next t → t.cstate = .halted →
    t.errCode ≠ .none ∧ t.errCode ≠ .invalidFormat ∧ t.res = s.res ∧ t.bsMode = s.bsMode ∧
    t.gM = s.gM ∧ t.gB = s.gB ∧ t.gCutoff = s.gCutoff ∧ t.gMode = s.gMode ∧
    t.prevL = s.prevL ∧ t.prevR = s.prevR ∧ t.sum = s.sum ∧ t.count = s.count

/-- No command writes state that R49 does not list for it; none writes OPA, OPB or LOST (R33, R49). A command
leaves the core IDLE with ERRCODE as it was, or HALTED with an error, or, for G.DECU and G.DEC on a source of endless
zero bits, BUSY (R360). That the model shows the last case as the same state, with nothing of the reading in it, is the
model's (log 2). -/
def Obligations.WriteSets : Prop :=
  ∀ (i : Instr) (s t : State), s.cstate ≠ .halted → exec i s = .next t →
    (t.cstate = .idle ∧ t.errCode = s.errCode ∨ t.cstate = .halted ∧ t.errCode ≠ .none ∨
      t = s ∧ (i = .gDecu ∨ i = .gDec) ∧ sourceEndless s = true) ∧
    t.opa = s.opa ∧ t.opb = s.opb ∧ t.lost = s.lost ∧
    t.sinkPlan = s.sinkPlan ∧ t.srcTape = s.srcTape ∧ t.srcRest = s.srcRest ∧
    t.hostQueue = s.hostQueue ∧ t.hostReplies = s.hostReplies ∧ t.turns = s.turns ∧ t.turnRest = s.turnRest ∧
    t.estRule = s.estRule ∧
    (writesRes i = false → t.res = s.res) ∧
    (touchesStream i = false →
      t.bsMode = s.bsMode ∧ t.buf = s.buf ∧ t.cnt = s.cnt ∧ t.byteCnt = s.byteCnt ∧
      t.sinkBytes = s.sinkBytes ∧ t.sinkAsked = s.sinkAsked ∧ t.srcPos = s.srcPos ∧ t.draws = s.draws) ∧
    (i ≠ .bsOpenw → i ≠ .bsOpenr → i ≠ .bsClose → t.bsMode = s.bsMode) ∧
    (writesEos i = false → t.eos = s.eos) ∧
    (writesM i = false → t.gM = s.gM ∧ t.gB = s.gB ∧ t.gCutoff = s.gCutoff) ∧
    ((∀ m, i ≠ .gSetmode m) → t.gMode = s.gMode) ∧
    (i ≠ .apReset → i ≠ .apEncl → i ≠ .apDecl → t.prevL = s.prevL) ∧
    (i ≠ .apReset → i ≠ .apEncr → i ≠ .apDecr → t.prevR = s.prevR) ∧
    (i ≠ .estClr → i ≠ .estAcc → t.sum = s.sum ∧ t.count = s.count)

/-! ### BitStream commands -/

/-- BS.OPENW (R145). -/
def Obligations.OpenWriterResult : Prop :=
  encode .bsOpenw = 0x01000000#32 ∧ ∀ s : State, s.cstate ≠ .halted →
    (s.bsMode = .closed → exec .bsOpenw s = .next { s with
      cstate := .idle, bsMode := .write, buf := 0#8, cnt := 0#3, eos := false, byteCnt := 0#64 }) ∧
    (s.bsMode ≠ .closed → exec .bsOpenw s = .next { s with cstate := .halted, errCode := .illegalCommand })

/-- BS.OPENR (R146): no byte is read. -/
def Obligations.OpenReaderResult : Prop :=
  encode .bsOpenr = 0x02000000#32 ∧ ∀ s : State, s.cstate ≠ .halted →
    (s.bsMode = .closed → exec .bsOpenr s = .next { s with
      cstate := .idle, bsMode := .read, buf := 0#8, cnt := 0#3, eos := false, byteCnt := 0#64 }) ∧
    (s.bsMode ≠ .closed → exec .bsOpenr s = .next { s with cstate := .halted, errCode := .illegalCommand })

/-- BS.CLOSE (R147): a no-op in CLOSED; a reader's bits are dropped; a writer's pending bits are flushed as
one byte, or the flush is refused. -/
def Obligations.CloseResult : Prop :=
  encode .bsClose = 0x03000000#32 ∧ ∀ s : State, s.cstate ≠ .halted →
    (s.bsMode = .closed → exec .bsClose s = .next { s with cstate := .idle }) ∧
    ((s.bsMode = .read ∨ s.bsMode = .write ∧ s.cnt = 0#3) →
      exec .bsClose s = .next { s with cstate := .idle, bsMode := .closed, buf := 0#8, cnt := 0#3 }) ∧
    (s.bsMode = .write → s.cnt ≠ 0#3 → sinkAnswerAt 0 s = .ok →
      exec .bsClose s = .next { s with
        cstate := .idle, bsMode := .closed, buf := 0#8, cnt := 0#3,
        sinkBytes := s.sinkBytes ++ [s.buf], sinkAsked := s.sinkAsked + 1, byteCnt := s.byteCnt + 1#64 }) ∧
    (s.bsMode = .write → s.cnt ≠ 0#3 → sinkAnswerAt 0 s = .ioErr →
      ∃ t, exec .bsClose s = .next t ∧ RefusedFrame 0 [] s t)

/-- Closing a writer pads the last byte with zero bits (R147, R152): the sink then holds what was written,
rounded up to whole bytes. -/
def Obligations.ClosePadsWithZeros : Prop :=
  ∀ s t : State, s.cstate ≠ .halted → s.bsMode = .write → LowBitsZero s → exec .bsClose s = .next t →
    t.cstate = .idle →
    t.sinkBytes.flatMap byteBits =
        writtenBits s ++ List.replicate (8 * t.sinkBytes.length - (writtenBits s).length) false ∧
      t.sinkBytes.length = ((writtenBits s).length + 7) / 8

/-- BS.WRBIT (R140, R148). -/
def Obligations.WriteBitResult : Prop :=
  encode (.bsWrbit false) = 0x04000000#32 ∧ encode (.bsWrbit true) = 0x04000001#32 ∧
  ∀ (s : State) (b : Bool), s.cstate ≠ .halted → s.bsMode = .write → SinkAccepts (bytesCompleted 1 s) s →
    ∃ t, exec (.bsWrbit b) s = .next t ∧ WriteFrame s t ∧ writtenBits t = writtenBits s ++ [b]

/-- BS.WRBITS (R141, R149): the low N bits of OPA, most significant first. -/
def Obligations.WriteFieldResult : Prop :=
  ∀ (s : State) (n : Nat), s.cstate ≠ .halted → s.bsMode = .write → 1 ≤ n → n ≤ 64 →
    SinkAccepts (bytesCompleted n s) s →
    ∃ t, exec (.bsWrbits n) s = .next t ∧ WriteFrame s t ∧
      writtenBits t = writtenBits s ++ (List.range n).map fun i => s.opa.getLsbD (n - 1 - i)

/-- A field that decodes but is out of range is InvalidParameter, with no bit moved and M as it was: a width
of 0 or above 64, and a block parameter of 0 (R115, R303). -/
def Obligations.OutOfRangeFieldsFault : Prop :=
  (∀ (s : State) (n : Nat), s.cstate ≠ .halted → n = 0 ∨ 65 ≤ n →
    (s.bsMode = .write →
      exec (.bsWrbits n) s = .next { s with cstate := .halted, errCode := .invalidParameter }) ∧
    (s.bsMode = .read →
      exec (.bsRdbits n) s = .next { s with cstate := .halted, errCode := .invalidParameter })) ∧
  ∀ s : State, s.cstate ≠ .halted →
    exec (.gSetm 0#16) s = .next { s with cstate := .halted, errCode := .invalidParameter }

/-- A field write is its bits written one by one (R141, R152): N commands BS.WRBIT in their order leave the
same state, when no byte is refused. -/
def Obligations.FieldWriteIsBitWrites : Prop :=
  ∀ (s t : State) (n : Nat), s.cstate ≠ .halted → s.bsMode = .write → 1 ≤ n → n ≤ 64 →
    exec (.bsWrbits n) s = .next t → t.cstate = .idle →
    ((List.range n).map fun i => Instr.bsWrbit (s.opa.getLsbD (n - 1 - i))).foldl
      (fun (r : StepOutcome) i => match r with
        | .next u => exec i u
        | .fault e => .fault e
        | .refused e => .refused e) (.next s) = .next t

/-- A byte that the sink refuses faults the writing command with IoError; the bytes before it, the first of the
stream's bits, are delivered and counted, and nothing outside the stream changes (R89, R302, R306; the port as data
is log 1, log 5). -/
def Obligations.RefusedByteFaults : Prop :=
  ∀ (s : State) (j : Nat), s.cstate ≠ .halted → s.bsMode = .write → SinkAccepts j s → sinkAnswerAt j s = .ioErr →
    (∀ b, j < bytesCompleted 1 s → ∃ t, exec (.bsWrbit b) s = .next t ∧ RefusedFrame j [b] s t) ∧
    (∀ n, 1 ≤ n → n ≤ 64 → j < bytesCompleted n s →
      ∃ t, exec (.bsWrbits n) s = .next t ∧
        RefusedFrame j ((List.range n).map fun i => s.opa.getLsbD (n - 1 - i)) s t) ∧
    (j < bytesCompleted (golombBits (s.opa.toNat % 2 ^ 32) s).length s →
      ∃ t, exec .gEncu s = .next t ∧ RefusedFrame j (golombBits (s.opa.toNat % 2 ^ 32) s) s t) ∧
    (j < bytesCompleted (signedBits (s.opa.setWidth 32).toInt s).length s →
      ∃ t, exec .gEnc s = .next t ∧ RefusedFrame j (signedBits (s.opa.setWidth 32).toInt s) s t)

/-- BS.RDBIT (R39, R142, R150): the next bit, or the sentinel with EOS set. -/
def Obligations.ReadBitResult : Prop :=
  encode .bsRdbit = 0x06000000#32 ∧ ∀ s : State, s.cstate ≠ .halted → s.bsMode = .read →
    (∀ b rest, available 1 s = b :: rest →
      ∃ t, exec .bsRdbit s = .next t ∧ ReadFrame s t ∧ ReadBits 1 s t ∧ t.res = if b then 1#64 else 0#64) ∧
    (available 1 s = [] → sourceFails s = false →
      ∃ t, exec .bsRdbit s = .next t ∧ ReadFrame s t ∧ ReadBits 1 s t ∧ t.eos = true ∧
        t.res = 0xFFFFFFFFFFFFFFFF#64)

/-- BS.RDBITS (R39, R143, R151): the next N bits, zero-padded past the end, which is no fault. -/
def Obligations.ReadFieldResult : Prop :=
  ∀ (s : State) (n : Nat), s.cstate ≠ .halted → s.bsMode = .read → 1 ≤ n → n ≤ 64 → CanRead n s →
    ∃ t, exec (.bsRdbits n) s = .next t ∧ ReadFrame s t ∧ ReadBits n s t ∧
      t.res = BitVec.ofNat 64 (bitsValue (paddedTake n (unreadBits s)))

/-- An IoErr of the source faults the reading command with IoError; RES and everything outside the stream
stay (R302, R306; the port as data is log 1, log 5). -/
def Obligations.SourceErrorFaults : Prop :=
  ∀ s : State, s.cstate ≠ .halted → s.bsMode = .read → sourceFails s = true →
    let faults := fun i => ∃ t, exec i s = .next t ∧ SourceFaultFrame s t
    (unreadBits s = [] → faults .bsRdbit) ∧
    (∀ n, 1 ≤ n → n ≤ 64 → (unreadBits s).length < n → faults (.bsRdbits n)) ∧
    ((unreadBits s).length < 16 → faults .gRdm) ∧
    (∀ q, unreadBits s = List.replicate q false →
      faults .gDecu ∧ (s.gMode = .interleaving → faults .gDec)) ∧
    (∀ q tail, unreadBits s = unaryBits q ++ tail → tail.length < remainderLength tail s →
      faults .gDecu ∧ (s.gMode = .interleaving → faults .gDec)) ∧
    (s.gMode = .signAndMagnitude →
      (unreadBits s = [] → faults .gDec) ∧
      (∀ sign q, unreadBits s = sign :: List.replicate q false → faults .gDec) ∧
      ∀ sign q tail, unreadBits s = sign :: (unaryBits q ++ tail) → tail.length < remainderLength tail s →
        faults .gDec)

/-- What BS.WRBITS writes, BS.RDBITS reads back (R152): a reader that has a field's bits next returns the
field's value and goes on right after it. -/
def Obligations.FieldRoundTrip : Prop :=
  ∀ (w w' r : State) (n : Nat) (bits rest : List Bool),
    w.cstate ≠ .halted → w.bsMode = .write → 1 ≤ n → n ≤ 64 → exec (.bsWrbits n) w = .next w' → w'.cstate = .idle →
    writtenBits w' = writtenBits w ++ bits →
    r.cstate ≠ .halted → r.bsMode = .read → unreadBits r = bits ++ rest →
    ∃ r', exec (.bsRdbits n) r = .next r' ∧ r'.cstate = .idle ∧ r'.res.toNat = w.opa.toNat % 2 ^ n ∧
      unreadBits r' = rest

/-! ### Golomb coder -/

/-- G.SETM (R42, R175): M, and the B and CUTOFF it determines; 0 is InvalidParameter. -/
def Obligations.SetMResult : Prop :=
  ∀ (s : State) (imm : Half), s.cstate ≠ .halted →
    encode (.gSetm imm) = 0x10000000#32 ||| imm.setWidth 32 ∧
    (imm = 0#16 →
      exec (.gSetm imm) s = .next { s with cstate := .halted, errCode := .invalidParameter }) ∧
    (imm ≠ 0#16 → ∃ t, exec (.gSetm imm) s = .next t ∧ GolombOk t ∧
      t = { s with cstate := .idle, gM := imm, gB := t.gB, gCutoff := t.gCutoff })

/-- G.SETMODE (R176). -/
def Obligations.SetModeResult : Prop :=
  encode (.gSetmode .interleaving) = 0x11000000#32 ∧ encode (.gSetmode .signAndMagnitude) = 0x11000001#32 ∧
  ∀ (s : State) (m : GMode), s.cstate ≠ .halted →
    exec (.gSetmode m) s = .next { s with cstate := .idle, gMode := m }

/-- G.ENCU (R171, R177): the codeword of OPA[31:0]. -/
def Obligations.EncodeUnsignedResult : Prop :=
  ∀ s : State, s.cstate ≠ .halted → s.bsMode = .write →
    SinkAccepts (bytesCompleted (golombBits (s.opa.toNat % 2 ^ 32) s).length s) s →
    ∃ t, exec .gEncu s = .next t ∧ WriteFrame s t ∧
      writtenBits t = writtenBits s ++ golombBits (s.opa.toNat % 2 ^ 32) s

/-- G.DECU (R173, R178) on a stream that holds the end of a unary code: the value, or Overflow with RES
unchanged. Bits missing from the remainder read as 0. -/
def Obligations.DecodeUnsignedResult : Prop :=
  ∀ (s : State) (q : Nat) (tail : List Bool), s.cstate ≠ .halted → s.bsMode = .read →
    unreadBits s = unaryBits q ++ tail → CanRead (q + 1 + remainderLength tail s) s →
    (q * s.gM.toNat + remainderValue tail s < 2 ^ 32 →
      ∃ t, exec .gDecu s = .next t ∧ ReadFrame s t ∧ ReadBits (q + 1 + remainderLength tail s) s t ∧
        t.res = BitVec.ofNat 64 (q * s.gM.toNat + remainderValue tail s)) ∧
    (2 ^ 32 ≤ q * s.gM.toNat + remainderValue tail s →
      ∃ t, exec .gDecu s = .next t ∧ ReadFaultFrame .overflow s t ∧
        ReadBits (q + 1 + remainderLength tail s) s t)

/-- EOF inside the unary code is UnexpectedEndOfStream for G.DECU and G.DEC, and so is EOF on the sign bit of
G.DEC; RES is unchanged and EOS is set (R172, R305). On a source of endless zero bits both leave the core as it is,
BUSY (R360; that nothing of the reading shows is log 2). -/
def Obligations.EndOfStreamFaults : Prop :=
  ∀ (s : State) (q : Nat), s.cstate ≠ .halted → s.bsMode = .read →
    (sourceFails s = false → sourceEndless s = false →
      (unreadBits s = List.replicate q false →
        ∃ t, exec .gDecu s = .next t ∧ ReadFaultFrame .unexpectedEndOfStream s t ∧ ReadBits (q + 1) s t) ∧
      (unreadBits s = List.replicate q false → s.gMode = .interleaving →
        ∃ t, exec .gDec s = .next t ∧ ReadFaultFrame .unexpectedEndOfStream s t ∧ ReadBits (q + 1) s t) ∧
      (∀ sign, unreadBits s = sign :: List.replicate q false → s.gMode = .signAndMagnitude →
        ∃ t, exec .gDec s = .next t ∧ ReadFaultFrame .unexpectedEndOfStream s t ∧ ReadBits (q + 2) s t) ∧
      (unreadBits s = [] → s.gMode = .signAndMagnitude →
        ∃ t, exec .gDec s = .next t ∧ ReadFaultFrame .unexpectedEndOfStream s t ∧ ReadBits 1 s t)) ∧
    (sourceEndless s = true →
      (unreadBits s = List.replicate q false →
        exec .gDecu s = .next s ∧ (s.gMode = .interleaving → exec .gDec s = .next s)) ∧
      (s.gMode = .signAndMagnitude →
        (unreadBits s = [] ∨ ∃ sign, unreadBits s = sign :: List.replicate q false) → exec .gDec s = .next s))

/-- G.ENC (R174, R179): the codeword of the signed OPA[31:0] under GMODE. -/
def Obligations.EncodeSignedResult : Prop :=
  ∀ s : State, s.cstate ≠ .halted → s.bsMode = .write →
    SinkAccepts (bytesCompleted (signedBits (s.opa.setWidth 32).toInt s).length s) s →
    ∃ t, exec .gEnc s = .next t ∧ WriteFrame s t ∧
      writtenBits t = writtenBits s ++ signedBits (s.opa.setWidth 32).toInt s

/-- G.DEC under INTERLEAVING (R174, R180). -/
def Obligations.DecodeInterleavedResult : Prop :=
  ∀ (s : State) (q : Nat) (tail : List Bool), s.cstate ≠ .halted → s.bsMode = .read → s.gMode = .interleaving →
    unreadBits s = unaryBits q ++ tail → CanRead (q + 1 + remainderLength tail s) s →
    let u := q * s.gM.toNat + remainderValue tail s
    (u < 2 ^ 32 →
      ∃ t, exec .gDec s = .next t ∧ ReadFrame s t ∧ ReadBits (q + 1 + remainderLength tail s) s t ∧
        (u % 2 = 0 → t.res.toInt = u / 2) ∧ (u % 2 = 1 → t.res.toInt = -((u + 1) / 2))) ∧
    (2 ^ 32 ≤ u →
      ∃ t, exec .gDec s = .next t ∧ ReadFaultFrame .overflow s t ∧
        ReadBits (q + 1 + remainderLength tail s) s t)

/-- G.DEC under SIGN_AND_MAGNITUDE (R174, R180): sign 1 with magnitude 0 is 0; a magnitude that does not fit
is Overflow. -/
def Obligations.DecodeSignMagnitudeResult : Prop :=
  ∀ (s : State) (sign : Bool) (q : Nat) (tail : List Bool), s.cstate ≠ .halted → s.bsMode = .read →
    s.gMode = .signAndMagnitude → unreadBits s = sign :: (unaryBits q ++ tail) →
    CanRead (q + 2 + remainderLength tail s) s →
    let u := q * s.gM.toNat + remainderValue tail s
    (u ≤ 2 ^ 31 - (!sign).toNat →
      ∃ t, exec .gDec s = .next t ∧ ReadFrame s t ∧ ReadBits (q + 2 + remainderLength tail s) s t ∧
        t.res.toInt = if sign then -(u : Int) else u) ∧
    (2 ^ 31 - (!sign).toNat < u →
      ∃ t, exec .gDec s = .next t ∧ ReadFaultFrame .overflow s t ∧
        ReadBits (q + 2 + remainderLength tail s) s t)

/-- G.RDM (R181): 16 bits, missing ones 0; 0 is clamped to 1; M, B, CUTOFF and RES are written. -/
def Obligations.ReadBlockParameterResult : Prop :=
  encode .gRdm = 0x16000000#32 ∧ ∀ s : State, s.cstate ≠ .halted → s.bsMode = .read → CanRead 16 s →
    ∃ t, exec .gRdm s = .next t ∧ GolombOk t ∧ ReadBits 16 s t ∧
      t.res = BitVec.ofNat 64 (max 1 (bitsValue (paddedTake 16 (unreadBits s)))) ∧
      t.gM = BitVec.ofNat 16 (max 1 (bitsValue (paddedTake 16 (unreadBits s)))) ∧
      t = { s with
        cstate := .idle, buf := t.buf, cnt := t.cnt, eos := t.eos, byteCnt := t.byteCnt, srcPos := t.srcPos,
        gM := t.gM, gB := t.gB, gCutoff := t.gCutoff, res := t.res }

/-- How many bits G.ENCU and G.ENC write (R182): `L(n)` for an unsigned value, `L(map(n))` under INTERLEAVING,
`1 + L(|n|)` under SIGN_AND_MAGNITUDE. -/
def Obligations.CodewordLengths : Prop :=
  ∀ s t : State, s.cstate ≠ .halted → s.bsMode = .write → t.cstate = .idle →
    (exec .gEncu s = .next t →
      (writtenBits t).length = (writtenBits s).length + codewordLength (s.opa.toNat % 2 ^ 32) s) ∧
    (exec .gEnc s = .next t →
      let n := (s.opa.setWidth 32).toInt
      (s.gMode = .interleaving →
        (writtenBits t).length = (writtenBits s).length +
          codewordLength (if 0 ≤ n then 2 * n else -2 * n - 1).toNat s) ∧
      (s.gMode = .signAndMagnitude →
        (writtenBits t).length = (writtenBits s).length + 1 + codewordLength n.natAbs s))

/-- The unsigned round trip (R183): whatever bits G.ENCU writes, a reader with the same Golomb registers that
has them next decodes the same 32-bit value and goes on right after them. -/
def Obligations.UnsignedRoundTrip : Prop :=
  ∀ (w w' r : State) (bits rest : List Bool),
    w.cstate ≠ .halted → w.bsMode = .write → GolombOk w → exec .gEncu w = .next w' → w'.cstate = .idle →
    writtenBits w' = writtenBits w ++ bits →
    r.cstate ≠ .halted → r.bsMode = .read → r.gM = w.gM → r.gB = w.gB → r.gCutoff = w.gCutoff →
    unreadBits r = bits ++ rest →
    ∃ r', exec .gDecu r = .next r' ∧ r'.cstate = .idle ∧ r'.res.toNat = w.opa.toNat % 2 ^ 32 ∧
      unreadBits r' = rest

/-- The signed round trip, under both sign mappings (R183). -/
def Obligations.SignedRoundTrip : Prop :=
  ∀ (w w' r : State) (bits rest : List Bool),
    w.cstate ≠ .halted → w.bsMode = .write → GolombOk w → exec .gEnc w = .next w' → w'.cstate = .idle →
    writtenBits w' = writtenBits w ++ bits →
    r.cstate ≠ .halted → r.bsMode = .read → r.gM = w.gM → r.gB = w.gB → r.gCutoff = w.gCutoff →
    r.gMode = w.gMode → unreadBits r = bits ++ rest →
    ∃ r', exec .gDec r = .next r' ∧ r'.cstate = .idle ∧ r'.res.toInt = (w.opa.setWidth 32).toInt ∧
      unreadBits r' = rest

/-! ### Predictors -/

/-- AP.RESET (R212). -/
def Obligations.AudioResetResult : Prop :=
  encode .apReset = 0x20000000#32 ∧ ∀ s : State, s.cstate ≠ .halted →
    exec .apReset s = .next { s with cstate := .idle, prevL := 0#16, prevR := 0#16 }

/-- AP.ENCL and AP.ENCR (R213, R214): the exact residual of OPA[15:0] against PREV_L, sign-extended in RES. -/
def Obligations.AudioEncodeResult : Prop :=
  encode .apEncl = 0x21000000#32 ∧ encode .apEncr = 0x22000000#32 ∧ ∀ s : State, s.cstate ≠ .halted →
    ∃ e : DWord, e.toInt = (s.opa.setWidth 16).toInt - s.prevL.toInt ∧
      exec .apEncl s = .next { s with cstate := .idle, res := e, prevL := s.opa.setWidth 16 } ∧
      exec .apEncr s = .next { s with cstate := .idle, res := e, prevR := s.opa.setWidth 16 }

/-- AP.DECL and AP.DECR (R215, R216): PREV_L plus the residual OPA[31:0], wrapped to 16 bits. -/
def Obligations.AudioDecodeResult : Prop :=
  encode .apDecl = 0x23000000#32 ∧ encode .apDecr = 0x24000000#32 ∧ ∀ s : State, s.cstate ≠ .halted →
    ∃ x : Half, x = BitVec.ofInt 16 (s.prevL.toInt + (s.opa.setWidth 32).toInt) ∧
      exec .apDecl s = .next { s with cstate := .idle, res := x.signExtend 64, prevL := x } ∧
      exec .apDecr s = .next { s with cstate := .idle, res := x.signExtend 64, prevR := x }

/-- A decoder with the encoder's PREV_L rebuilds the sample from the residual (R213 to R216). -/
def Obligations.AudioRoundTrip : Prop :=
  ∀ (s t d : State), s.cstate ≠ .halted → d.cstate ≠ .halted → d.prevL = s.prevL → d.opa = t.res →
    (exec .apEncl s = .next t →
      ∃ u, exec .apDecl d = .next u ∧ u.prevL = t.prevL ∧ u.res.toInt = (s.opa.setWidth 16).toInt) ∧
    (exec .apEncr s = .next t →
      ∃ u, exec .apDecr d = .next u ∧ u.prevR = t.prevR ∧ u.res.toInt = (s.opa.setWidth 16).toInt)

/-- MED.PRED, MED.ENC and MED.DEC (R220 to R223): the prediction, the residual, and the clamped
reconstruction; only RES is written. -/
def Obligations.MedResults : Prop :=
  encode .medPred = 0x28000000#32 ∧ encode .medEnc = 0x29000000#32 ∧ encode .medDec = 0x2A000000#32 ∧
  ∀ s : State, s.cstate ≠ .halted →
    let a : Int := (s.opb.extractLsb' 0 8).toNat
    let b : Int := (s.opb.extractLsb' 8 8).toNat
    let c : Int := (s.opb.extractLsb' 16 8).toNat
    let p : Int := if max a b ≤ c then min a b else if c ≤ min a b then max a b else a + b - c
    0 ≤ p ∧ p ≤ 255 ∧
    (∃ v : DWord, v.toInt = p ∧ exec .medPred s = .next { s with cstate := .idle, res := v }) ∧
    (∃ v : DWord, v.toInt = (s.opa.extractLsb' 0 8).toNat - p ∧
      exec .medEnc s = .next { s with cstate := .idle, res := v }) ∧
    (∃ v : DWord, v.toInt = min 255 (max 0 (p + (s.opa.setWidth 32).toInt)) ∧
      exec .medDec s = .next { s with cstate := .idle, res := v })

/-- With the same neighbours, MED.DEC gives back the pixel that MED.ENC took the residual of (R223). -/
def Obligations.MedRoundTrip : Prop :=
  ∀ (s t d : State), s.cstate ≠ .halted → d.cstate ≠ .halted → exec .medEnc s = .next t →
    d.opb.setWidth 24 = s.opb.setWidth 24 → d.opa = t.res →
    ∃ u, exec .medDec d = .next u ∧ u.res.toNat = s.opa.toNat % 2 ^ 8

/-! ### Estimator -/

/-- EST.CLR and EST.ACC (R241, R242): the sum of absolute residuals and their count; a full COUNT is Overflow. -/
def Obligations.EstimatorSumResult : Prop :=
  encode .estClr = 0x30000000#32 ∧ encode .estAcc = 0x31000000#32 ∧ ∀ s : State, s.cstate ≠ .halted →
    exec .estClr s = .next { s with cstate := .idle, sum := 0#64, count := 0#32 } ∧
    (s.count = 0xFFFFFFFF#32 →
      exec .estAcc s = .next { s with cstate := .halted, errCode := .overflow }) ∧
    (s.count ≠ 0xFFFFFFFF#32 → EstimatorOk s → ∃ t, exec .estAcc s = .next t ∧
      t = { s with cstate := .idle, sum := t.sum, count := t.count } ∧
      t.sum.toNat = s.sum.toNat + (s.opa.setWidth 32).toInt.natAbs ∧ t.count.toNat = s.count.toNat + 1)

/-- EST.M (R240, R243): the rounded and saturated estimate, for the implementation's LN2_NUM and LN2_DEN (R9, with the
defaults of R13 at power-on), goes to M and RES; SUM and COUNT stay. With another function in the configuration field
`estimate` (I6) it is some value in 1..65535 (the parameters as data are log 8). -/
def Obligations.EstimateResult : Prop :=
  encode .estM = 0x32000000#32 ∧ State.reset.estRule = .rational 693147 1000000 ∧
  ∀ s : State, s.cstate ≠ .halted →
    ∃ t, exec .estM s = .next t ∧ GolombOk t ∧ t.res.toNat = t.gM.toNat ∧
      t = { s with cstate := .idle, gM := t.gM, gB := t.gB, gCutoff := t.gCutoff, res := t.res } ∧
      ∀ num den, s.estRule = .rational num den →
        t.gM.toNat = if s.count.toNat = 0 then 1
          else min 65535 (max 1 ((2 * s.sum.toNat * num + s.count.toNat * den) / (2 * s.count.toNat * den)))

/-! ### Formats and host procedures -/

/-- A GACL header is 25 bytes, a GICL header 17, and each reads back as written (R260, R261, R270, R272); a
GICL header is no GACL header. -/
def Obligations.HeadersReadBack : Prop :=
  (∀ h : GaclHeader, h.channels = 1 ∨ h.channels = 2 → h.sampleRate < 2 ^ 32 → h.totalFrames < 2 ^ 64 →
    h.fixedM < 2 ^ 16 →
    (gaclBytes h).length = 25 ∧
    parseGacl (gaclBytes h) = .ok { h with fixedM := if h.adaptive then 0 else h.fixedM }) ∧
  (∀ h : GiclHeader, h.width < 2 ^ 32 → h.height < 2 ^ 32 → h.fixedM < 2 ^ 16 →
    (giclBytes h).length = 17 ∧
    parseGicl (giclBytes h) = .ok { h with fixedM := if h.adaptive then 0 else h.fixedM }) ∧
  ∀ (g : GiclHeader) (more : List Byte), parseGacl (giclBytes g ++ more) = .error .invalidFormat

/-- The host's DO runs the command (R118, R350; WAIT is log 12): from IDLE, it is exec of the command, and it goes on
exactly when no error is recorded; it waits for ever when the core stays BUSY (R360, in the model log 2). -/
def Obligations.HostDoRunsCommand : Prop :=
  ∀ (i : Instr) (s t : State), i.wellFormed = true → s.cstate = .idle →
    exec i { s with cstate := .busy (encode i) } = .next t →
    ((∀ w, t.cstate ≠ .busy w) →
      (t.errCode = .none → hostDo i s = .done () t) ∧
      (t.errCode ≠ .none → hostDo i s = .raised t.errCode t)) ∧
    ∀ w, t.cstate = .busy w → hostDo i s = .running
end

