-- ==== Sys2Proof/Laws/Bits.lean ====
section
/-! SUPPORT. Small lemmas on the bit lists of the stream. -/

namespace Sys2Proof.Machine.Laws

@[simp] theorem byteBits_length (v : Byte) : (byteBits v).length = 8 := by simp [byteBits]

@[simp] theorem fieldBits_length (n : Nat) (v : DWord) : (fieldBits n v).length = n := by simp [fieldBits]

@[simp] theorem pendingBits_length (s : State) : (pendingBits s).length = s.cnt.toNat := by simp [pendingBits]

@[simp] theorem bufferedBits_length (s : State) : (bufferedBits s).length = s.cnt.toNat := by simp [bufferedBits]

theorem flatMap_byteBits_length (l : List Byte) : (l.flatMap byteBits).length = 8 * l.length := by
  induction l with
  | nil => rfl
  | cons v l ih => simp [ih]; omega

theorem writtenBits_length (s : State) :
    (writtenBits s).length = 8 * s.sinkBytes.length + s.cnt.toNat := by
  simp [writtenBits, flatMap_byteBits_length, -List.length_flatMap]

@[simp] theorem fieldBits_zero (v : DWord) : fieldBits 0 v = [] := rfl

/-- The field of `n + 1` bits is bit `n`, then the field of `n` bits (R141). -/
theorem fieldBits_succ (n : Nat) (v : DWord) : fieldBits (n + 1) v = v.getLsbD n :: fieldBits n v := by
  simp only [fieldBits, List.range_succ_eq_map, List.map_cons, List.map_map]
  congr 1
  apply List.map_congr_left
  intro i _
  simp only [Function.comp]
  congr 1
  omega

theorem withBit_getLsbD (v : Byte) (i j : Nat) (b : Bool) (hi : i < 8) :
    (withBit v i b).getLsbD j = if j = i then b else v.getLsbD j := by
  unfold withBit
  cases b with
  | true =>
    by_cases h : j = i
    · subst h; simp [hi]
    · simp [h]
      intro hj1 hj2
      have : j - i ≠ 0 := by omega
      simp [this]
  | false =>
    by_cases h : j = i
    · subst h; simp [hi]
    · by_cases h8 : j < 8
      · simp [h]
        exact fun _ => ⟨h8, by omega⟩
      · simp [h, BitVec.getLsbD_of_ge _ _ (by omega : 8 ≤ j)]

theorem cnt_lt (s : State) : s.cnt.toNat < 8 := s.cnt.isLt

/-! ### The value of bits -/

theorem bitsValue_foldl (bits : List Bool) (v : Nat) :
    bits.foldl (fun v b => 2 * v + b.toNat) v = v * 2 ^ bits.length + bitsValue bits := by
  induction bits generalizing v with
  | nil => simp [bitsValue]
  | cons b bs ih =>
    have h : bitsValue (b :: bs) = bs.foldl (fun v b => 2 * v + b.toNat) (2 * 0 + b.toNat) := rfl
    rw [List.foldl_cons, ih, h, ih (2 * 0 + b.toNat), List.length_cons, pow_succ]
    ring

theorem bitsValue_cons (b : Bool) (bs : List Bool) :
    bitsValue (b :: bs) = b.toNat * 2 ^ bs.length + bitsValue bs := by
  rw [bitsValue, List.foldl_cons, bitsValue_foldl]
  simp

theorem bitsValue_append (as bs : List Bool) :
    bitsValue (as ++ bs) = bitsValue as * 2 ^ bs.length + bitsValue bs := by
  simp only [bitsValue, List.foldl_append]
  rw [bitsValue_foldl bs]
  rfl

theorem bitsValue_lt (bs : List Bool) : bitsValue bs < 2 ^ bs.length := by
  induction bs with
  | nil => simp [bitsValue]
  | cons b bs ih =>
    rw [bitsValue_cons, List.length_cons, pow_succ]
    cases b <;> simp
    · omega
    · omega

/-- A field's bits spell its value modulo `2^n` (R82, R143). -/
theorem bitsValue_fieldBits (n : Nat) (v : DWord) : bitsValue (fieldBits n v) = v.toNat % 2 ^ n := by
  induction n with
  | zero => simp [bitsValue, Nat.mod_one]
  | succ n ih =>
    rw [fieldBits_succ, bitsValue_cons, ih, fieldBits_length, BitVec.getLsbD, Nat.testBit_eq_decide_div_mod_eq]
    rw [Nat.mod_pow_succ]
    rcases Nat.mod_two_eq_zero_or_one (v.toNat / 2 ^ n) with h | h
    · simp [h]
    · simp [h]
      ring

/-! ### Zero padding -/

theorem paddedTake_of_le {n : Nat} {bits : List Bool} (h : n ≤ bits.length) :
    paddedTake n bits = bits.take n := by
  simp [paddedTake, List.take_append, Nat.sub_eq_zero_of_le h]

@[simp] theorem paddedTake_length (n : Nat) (bits : List Bool) : (paddedTake n bits).length = n := by
  simp [paddedTake]

@[simp] theorem paddedTake_zero (bits : List Bool) : paddedTake 0 bits = [] := by simp [paddedTake]

theorem paddedTake_cons (n : Nat) (b : Bool) (bits : List Bool) :
    paddedTake (n + 1) (b :: bits) = b :: paddedTake n bits := by
  simp [paddedTake, List.take_append]
  omega

theorem paddedTake_nil (n : Nat) : paddedTake n [] = List.replicate n false := by simp [paddedTake]

/-! ### Long runs of zero bytes -/

theorem suppliedBytes_bytes (vs : List Byte) (as : List SourceAnswer) :
    suppliedBytes (vs.map .byte ++ as) = vs ++ suppliedBytes as := by
  induction vs with
  | nil => rfl
  | cons v vs ih => simp [suppliedBytes, ih]

theorem endsInIoErr_bytes (vs : List Byte) (as : List SourceAnswer) :
    endsInIoErr (vs.map .byte ++ as) = endsInIoErr as := by
  induction vs with
  | nil => rfl
  | cons v vs ih => simp [endsInIoErr, ih]

theorem suppliedBytes_zeros (n : Nat) (as : List SourceAnswer) :
    suppliedBytes (List.replicate n (.byte 0#8) ++ as) = List.replicate n 0#8 ++ suppliedBytes as := by
  induction n with
  | zero => rfl
  | succ n ih => simp [List.replicate_succ, suppliedBytes, ih]

theorem endsInIoErr_zeros (n : Nat) (as : List SourceAnswer) :
    endsInIoErr (List.replicate n (.byte 0#8) ++ as) = endsInIoErr as := by
  induction n with
  | zero => rfl
  | succ n ih => simp [List.replicate_succ, endsInIoErr, ih]

theorem flatMap_zeros (n : Nat) : (List.replicate n 0#8).flatMap byteBits = List.replicate (8 * n) false := by
  induction n with
  | zero => rfl
  | succ n ih =>
    rw [List.replicate_succ, List.flatMap_cons, ih, show byteBits 0#8 = List.replicate 8 false from rfl,
      List.replicate_append_replicate]
    congr 1
    omega

end Sys2Proof.Machine.Laws
end

