-- ==== Sys2Proof/Laws/Encoding.lean ====
section
/-! SUPPORT. The bits of a command word: the opcode above, the field below. -/

namespace Sys2Proof.Laws

/-- Bit `j` of a command's word: the field below bit 24, the opcode from bit 24 on (R110, R111). -/
theorem encode_getLsbD (i : Instr) (j : Nat) :
    (encode i).getLsbD j = if j < 24 then (operandField i).getLsbD j else (opcode i).getLsbD (j - 24) := by
  have h : (opcode i ++ operandField i).getLsbD j = _ := BitVec.getLsbD_append
  exact h

/-- The opcode of a command's word is the command's (R113). -/
theorem opcodeOf_encode (i : Instr) : opcodeOf (encode i) = opcode i := by
  apply BitVec.eq_of_getLsbD_eq
  intro j hj
  rw [opcodeOf, BitVec.getLsbD_extractLsb', encode_getLsbD, if_neg (by omega), Nat.add_sub_cancel_left]
  simp [hj]

/-- A bit that a mask reserves is zero in a word whose reserved bits are zero (R116). -/
theorem reserved_bit {w m : Word} (h : w &&& m = 0#32) (j : Nat) (hm : m.getLsbD j = true) :
    w.getLsbD j = false := by
  have := congrArg (·.getLsbD j) h
  simpa [hm] using this

end Sys2Proof.Laws
end

