-- ==== Sys2Proof/Laws/State.lean ====
section
/-! SUPPORT. The simp lemmas of the named updates of State: one per field, so that no proof unfolds a record
update. -/

namespace Sys2Proof.Machine.Laws

variable (s : State)

/-! ### Completion: `complete` -/

@[simp] theorem complete_cstate : (complete s).cstate = .idle := rfl
@[simp] theorem complete_opa : (complete s).opa = s.opa := rfl
@[simp] theorem complete_opb : (complete s).opb = s.opb := rfl
@[simp] theorem complete_res : (complete s).res = s.res := rfl
@[simp] theorem complete_lost : (complete s).lost = s.lost := rfl
@[simp] theorem complete_errCode : (complete s).errCode = s.errCode := rfl
@[simp] theorem complete_bsMode : (complete s).bsMode = s.bsMode := rfl
@[simp] theorem complete_buf : (complete s).buf = s.buf := rfl
@[simp] theorem complete_cnt : (complete s).cnt = s.cnt := rfl
@[simp] theorem complete_eos : (complete s).eos = s.eos := rfl
@[simp] theorem complete_byteCnt : (complete s).byteCnt = s.byteCnt := rfl
@[simp] theorem complete_gM : (complete s).gM = s.gM := rfl
@[simp] theorem complete_gB : (complete s).gB = s.gB := rfl
@[simp] theorem complete_gCutoff : (complete s).gCutoff = s.gCutoff := rfl
@[simp] theorem complete_gMode : (complete s).gMode = s.gMode := rfl
@[simp] theorem complete_prevL : (complete s).prevL = s.prevL := rfl
@[simp] theorem complete_prevR : (complete s).prevR = s.prevR := rfl
@[simp] theorem complete_sum : (complete s).sum = s.sum := rfl
@[simp] theorem complete_count : (complete s).count = s.count := rfl
@[simp] theorem complete_sinkBytes : (complete s).sinkBytes = s.sinkBytes := rfl
@[simp] theorem complete_sinkAsked : (complete s).sinkAsked = s.sinkAsked := rfl
@[simp] theorem complete_sinkPlan : (complete s).sinkPlan = s.sinkPlan := rfl
@[simp] theorem complete_srcTape : (complete s).srcTape = s.srcTape := rfl
@[simp] theorem complete_srcRest : (complete s).srcRest = s.srcRest := rfl
@[simp] theorem complete_srcPos : (complete s).srcPos = s.srcPos := rfl
@[simp] theorem complete_hostQueue : (complete s).hostQueue = s.hostQueue := rfl
@[simp] theorem complete_hostReplies : (complete s).hostReplies = s.hostReplies := rfl
@[simp] theorem complete_turns : (complete s).turns = s.turns := rfl
@[simp] theorem complete_turnRest : (complete s).turnRest = s.turnRest := rfl
@[simp] theorem complete_draws : (complete s).draws = s.draws := rfl
@[simp] theorem complete_estRule : (complete s).estRule = s.estRule := rfl

/-! ### RES: `setRes` -/

@[simp] theorem setRes_cstate (v : DWord) : (setRes v s).cstate = s.cstate := rfl
@[simp] theorem setRes_opa (v : DWord) : (setRes v s).opa = s.opa := rfl
@[simp] theorem setRes_opb (v : DWord) : (setRes v s).opb = s.opb := rfl
@[simp] theorem setRes_res (v : DWord) : (setRes v s).res = v := rfl
@[simp] theorem setRes_lost (v : DWord) : (setRes v s).lost = s.lost := rfl
@[simp] theorem setRes_errCode (v : DWord) : (setRes v s).errCode = s.errCode := rfl
@[simp] theorem setRes_bsMode (v : DWord) : (setRes v s).bsMode = s.bsMode := rfl
@[simp] theorem setRes_buf (v : DWord) : (setRes v s).buf = s.buf := rfl
@[simp] theorem setRes_cnt (v : DWord) : (setRes v s).cnt = s.cnt := rfl
@[simp] theorem setRes_eos (v : DWord) : (setRes v s).eos = s.eos := rfl
@[simp] theorem setRes_byteCnt (v : DWord) : (setRes v s).byteCnt = s.byteCnt := rfl
@[simp] theorem setRes_gM (v : DWord) : (setRes v s).gM = s.gM := rfl
@[simp] theorem setRes_gB (v : DWord) : (setRes v s).gB = s.gB := rfl
@[simp] theorem setRes_gCutoff (v : DWord) : (setRes v s).gCutoff = s.gCutoff := rfl
@[simp] theorem setRes_gMode (v : DWord) : (setRes v s).gMode = s.gMode := rfl
@[simp] theorem setRes_prevL (v : DWord) : (setRes v s).prevL = s.prevL := rfl
@[simp] theorem setRes_prevR (v : DWord) : (setRes v s).prevR = s.prevR := rfl
@[simp] theorem setRes_sum (v : DWord) : (setRes v s).sum = s.sum := rfl
@[simp] theorem setRes_count (v : DWord) : (setRes v s).count = s.count := rfl
@[simp] theorem setRes_sinkBytes (v : DWord) : (setRes v s).sinkBytes = s.sinkBytes := rfl
@[simp] theorem setRes_sinkAsked (v : DWord) : (setRes v s).sinkAsked = s.sinkAsked := rfl
@[simp] theorem setRes_sinkPlan (v : DWord) : (setRes v s).sinkPlan = s.sinkPlan := rfl
@[simp] theorem setRes_srcTape (v : DWord) : (setRes v s).srcTape = s.srcTape := rfl
@[simp] theorem setRes_srcRest (v : DWord) : (setRes v s).srcRest = s.srcRest := rfl
@[simp] theorem setRes_srcPos (v : DWord) : (setRes v s).srcPos = s.srcPos := rfl
@[simp] theorem setRes_hostQueue (v : DWord) : (setRes v s).hostQueue = s.hostQueue := rfl
@[simp] theorem setRes_hostReplies (v : DWord) : (setRes v s).hostReplies = s.hostReplies := rfl
@[simp] theorem setRes_turns (v : DWord) : (setRes v s).turns = s.turns := rfl
@[simp] theorem setRes_turnRest (v : DWord) : (setRes v s).turnRest = s.turnRest := rfl
@[simp] theorem setRes_draws (v : DWord) : (setRes v s).draws = s.draws := rfl
@[simp] theorem setRes_estRule (v : DWord) : (setRes v s).estRule = s.estRule := rfl

/-! ### LOST: `markLost` -/

@[simp] theorem markLost_cstate : (markLost s).cstate = s.cstate := rfl
@[simp] theorem markLost_opa : (markLost s).opa = s.opa := rfl
@[simp] theorem markLost_opb : (markLost s).opb = s.opb := rfl
@[simp] theorem markLost_res : (markLost s).res = s.res := rfl
@[simp] theorem markLost_lost : (markLost s).lost = true := rfl
@[simp] theorem markLost_errCode : (markLost s).errCode = s.errCode := rfl
@[simp] theorem markLost_bsMode : (markLost s).bsMode = s.bsMode := rfl
@[simp] theorem markLost_buf : (markLost s).buf = s.buf := rfl
@[simp] theorem markLost_cnt : (markLost s).cnt = s.cnt := rfl
@[simp] theorem markLost_eos : (markLost s).eos = s.eos := rfl
@[simp] theorem markLost_byteCnt : (markLost s).byteCnt = s.byteCnt := rfl
@[simp] theorem markLost_gM : (markLost s).gM = s.gM := rfl
@[simp] theorem markLost_gB : (markLost s).gB = s.gB := rfl
@[simp] theorem markLost_gCutoff : (markLost s).gCutoff = s.gCutoff := rfl
@[simp] theorem markLost_gMode : (markLost s).gMode = s.gMode := rfl
@[simp] theorem markLost_prevL : (markLost s).prevL = s.prevL := rfl
@[simp] theorem markLost_prevR : (markLost s).prevR = s.prevR := rfl
@[simp] theorem markLost_sum : (markLost s).sum = s.sum := rfl
@[simp] theorem markLost_count : (markLost s).count = s.count := rfl
@[simp] theorem markLost_sinkBytes : (markLost s).sinkBytes = s.sinkBytes := rfl
@[simp] theorem markLost_sinkAsked : (markLost s).sinkAsked = s.sinkAsked := rfl
@[simp] theorem markLost_sinkPlan : (markLost s).sinkPlan = s.sinkPlan := rfl
@[simp] theorem markLost_srcTape : (markLost s).srcTape = s.srcTape := rfl
@[simp] theorem markLost_srcRest : (markLost s).srcRest = s.srcRest := rfl
@[simp] theorem markLost_srcPos : (markLost s).srcPos = s.srcPos := rfl
@[simp] theorem markLost_hostQueue : (markLost s).hostQueue = s.hostQueue := rfl
@[simp] theorem markLost_hostReplies : (markLost s).hostReplies = s.hostReplies := rfl
@[simp] theorem markLost_turns : (markLost s).turns = s.turns := rfl
@[simp] theorem markLost_turnRest : (markLost s).turnRest = s.turnRest := rfl
@[simp] theorem markLost_draws : (markLost s).draws = s.draws := rfl
@[simp] theorem markLost_estRule : (markLost s).estRule = s.estRule := rfl

/-! ### EOS: `markEos` -/

@[simp] theorem markEos_cstate : (markEos s).cstate = s.cstate := rfl
@[simp] theorem markEos_opa : (markEos s).opa = s.opa := rfl
@[simp] theorem markEos_opb : (markEos s).opb = s.opb := rfl
@[simp] theorem markEos_res : (markEos s).res = s.res := rfl
@[simp] theorem markEos_lost : (markEos s).lost = s.lost := rfl
@[simp] theorem markEos_errCode : (markEos s).errCode = s.errCode := rfl
@[simp] theorem markEos_bsMode : (markEos s).bsMode = s.bsMode := rfl
@[simp] theorem markEos_buf : (markEos s).buf = s.buf := rfl
@[simp] theorem markEos_cnt : (markEos s).cnt = s.cnt := rfl
@[simp] theorem markEos_eos : (markEos s).eos = true := rfl
@[simp] theorem markEos_byteCnt : (markEos s).byteCnt = s.byteCnt := rfl
@[simp] theorem markEos_gM : (markEos s).gM = s.gM := rfl
@[simp] theorem markEos_gB : (markEos s).gB = s.gB := rfl
@[simp] theorem markEos_gCutoff : (markEos s).gCutoff = s.gCutoff := rfl
@[simp] theorem markEos_gMode : (markEos s).gMode = s.gMode := rfl
@[simp] theorem markEos_prevL : (markEos s).prevL = s.prevL := rfl
@[simp] theorem markEos_prevR : (markEos s).prevR = s.prevR := rfl
@[simp] theorem markEos_sum : (markEos s).sum = s.sum := rfl
@[simp] theorem markEos_count : (markEos s).count = s.count := rfl
@[simp] theorem markEos_sinkBytes : (markEos s).sinkBytes = s.sinkBytes := rfl
@[simp] theorem markEos_sinkAsked : (markEos s).sinkAsked = s.sinkAsked := rfl
@[simp] theorem markEos_sinkPlan : (markEos s).sinkPlan = s.sinkPlan := rfl
@[simp] theorem markEos_srcTape : (markEos s).srcTape = s.srcTape := rfl
@[simp] theorem markEos_srcRest : (markEos s).srcRest = s.srcRest := rfl
@[simp] theorem markEos_srcPos : (markEos s).srcPos = s.srcPos := rfl
@[simp] theorem markEos_hostQueue : (markEos s).hostQueue = s.hostQueue := rfl
@[simp] theorem markEos_hostReplies : (markEos s).hostReplies = s.hostReplies := rfl
@[simp] theorem markEos_turns : (markEos s).turns = s.turns := rfl
@[simp] theorem markEos_turnRest : (markEos s).turnRest = s.turnRest := rfl
@[simp] theorem markEos_draws : (markEos s).draws = s.draws := rfl
@[simp] theorem markEos_estRule : (markEos s).estRule = s.estRule := rfl

/-! ### The bit buffer: `setBitBuffer` -/

@[simp] theorem setBitBuffer_cstate (v : Byte) (c : BitVec 3) : (setBitBuffer v c s).cstate = s.cstate := rfl
@[simp] theorem setBitBuffer_opa (v : Byte) (c : BitVec 3) : (setBitBuffer v c s).opa = s.opa := rfl
@[simp] theorem setBitBuffer_opb (v : Byte) (c : BitVec 3) : (setBitBuffer v c s).opb = s.opb := rfl
@[simp] theorem setBitBuffer_res (v : Byte) (c : BitVec 3) : (setBitBuffer v c s).res = s.res := rfl
@[simp] theorem setBitBuffer_lost (v : Byte) (c : BitVec 3) : (setBitBuffer v c s).lost = s.lost := rfl
@[simp] theorem setBitBuffer_errCode (v : Byte) (c : BitVec 3) : (setBitBuffer v c s).errCode = s.errCode := rfl
@[simp] theorem setBitBuffer_bsMode (v : Byte) (c : BitVec 3) : (setBitBuffer v c s).bsMode = s.bsMode := rfl
@[simp] theorem setBitBuffer_buf (v : Byte) (c : BitVec 3) : (setBitBuffer v c s).buf = v := rfl
@[simp] theorem setBitBuffer_cnt (v : Byte) (c : BitVec 3) : (setBitBuffer v c s).cnt = c := rfl
@[simp] theorem setBitBuffer_eos (v : Byte) (c : BitVec 3) : (setBitBuffer v c s).eos = s.eos := rfl
@[simp] theorem setBitBuffer_byteCnt (v : Byte) (c : BitVec 3) : (setBitBuffer v c s).byteCnt = s.byteCnt := rfl
@[simp] theorem setBitBuffer_gM (v : Byte) (c : BitVec 3) : (setBitBuffer v c s).gM = s.gM := rfl
@[simp] theorem setBitBuffer_gB (v : Byte) (c : BitVec 3) : (setBitBuffer v c s).gB = s.gB := rfl
@[simp] theorem setBitBuffer_gCutoff (v : Byte) (c : BitVec 3) : (setBitBuffer v c s).gCutoff = s.gCutoff := rfl
@[simp] theorem setBitBuffer_gMode (v : Byte) (c : BitVec 3) : (setBitBuffer v c s).gMode = s.gMode := rfl
@[simp] theorem setBitBuffer_prevL (v : Byte) (c : BitVec 3) : (setBitBuffer v c s).prevL = s.prevL := rfl
@[simp] theorem setBitBuffer_prevR (v : Byte) (c : BitVec 3) : (setBitBuffer v c s).prevR = s.prevR := rfl
@[simp] theorem setBitBuffer_sum (v : Byte) (c : BitVec 3) : (setBitBuffer v c s).sum = s.sum := rfl
@[simp] theorem setBitBuffer_count (v : Byte) (c : BitVec 3) : (setBitBuffer v c s).count = s.count := rfl
@[simp] theorem setBitBuffer_sinkBytes (v : Byte) (c : BitVec 3) : (setBitBuffer v c s).sinkBytes = s.sinkBytes := rfl
@[simp] theorem setBitBuffer_sinkAsked (v : Byte) (c : BitVec 3) : (setBitBuffer v c s).sinkAsked = s.sinkAsked := rfl
@[simp] theorem setBitBuffer_sinkPlan (v : Byte) (c : BitVec 3) : (setBitBuffer v c s).sinkPlan = s.sinkPlan := rfl
@[simp] theorem setBitBuffer_srcTape (v : Byte) (c : BitVec 3) : (setBitBuffer v c s).srcTape = s.srcTape := rfl
@[simp] theorem setBitBuffer_srcRest (v : Byte) (c : BitVec 3) : (setBitBuffer v c s).srcRest = s.srcRest := rfl
@[simp] theorem setBitBuffer_srcPos (v : Byte) (c : BitVec 3) : (setBitBuffer v c s).srcPos = s.srcPos := rfl
@[simp] theorem setBitBuffer_hostQueue (v : Byte) (c : BitVec 3) : (setBitBuffer v c s).hostQueue = s.hostQueue := rfl
@[simp] theorem setBitBuffer_hostReplies (v : Byte) (c : BitVec 3) : (setBitBuffer v c s).hostReplies = s.hostReplies := rfl
@[simp] theorem setBitBuffer_turns (v : Byte) (c : BitVec 3) : (setBitBuffer v c s).turns = s.turns := rfl
@[simp] theorem setBitBuffer_turnRest (v : Byte) (c : BitVec 3) : (setBitBuffer v c s).turnRest = s.turnRest := rfl
@[simp] theorem setBitBuffer_draws (v : Byte) (c : BitVec 3) : (setBitBuffer v c s).draws = s.draws := rfl
@[simp] theorem setBitBuffer_estRule (v : Byte) (c : BitVec 3) : (setBitBuffer v c s).estRule = s.estRule := rfl

/-! ### Opening the stream: `openStream` -/

@[simp] theorem openStream_cstate (m : BsMode) : (openStream m s).cstate = s.cstate := rfl
@[simp] theorem openStream_opa (m : BsMode) : (openStream m s).opa = s.opa := rfl
@[simp] theorem openStream_opb (m : BsMode) : (openStream m s).opb = s.opb := rfl
@[simp] theorem openStream_res (m : BsMode) : (openStream m s).res = s.res := rfl
@[simp] theorem openStream_lost (m : BsMode) : (openStream m s).lost = s.lost := rfl
@[simp] theorem openStream_errCode (m : BsMode) : (openStream m s).errCode = s.errCode := rfl
@[simp] theorem openStream_bsMode (m : BsMode) : (openStream m s).bsMode = m := rfl
@[simp] theorem openStream_buf (m : BsMode) : (openStream m s).buf = 0#8 := rfl
@[simp] theorem openStream_cnt (m : BsMode) : (openStream m s).cnt = 0#3 := rfl
@[simp] theorem openStream_eos (m : BsMode) : (openStream m s).eos = false := rfl
@[simp] theorem openStream_byteCnt (m : BsMode) : (openStream m s).byteCnt = 0#64 := rfl
@[simp] theorem openStream_gM (m : BsMode) : (openStream m s).gM = s.gM := rfl
@[simp] theorem openStream_gB (m : BsMode) : (openStream m s).gB = s.gB := rfl
@[simp] theorem openStream_gCutoff (m : BsMode) : (openStream m s).gCutoff = s.gCutoff := rfl
@[simp] theorem openStream_gMode (m : BsMode) : (openStream m s).gMode = s.gMode := rfl
@[simp] theorem openStream_prevL (m : BsMode) : (openStream m s).prevL = s.prevL := rfl
@[simp] theorem openStream_prevR (m : BsMode) : (openStream m s).prevR = s.prevR := rfl
@[simp] theorem openStream_sum (m : BsMode) : (openStream m s).sum = s.sum := rfl
@[simp] theorem openStream_count (m : BsMode) : (openStream m s).count = s.count := rfl
@[simp] theorem openStream_sinkBytes (m : BsMode) : (openStream m s).sinkBytes = s.sinkBytes := rfl
@[simp] theorem openStream_sinkAsked (m : BsMode) : (openStream m s).sinkAsked = s.sinkAsked := rfl
@[simp] theorem openStream_sinkPlan (m : BsMode) : (openStream m s).sinkPlan = s.sinkPlan := rfl
@[simp] theorem openStream_srcTape (m : BsMode) : (openStream m s).srcTape = s.srcTape := rfl
@[simp] theorem openStream_srcRest (m : BsMode) : (openStream m s).srcRest = s.srcRest := rfl
@[simp] theorem openStream_srcPos (m : BsMode) : (openStream m s).srcPos = s.srcPos := rfl
@[simp] theorem openStream_hostQueue (m : BsMode) : (openStream m s).hostQueue = s.hostQueue := rfl
@[simp] theorem openStream_hostReplies (m : BsMode) : (openStream m s).hostReplies = s.hostReplies := rfl
@[simp] theorem openStream_turns (m : BsMode) : (openStream m s).turns = s.turns := rfl
@[simp] theorem openStream_turnRest (m : BsMode) : (openStream m s).turnRest = s.turnRest := rfl
@[simp] theorem openStream_draws (m : BsMode) : (openStream m s).draws = s.draws := rfl
@[simp] theorem openStream_estRule (m : BsMode) : (openStream m s).estRule = s.estRule := rfl

/-! ### Closing the stream: `closeStream` -/

@[simp] theorem closeStream_cstate : (closeStream s).cstate = s.cstate := rfl
@[simp] theorem closeStream_opa : (closeStream s).opa = s.opa := rfl
@[simp] theorem closeStream_opb : (closeStream s).opb = s.opb := rfl
@[simp] theorem closeStream_res : (closeStream s).res = s.res := rfl
@[simp] theorem closeStream_lost : (closeStream s).lost = s.lost := rfl
@[simp] theorem closeStream_errCode : (closeStream s).errCode = s.errCode := rfl
@[simp] theorem closeStream_bsMode : (closeStream s).bsMode = .closed := rfl
@[simp] theorem closeStream_buf : (closeStream s).buf = 0#8 := rfl
@[simp] theorem closeStream_cnt : (closeStream s).cnt = 0#3 := rfl
@[simp] theorem closeStream_eos : (closeStream s).eos = s.eos := rfl
@[simp] theorem closeStream_byteCnt : (closeStream s).byteCnt = s.byteCnt := rfl
@[simp] theorem closeStream_gM : (closeStream s).gM = s.gM := rfl
@[simp] theorem closeStream_gB : (closeStream s).gB = s.gB := rfl
@[simp] theorem closeStream_gCutoff : (closeStream s).gCutoff = s.gCutoff := rfl
@[simp] theorem closeStream_gMode : (closeStream s).gMode = s.gMode := rfl
@[simp] theorem closeStream_prevL : (closeStream s).prevL = s.prevL := rfl
@[simp] theorem closeStream_prevR : (closeStream s).prevR = s.prevR := rfl
@[simp] theorem closeStream_sum : (closeStream s).sum = s.sum := rfl
@[simp] theorem closeStream_count : (closeStream s).count = s.count := rfl
@[simp] theorem closeStream_sinkBytes : (closeStream s).sinkBytes = s.sinkBytes := rfl
@[simp] theorem closeStream_sinkAsked : (closeStream s).sinkAsked = s.sinkAsked := rfl
@[simp] theorem closeStream_sinkPlan : (closeStream s).sinkPlan = s.sinkPlan := rfl
@[simp] theorem closeStream_srcTape : (closeStream s).srcTape = s.srcTape := rfl
@[simp] theorem closeStream_srcRest : (closeStream s).srcRest = s.srcRest := rfl
@[simp] theorem closeStream_srcPos : (closeStream s).srcPos = s.srcPos := rfl
@[simp] theorem closeStream_hostQueue : (closeStream s).hostQueue = s.hostQueue := rfl
@[simp] theorem closeStream_hostReplies : (closeStream s).hostReplies = s.hostReplies := rfl
@[simp] theorem closeStream_turns : (closeStream s).turns = s.turns := rfl
@[simp] theorem closeStream_turnRest : (closeStream s).turnRest = s.turnRest := rfl
@[simp] theorem closeStream_draws : (closeStream s).draws = s.draws := rfl
@[simp] theorem closeStream_estRule : (closeStream s).estRule = s.estRule := rfl

/-! ### The Golomb parameter: `setM` -/

@[simp] theorem setM_cstate (v : Half) : (setM v s).cstate = s.cstate := rfl
@[simp] theorem setM_opa (v : Half) : (setM v s).opa = s.opa := rfl
@[simp] theorem setM_opb (v : Half) : (setM v s).opb = s.opb := rfl
@[simp] theorem setM_res (v : Half) : (setM v s).res = s.res := rfl
@[simp] theorem setM_lost (v : Half) : (setM v s).lost = s.lost := rfl
@[simp] theorem setM_errCode (v : Half) : (setM v s).errCode = s.errCode := rfl
@[simp] theorem setM_bsMode (v : Half) : (setM v s).bsMode = s.bsMode := rfl
@[simp] theorem setM_buf (v : Half) : (setM v s).buf = s.buf := rfl
@[simp] theorem setM_cnt (v : Half) : (setM v s).cnt = s.cnt := rfl
@[simp] theorem setM_eos (v : Half) : (setM v s).eos = s.eos := rfl
@[simp] theorem setM_byteCnt (v : Half) : (setM v s).byteCnt = s.byteCnt := rfl
@[simp] theorem setM_gM (v : Half) : (setM v s).gM = v := rfl
@[simp] theorem setM_gB (v : Half) : (setM v s).gB = BitVec.ofNat 5 (ceilLog2 v.toNat) := rfl
@[simp] theorem setM_gCutoff (v : Half) : (setM v s).gCutoff = BitVec.ofNat 16 (2 ^ ceilLog2 v.toNat - v.toNat) := rfl
@[simp] theorem setM_gMode (v : Half) : (setM v s).gMode = s.gMode := rfl
@[simp] theorem setM_prevL (v : Half) : (setM v s).prevL = s.prevL := rfl
@[simp] theorem setM_prevR (v : Half) : (setM v s).prevR = s.prevR := rfl
@[simp] theorem setM_sum (v : Half) : (setM v s).sum = s.sum := rfl
@[simp] theorem setM_count (v : Half) : (setM v s).count = s.count := rfl
@[simp] theorem setM_sinkBytes (v : Half) : (setM v s).sinkBytes = s.sinkBytes := rfl
@[simp] theorem setM_sinkAsked (v : Half) : (setM v s).sinkAsked = s.sinkAsked := rfl
@[simp] theorem setM_sinkPlan (v : Half) : (setM v s).sinkPlan = s.sinkPlan := rfl
@[simp] theorem setM_srcTape (v : Half) : (setM v s).srcTape = s.srcTape := rfl
@[simp] theorem setM_srcRest (v : Half) : (setM v s).srcRest = s.srcRest := rfl
@[simp] theorem setM_srcPos (v : Half) : (setM v s).srcPos = s.srcPos := rfl
@[simp] theorem setM_hostQueue (v : Half) : (setM v s).hostQueue = s.hostQueue := rfl
@[simp] theorem setM_hostReplies (v : Half) : (setM v s).hostReplies = s.hostReplies := rfl
@[simp] theorem setM_turns (v : Half) : (setM v s).turns = s.turns := rfl
@[simp] theorem setM_turnRest (v : Half) : (setM v s).turnRest = s.turnRest := rfl
@[simp] theorem setM_draws (v : Half) : (setM v s).draws = s.draws := rfl
@[simp] theorem setM_estRule (v : Half) : (setM v s).estRule = s.estRule := rfl

/-! ### Fault entry: `faultEntry` -/

@[simp] theorem faultEntry_cstate (e : ErrCode) : (faultEntry e s).cstate = .halted := by cases e <;> rfl
@[simp] theorem faultEntry_opa (e : ErrCode) : (faultEntry e s).opa = s.opa := by cases e <;> rfl
@[simp] theorem faultEntry_opb (e : ErrCode) : (faultEntry e s).opb = s.opb := by cases e <;> rfl
@[simp] theorem faultEntry_res (e : ErrCode) : (faultEntry e s).res = s.res := by cases e <;> rfl
@[simp] theorem faultEntry_lost (e : ErrCode) : (faultEntry e s).lost = s.lost := by cases e <;> rfl
@[simp] theorem faultEntry_errCode (e : ErrCode) : (faultEntry e s).errCode = e := by cases e <;> rfl
@[simp] theorem faultEntry_bsMode (e : ErrCode) : (faultEntry e s).bsMode = s.bsMode := by cases e <;> rfl
@[simp] theorem faultEntry_eos (e : ErrCode) : (faultEntry e s).eos = s.eos := by cases e <;> rfl
@[simp] theorem faultEntry_byteCnt (e : ErrCode) : (faultEntry e s).byteCnt = s.byteCnt := by cases e <;> rfl
@[simp] theorem faultEntry_gM (e : ErrCode) : (faultEntry e s).gM = s.gM := by cases e <;> rfl
@[simp] theorem faultEntry_gB (e : ErrCode) : (faultEntry e s).gB = s.gB := by cases e <;> rfl
@[simp] theorem faultEntry_gCutoff (e : ErrCode) : (faultEntry e s).gCutoff = s.gCutoff := by cases e <;> rfl
@[simp] theorem faultEntry_gMode (e : ErrCode) : (faultEntry e s).gMode = s.gMode := by cases e <;> rfl
@[simp] theorem faultEntry_prevL (e : ErrCode) : (faultEntry e s).prevL = s.prevL := by cases e <;> rfl
@[simp] theorem faultEntry_prevR (e : ErrCode) : (faultEntry e s).prevR = s.prevR := by cases e <;> rfl
@[simp] theorem faultEntry_sum (e : ErrCode) : (faultEntry e s).sum = s.sum := by cases e <;> rfl
@[simp] theorem faultEntry_count (e : ErrCode) : (faultEntry e s).count = s.count := by cases e <;> rfl
@[simp] theorem faultEntry_sinkBytes (e : ErrCode) : (faultEntry e s).sinkBytes = s.sinkBytes := by cases e <;> rfl
@[simp] theorem faultEntry_sinkAsked (e : ErrCode) : (faultEntry e s).sinkAsked = s.sinkAsked := by cases e <;> rfl
@[simp] theorem faultEntry_sinkPlan (e : ErrCode) : (faultEntry e s).sinkPlan = s.sinkPlan := by cases e <;> rfl
@[simp] theorem faultEntry_srcTape (e : ErrCode) : (faultEntry e s).srcTape = s.srcTape := by cases e <;> rfl
@[simp] theorem faultEntry_srcRest (e : ErrCode) : (faultEntry e s).srcRest = s.srcRest := by cases e <;> rfl
@[simp] theorem faultEntry_srcPos (e : ErrCode) : (faultEntry e s).srcPos = s.srcPos := by cases e <;> rfl
@[simp] theorem faultEntry_hostQueue (e : ErrCode) : (faultEntry e s).hostQueue = s.hostQueue := by cases e <;> rfl
@[simp] theorem faultEntry_hostReplies (e : ErrCode) : (faultEntry e s).hostReplies = s.hostReplies := by cases e <;> rfl
@[simp] theorem faultEntry_turns (e : ErrCode) : (faultEntry e s).turns = s.turns := by cases e <;> rfl
@[simp] theorem faultEntry_estRule (e : ErrCode) : (faultEntry e s).estRule = s.estRule := by cases e <;> rfl
@[simp] theorem faultEntry_turnRest (e : ErrCode) : (faultEntry e s).turnRest = s.turnRest := by cases e <;> rfl

/-- Outside IoError, fault entry leaves the bit buffer (R306). -/
theorem faultEntry_of_ne_ioError (e : ErrCode) (h : e ≠ .ioError) :
    faultEntry e s = { s with errCode := e, cstate := .halted } := by
  cases e <;> first | rfl | exact absurd rfl h

/-! ### Reset of the core: `resetCore` -/

@[simp] theorem resetCore_cstate : (resetCore s).cstate = State.reset.cstate := rfl
@[simp] theorem resetCore_opa : (resetCore s).opa = State.reset.opa := rfl
@[simp] theorem resetCore_opb : (resetCore s).opb = State.reset.opb := rfl
@[simp] theorem resetCore_res : (resetCore s).res = State.reset.res := rfl
@[simp] theorem resetCore_lost : (resetCore s).lost = State.reset.lost := rfl
@[simp] theorem resetCore_errCode : (resetCore s).errCode = State.reset.errCode := rfl
@[simp] theorem resetCore_bsMode : (resetCore s).bsMode = State.reset.bsMode := rfl
@[simp] theorem resetCore_buf : (resetCore s).buf = State.reset.buf := rfl
@[simp] theorem resetCore_cnt : (resetCore s).cnt = State.reset.cnt := rfl
@[simp] theorem resetCore_eos : (resetCore s).eos = State.reset.eos := rfl
@[simp] theorem resetCore_byteCnt : (resetCore s).byteCnt = State.reset.byteCnt := rfl
@[simp] theorem resetCore_gM : (resetCore s).gM = State.reset.gM := rfl
@[simp] theorem resetCore_gB : (resetCore s).gB = State.reset.gB := rfl
@[simp] theorem resetCore_gCutoff : (resetCore s).gCutoff = State.reset.gCutoff := rfl
@[simp] theorem resetCore_gMode : (resetCore s).gMode = State.reset.gMode := rfl
@[simp] theorem resetCore_prevL : (resetCore s).prevL = State.reset.prevL := rfl
@[simp] theorem resetCore_prevR : (resetCore s).prevR = State.reset.prevR := rfl
@[simp] theorem resetCore_sum : (resetCore s).sum = State.reset.sum := rfl
@[simp] theorem resetCore_count : (resetCore s).count = State.reset.count := rfl
@[simp] theorem resetCore_sinkBytes : (resetCore s).sinkBytes = s.sinkBytes := rfl
@[simp] theorem resetCore_sinkAsked : (resetCore s).sinkAsked = s.sinkAsked := rfl
@[simp] theorem resetCore_sinkPlan : (resetCore s).sinkPlan = s.sinkPlan := rfl
@[simp] theorem resetCore_srcTape : (resetCore s).srcTape = s.srcTape := rfl
@[simp] theorem resetCore_srcRest : (resetCore s).srcRest = s.srcRest := rfl
@[simp] theorem resetCore_srcPos : (resetCore s).srcPos = s.srcPos := rfl
@[simp] theorem resetCore_hostQueue : (resetCore s).hostQueue = s.hostQueue := rfl
@[simp] theorem resetCore_hostReplies : (resetCore s).hostReplies = s.hostReplies := rfl
@[simp] theorem resetCore_turns : (resetCore s).turns = s.turns := rfl
@[simp] theorem resetCore_turnRest : (resetCore s).turnRest = s.turnRest := rfl
@[simp] theorem resetCore_draws : (resetCore s).draws = s.draws := rfl
@[simp] theorem resetCore_estRule : (resetCore s).estRule = s.estRule := rfl

end Sys2Proof.Machine.Laws
end

