-- ==== Sys2Proof/Laws/Flow.lean ====
section
/-! SUPPORT. What the frame of a command and the sequencing of its parts can do, said once. -/

namespace Sys2Proof.Machine.Laws

@[simp] theorem andThen_done {α β : Type} (a : α) (s : State) (k : α → State → Flow β) :
    andThen (.done a s) k = k a s := rfl

@[simp] theorem andThen_raised {α β : Type} (e : ErrCode) (s : State) (k : α → State → Flow β) :
    andThen (.raised e s) k = .raised e s := rfl

@[simp] theorem andThen_running {α β : Type} (k : α → State → Flow β) : andThen .running k = .running := rfl

@[simp] theorem conclude_done (s₀ s : State) : conclude s₀ (.done () s) = .next (complete s) := rfl

@[simp] theorem conclude_raised (s₀ : State) (e : ErrCode) (s : State) :
    conclude s₀ (.raised e s) = .next (faultEntry e s) := rfl

@[simp] theorem conclude_running (s₀ : State) : conclude s₀ .running = .next s₀ := rfl

/-- A part that completes, completed its first part and then its second. -/
theorem andThen_eq_done {α β : Type} {f : Flow α} {k : α → State → Flow β} {b : β} {t : State}
    (h : andThen f k = .done b t) : ∃ a s, f = .done a s ∧ k a s = .done b t := by
  cases f with
  | done a s => exact ⟨a, s, rfl, h⟩
  | raised e s => cases h
  | running => cases h

/-- A part that raises an error raised it in its first part, or in its second. -/
theorem andThen_eq_raised {α β : Type} {f : Flow α} {k : α → State → Flow β} {e : ErrCode} {t : State}
    (h : andThen f k = .raised e t) : f = .raised e t ∨ ∃ a s, f = .done a s ∧ k a s = .raised e t := by
  cases f with
  | done a s => exact .inr ⟨a, s, rfl, h⟩
  | raised e' s => left; simpa using h
  | running => cases h

/-- A part that never ends did not end its first part, or its second. -/
theorem andThen_eq_running {α β : Type} {f : Flow α} {k : α → State → Flow β} (h : andThen f k = .running) :
    f = .running ∨ ∃ a s, f = .done a s ∧ k a s = .running := by
  cases f with
  | done a s => exact .inr ⟨a, s, rfl, h⟩
  | raised e s => cases h
  | running => exact .inl rfl

theorem modeAllows_none (s : State) : modeAllows none s = true := rfl

theorem modeAllows_some (m : BsMode) (s : State) : modeAllows (some m) s = decide (s.bsMode = m) := rfl

/-- A command that is not HALTED, in a BSMODE it allows, is its body (R310). -/
theorem command_of_allowed {need : Option BsMode} {body : State → Flow Unit} {s : State}
    (hs : s.cstate ≠ .halted) (hm : modeAllows need s = true) : command need body s = conclude s (body s) := by
  simp [command, hs, hm]

/-- In HALTED every command is dropped and sets LOST (R308, R310). -/
theorem command_of_halted {need : Option BsMode} {body : State → Flow Unit} {s : State}
    (hs : s.cstate = .halted) : command need body s = .next (markLost s) := by
  simp [command, hs]

/-- In a BSMODE it does not allow, a command is IllegalCommand (R304, R310). -/
theorem command_of_wrongMode {need : Option BsMode} {body : State → Flow Unit} {s : State}
    (hs : s.cstate ≠ .halted) (hm : modeAllows need s = false) :
    command need body s = .next (faultEntry .illegalCommand s) := by
  simp [command, hs, hm]

/-- Everything a command can do (R306, R310, R360): it is dropped, refused for its BSMODE, completes, faults, or
never ends. -/
theorem command_cases {need : Option BsMode} {body : State → Flow Unit} {s t : State}
    (h : command need body s = .next t) :
    (s.cstate = .halted ∧ t = markLost s) ∨
    (s.cstate ≠ .halted ∧ modeAllows need s = false ∧ t = faultEntry .illegalCommand s) ∨
    (s.cstate ≠ .halted ∧ modeAllows need s = true ∧ ∃ u, body s = .done () u ∧ t = complete u) ∨
    (s.cstate ≠ .halted ∧ modeAllows need s = true ∧ ∃ e u, body s = .raised e u ∧ t = faultEntry e u) ∨
    (s.cstate ≠ .halted ∧ modeAllows need s = true ∧ body s = .running ∧ t = s) := by
  by_cases hs : s.cstate = .halted
  · rw [command_of_halted hs] at h
    cases h
    exact .inl ⟨hs, rfl⟩
  · cases hm : modeAllows need s with
    | false =>
      rw [command_of_wrongMode hs hm] at h
      cases h
      exact .inr (.inl ⟨hs, rfl, rfl⟩)
    | true =>
      rw [command_of_allowed hs hm] at h
      cases hb : body s with
      | done a u =>
        rw [hb] at h
        cases h
        exact .inr (.inr (.inl ⟨hs, rfl, u, rfl, rfl⟩))
      | raised e u =>
        rw [hb] at h
        cases h
        exact .inr (.inr (.inr (.inl ⟨hs, rfl, e, u, rfl, rfl⟩)))
      | running =>
        rw [hb] at h
        cases h
        exact .inr (.inr (.inr (.inr ⟨hs, rfl, rfl, rfl⟩)))

/-- A command always gives a next state. -/
theorem command_next (need : Option BsMode) (body : State → Flow Unit) (s : State) :
    ∃ t, command need body s = .next t := by
  by_cases hs : s.cstate = .halted
  · exact ⟨_, command_of_halted hs⟩
  · cases hm : modeAllows need s with
    | false => exact ⟨_, command_of_wrongMode hs hm⟩
    | true =>
      rw [command_of_allowed hs hm]
      cases body s with
      | done a u => exact ⟨_, rfl⟩
      | raised e u => exact ⟨_, rfl⟩
      | running => exact ⟨_, rfl⟩

end Sys2Proof.Machine.Laws
end

