-- ==== Sys2Proof/Laws/Read.lean ====
section
/-! SUPPORT. What reading bits can do, said once: it returns the next unread bits, zero-padded past EOF, or
meets an IoErr of the source when they run out. -/

namespace Sys2Proof.Machine.Laws

/-- `t` is `s` with `n` bits read: nothing but BUF, CNT, EOS, BYTECNT and the source's position changed. -/
structure Took (n : Nat) (s t : State) : Prop where
  frame : t = { s with buf := t.buf, cnt := t.cnt, eos := t.eos, byteCnt := t.byteCnt, srcPos := t.srcPos }
  unread : unreadBits t = (available n s).drop n
  eos : t.eos = (s.eos || decide ((available n s).length < n))
  fails : sourceFails t = (sourceFails s && decide (n ≤ (unreadBits s).length))
  endless : sourceEndless t = sourceEndless s
  moved : ∃ k, t.byteCnt = s.byteCnt + BitVec.ofNat 64 k ∧
    8 * k + s.cnt.toNat = min n (available n s).length + t.cnt.toNat ∧
    t.srcPos = s.srcPos + k + (!s.eos && decide ((available n s).length < n)).toNat ∧
    (t.buf = if k = 0 then s.buf else (suppliedBytes (pendingAnswers s)).getD (k - 1) 0#8) ∧
    (t.eos = false → suppliedBytes (pendingAnswers t) = (suppliedBytes (pendingAnswers s)).drop k)

theorem Took.readBits {n : Nat} {s t : State} (h : Took n s t) : ReadBits n s t := by
  obtain ⟨k, h1, h2, h3, h4, -⟩ := h.moved
  exact ⟨h.unread, h.eos, k, h1, h2, h3, h4⟩

/-- `t` is `s` after every bit it had was read and the source answered IoErr. -/
abbrev SourceFailed (s t : State) : Prop :=
  t = { s with buf := t.buf, cnt := t.cnt, byteCnt := t.byteCnt, srcPos := t.srcPos } ∧
  ∃ k, t.byteCnt = s.byteCnt + BitVec.ofNat 64 k ∧ 8 * k + s.cnt.toNat = (unreadBits s).length ∧
    t.srcPos = s.srcPos + k + 1

theorem unreadBits_length_le (s : State) :
    (unreadBits s).length ≤ s.cnt.toNat + 8 * (pendingAnswers s).length := by
  have h : ∀ as : List SourceAnswer, (suppliedBytes as).length ≤ as.length := by
    intro as
    induction as with
    | nil => simp [suppliedBytes]
    | cons a as ih => cases a <;> simp [suppliedBytes, ih]
  have h1 := h (pendingAnswers s)
  unfold unreadBits
  split
  · simp
  · simp only [List.length_append, bufferedBits_length, flatMap_byteBits_length]
    omega

theorem cnt_le_unreadBits (s : State) : s.cnt.toNat ≤ (unreadBits s).length := by simp [unreadBits]

/-! ### What is available to a reader -/

theorem available_of_finite {n : Nat} {s : State} (h : sourceEndless s = false) : available n s = unreadBits s := by
  simp [available, h]

theorem available_of_le {n : Nat} {s : State} (h : n ≤ (unreadBits s).length) : available n s = unreadBits s := by
  have : 8 * ((n - (unreadBits s).length + 7) / 8) = 0 := by omega
  simp [available, this]

theorem available_zero (s : State) : available 0 s = unreadBits s := available_of_le (Nat.zero_le _)

theorem available_length (n : Nat) (s : State) :
    (available n s).length = (unreadBits s).length +
      if sourceEndless s then 8 * ((n - (unreadBits s).length + 7) / 8) else 0 := by simp [available]

theorem le_available_length {n : Nat} {s : State} (h : sourceEndless s = true) : n ≤ (available n s).length := by
  rw [available_length, h, if_pos rfl]
  omega

theorem unreadBits_length_le_available (n : Nat) (s : State) : (unreadBits s).length ≤ (available n s).length := by
  rw [available_length]
  omega

theorem paddedTake_append_zeros (n z : Nat) (bits : List Bool) :
    paddedTake n (bits ++ List.replicate z false) = paddedTake n bits := by
  unfold paddedTake
  rw [List.append_assoc, List.replicate_append_replicate, List.take_append, List.take_append, List.take_replicate,
    List.take_replicate]
  congr 2
  omega

/-- Reading past the unread bits reads zeros, of the source or of the padding. -/
theorem paddedTake_available (n : Nat) (s : State) : paddedTake n (available n s) = paddedTake n (unreadBits s) :=
  paddedTake_append_zeros _ _ _

theorem endsInIoErr_of_onlyBytes {as : List SourceAnswer} (h : onlyBytes as = true) : endsInIoErr as = false := by
  induction as with
  | nil => rfl
  | cons a as ih => cases a <;> simp_all [onlyBytes, endsInIoErr]

theorem not_sourceFails_of_endless {s : State} (h : sourceEndless s = true) : sourceFails s = false := by
  simp only [sourceEndless, Bool.and_eq_true] at h
  simp [sourceFails, endsInIoErr_of_onlyBytes h.1.2]

/-! ### Reading some bits and then others -/

theorem took_refl (s : State) : Took 0 s s :=
  ⟨rfl, by simp [available_zero], by simp, by simp, rfl, 0, by simp, by simp, by simp, by simp, by simp⟩

/-- What is left of the bits that `n + m` bits take is what `m` bits take of the rest. -/
theorem Took.available {n m : Nat} {s t : State} (h : Took n s t) :
    Machine.available m t = (Machine.available (n + m) s).drop n ∧
      (Machine.available m t).length = (Machine.available (n + m) s).length - n := by
  have hl : (unreadBits t).length = (Machine.available n s).length - n := by rw [h.unread, List.length_drop]
  have key : Machine.available m t = (Machine.available (n + m) s).drop n := by
    cases he : sourceEndless s with
    | false =>
      have he' : sourceEndless t = false := h.endless.trans he
      rw [available_of_finite he', available_of_finite he, h.unread, available_of_finite he]
    | true =>
      have he' : sourceEndless t = true := h.endless.trans he
      have hn := le_available_length (n := n) he
      have hlen := available_length n s
      rw [he, if_pos rfl] at hlen
      rw [Machine.available, he', if_pos rfl, hl, h.unread, ← List.drop_append_of_le_length hn, hlen]
      congr 1
      rw [Machine.available, Machine.available, he, if_pos rfl, if_pos rfl, List.append_assoc,
        List.replicate_append_replicate]
      congr 2
      omega
  exact ⟨key, by rw [key, List.length_drop]⟩

/-- A reader that has met EOF takes no more bytes. -/
theorem no_bytes_after_eos {m k : Nat} {t u : State} (h : t.eos = true)
    (hk : 8 * k + t.cnt.toNat = min m (available m t).length + u.cnt.toNat) : k = 0 := by
  have hf : sourceEndless t = false := by simp [sourceEndless, h]
  have hu : (unreadBits t).length = t.cnt.toNat := by simp [unreadBits, h]
  rw [available_of_finite hf, hu] at hk
  have := cnt_lt u
  omega

theorem Took.trans {n m : Nat} {s t u : State} (h1 : Took n s t) (h2 : Took m t u) : Took (n + m) s u := by
  obtain ⟨ha, hl⟩ := h1.available (m := m)
  have hln : (unreadBits t).length = (Machine.available n s).length - n := by rw [h1.unread, List.length_drop]
  have hmono : (Machine.available n s).length ≤ (Machine.available (n + m) s).length := by
    rw [available_length, available_length]
    split <;> omega
  have hfin : (Machine.available n s).length < n →
      (Machine.available (n + m) s).length = (Machine.available n s).length := by
    intro hlt
    cases he : sourceEndless s with
    | true => have := le_available_length (n := n) he; omega
    | false => rw [available_of_finite he, available_of_finite he]
  have hge : (Machine.available (n + m) s).length < n → (Machine.available n s).length < n := by omega
  have hf : sourceFails s = true → Machine.available n s = unreadBits s := fun hf => by
    refine available_of_finite ?_
    by_contra he
    rw [Bool.not_eq_false] at he
    rw [not_sourceFails_of_endless he] at hf
    cases hf
  obtain ⟨k1, c1, a1, p1, b1, d1⟩ := h1.moved
  obtain ⟨k2, c2, a2, p2, b2, d2⟩ := h2.moved
  have heos : u.eos = (s.eos || decide ((Machine.available (n + m) s).length < n + m)) := by
    rw [h2.eos, h1.eos, hl, Bool.or_assoc]
    congr 1
    by_cases hn : (Machine.available n s).length < n
    · have := hfin hn
      simp only [hn, decide_true, Bool.true_or]
      symm
      simp only [decide_eq_true_eq]
      omega
    · simp only [hn, decide_false, Bool.false_or, decide_eq_decide]
      omega
  refine ⟨by rw [h2.frame, h1.frame], by rw [h2.unread, ha, List.drop_drop], heos, ?_, h2.endless.trans h1.endless,
    k1 + k2, ?_, ?_, ?_, ?_, fun hu => ?_⟩
  · rw [h2.fails, h1.fails, hln, Bool.and_assoc]
    cases hs : sourceFails s with
    | false => rfl
    | true =>
      rw [hf hs, Bool.true_and, Bool.true_and]
      by_cases hn : n ≤ (unreadBits s).length
      · simp only [hn, decide_true, Bool.true_and, decide_eq_decide]; omega
      · simp [hn]; omega
  · rw [c2, c1, BitVec.add_assoc, ← BitVec.ofNat_add]
  · rw [hl] at a2
    by_cases hn : (Machine.available n s).length < n
    · have := hfin hn
      omega
    · omega
  · rw [p2, p1, h1.eos, hl]
    cases s.eos with
    | true => simp; omega
    | false =>
      by_cases hn : (Machine.available n s).length < n
      · have h' := hfin hn
        have : (Machine.available (n + m) s).length < n + m := by omega
        simp [hn, this]; omega
      · have : ((Machine.available (n + m) s).length - n < m) = ((Machine.available (n + m) s).length < n + m) := by
          apply propext; omega
        simp [hn, this]; omega
  · cases ht : t.eos with
    | true =>
      rw [no_bytes_after_eos ht a2] at b2 ⊢
      rw [b2, if_pos rfl, b1, Nat.add_zero]
    | false =>
      rw [b2, d1 ht]
      by_cases h0 : k2 = 0
      · rw [h0, if_pos rfl, b1, Nat.add_zero]
      · rw [if_neg h0, if_neg (by omega), List.getD_eq_getElem?_getD, List.getD_eq_getElem?_getD, List.getElem?_drop]
        congr 2
        omega
  · have ht : t.eos = false := by
      have hte := h2.eos
      rw [hu] at hte
      cases h : t.eos with
      | false => rfl
      | true => rw [h] at hte; simp at hte
    rw [d2 hu, d1 ht, List.drop_drop]

/-- Reading on after bits that were there, up to an IoErr. -/
theorem Took.sourceFailed {n : Nat} {s t u : State} (h1 : Took n s t) (hn : n ≤ (unreadBits s).length)
    (h2 : SourceFailed t u) : SourceFailed s u := by
  have hav := available_of_le hn
  obtain ⟨k1, c1, a1, p1, -⟩ := h1.moved
  obtain ⟨e2, k2, c2, a2, p2⟩ := h2
  rw [hav] at a1 p1
  have hl : (unreadBits t).length = (unreadBits s).length - n := by rw [h1.unread, hav, List.length_drop]
  have hnl : ¬(unreadBits s).length < n := by omega
  have ho : t.eos = s.eos := by simp [h1.eos, hav, hnl]
  simp only [hnl, decide_false, Bool.and_false, Bool.toNat_false] at p1
  refine ⟨?_, k1 + k2, ?_, by omega, by omega⟩
  · rw [e2, h1.frame]
    simp only [ho]
  · rw [c2, c1, BitVec.add_assoc, ← BitVec.ofNat_add]

/-! ### One bit -/

theorem bufferedBits_of_cnt_zero {s : State} (h : s.cnt = 0#3) : bufferedBits s = [] := by
  simp [bufferedBits, h]

theorem cnt_sub_one {s : State} (h : s.cnt ≠ 0#3) : (s.cnt - 1#3).toNat = s.cnt.toNat - 1 := by
  have := cnt_lt s
  have h0 : s.cnt.toNat ≠ 0 := fun h' => h (BitVec.eq_of_toNat_eq h')
  rw [BitVec.toNat_sub]
  simp
  omega

theorem bufferedBits_succ {s : State} (h : s.cnt ≠ 0#3) :
    bufferedBits s =
      s.buf.getLsbD (s.cnt.toNat - 1) :: bufferedBits (setBitBuffer s.buf (s.cnt - 1#3) s) := by
  have h0 : s.cnt.toNat ≠ 0 := fun h' => h (BitVec.eq_of_toNat_eq h')
  obtain ⟨c, hc⟩ := Nat.exists_eq_succ_of_ne_zero h0
  simp only [bufferedBits, setBitBuffer_buf, setBitBuffer_cnt, cnt_sub_one h, hc, List.range_succ_eq_map,
    List.map_cons, List.map_map, Nat.succ_eq_add_one, Nat.add_sub_cancel, Nat.sub_zero]
  congr 1
  apply List.map_congr_left
  intro i _
  simp only [Function.comp]
  congr 1
  omega

theorem byteBits_cons (v : Byte) (s : State) :
    byteBits v = v.getLsbD 7 :: bufferedBits (setBitBuffer v 7#3 s) := by
  simp [byteBits, bufferedBits, List.range_succ]

theorem pendingAnswers_next {s t : State} {a : SourceAnswer} {as : List SourceAnswer}
    (h : pendingAnswers s = a :: as) (ht : t.srcTape = s.srcTape) (hr : t.srcRest = s.srcRest)
    (hp : t.srcPos = s.srcPos + 1) : pendingAnswers t = as := by
  have h' := congrArg (List.drop 1) h
  simpa [pendingAnswers, tailAnswers, ht, hr, hp, List.drop_drop] using h'

theorem pendingAnswers_end {s t : State} (h : pendingAnswers s = []) (ht : t.srcTape = s.srcTape)
    (hr : t.srcRest = s.srcRest) (hp : t.srcPos = s.srcPos + 1) : pendingAnswers t = [] := by
  have h' := congrArg (List.drop 1) h
  simpa [pendingAnswers, tailAnswers, ht, hr, hp, List.drop_drop] using h'

theorem unreadBits_of_eos {t : State} (hc : t.cnt = 0#3) (he : t.eos = true) :
    unreadBits t = [] ∧ sourceFails t = false ∧ sourceEndless t = false := by
  simp [unreadBits, sourceFails, sourceEndless, bufferedBits_of_cnt_zero hc, he]

theorem unreadBits_of_not_eos {t : State} {as : List SourceAnswer} (he : t.eos = false)
    (hp : pendingAnswers t = as) :
    unreadBits t = bufferedBits t ++ (suppliedBytes as).flatMap byteBits ∧ sourceFails t = endsInIoErr as ∧
      sourceEndless t = (onlyBytes as && zerosForever t) := by
  simp [unreadBits, sourceFails, sourceEndless, he, hp]

/-- EOF, met by a reader without a buffered bit: the state after it has EOS set. -/
theorem took_eof {s t : State} (hu : unreadBits s = []) (hf : sourceFails s = false) (hn : sourceEndless s = false)
    (hc : t.cnt = 0#3) (he : t.eos = true) (hb : t.buf = s.buf) (hy : t.byteCnt = s.byteCnt)
    (hp : t.srcPos = s.srcPos + (!s.eos).toNat) (hs0 : s.cnt = 0#3)
    (hfr : t = { s with buf := t.buf, cnt := t.cnt, eos := t.eos, byteCnt := t.byteCnt, srcPos := t.srcPos }) :
    Took 1 s t := by
  obtain ⟨h1, h2, h3⟩ := unreadBits_of_eos hc he
  have hav : available 1 s = [] := by rw [available_of_finite hn, hu]
  refine ⟨hfr, by rw [h1, hav]; rfl, by simp [he, hav], by rw [h2, hf]; rfl, by rw [h3, hn], 0, by simp [hy], ?_, ?_,
    by simp [hb], by simp [he]⟩
  · simp [hav, hc, hs0]
  · simp [hav, hp]

/-- A byte of the source, taken by a reader without a buffered bit: its first bit is returned. -/
theorem took_byte {s t : State} {v : Byte} {rest : List Bool} (hav : available 1 s = v.getLsbD 7 :: rest)
    (hu : unreadBits t = rest) (he : t.eos = false) (hse : s.eos = false) (hf : sourceFails t = sourceFails s)
    (hfs : sourceFails s = true → 1 ≤ (unreadBits s).length) (hn : sourceEndless t = sourceEndless s)
    (hc : t.cnt = 7#3) (hs0 : s.cnt = 0#3) (hb : t.buf = v) (hy : t.byteCnt = s.byteCnt + 1#64)
    (hp : t.srcPos = s.srcPos + 1) (hv : (suppliedBytes (pendingAnswers s)).getD 0 0#8 = v)
    (hd : suppliedBytes (pendingAnswers t) = (suppliedBytes (pendingAnswers s)).drop 1)
    (hfr : t = { s with buf := t.buf, cnt := t.cnt, eos := t.eos, byteCnt := t.byteCnt, srcPos := t.srcPos }) :
    Took 1 s t := by
  refine ⟨hfr, by rw [hu, hav]; rfl, by simp [he, hse, hav], ?_, hn, 1, hy, ?_, ?_, ?_, fun _ => hd⟩
  · rw [hf]
    cases hs : sourceFails s with
    | false => rfl
    | true => simp [hfs hs]
  · simp [hav, hc, hs0]
  · simp [hav, hp]
  · simp only [Nat.one_ne_zero, if_false, Nat.sub_self]
    rw [hb, hv]

/-- Everything `GetBit` can do (R142). -/
theorem getBit_cases (s : State) :
    (∃ b rest t, available 1 s = b :: rest ∧ getBit s = .done (some b) t ∧ Took 1 s t) ∨
    (∃ t, unreadBits s = [] ∧ sourceFails s = false ∧ sourceEndless s = false ∧ getBit s = .done none t ∧ Took 1 s t) ∨
    (∃ t, unreadBits s = [] ∧ sourceFails s = true ∧ getBit s = .raised .ioError t ∧ SourceFailed s t) := by
  unfold getBit
  by_cases hc : s.cnt = 0#3
  · have hb := bufferedBits_of_cnt_zero hc
    have hc0 : s.cnt.toNat = 0 := by rw [hc]; rfl
    rw [if_pos hc]
    cases he : s.eos with
    | true =>
      obtain ⟨hu, hf, hn⟩ := unreadBits_of_eos hc he
      exact .inr (.inl ⟨s, hu, hf, hn, rfl, took_eof hu hf hn hc he rfl rfl (by simp [he]) hc rfl⟩)
    | false =>
      obtain ⟨hu, hf, hn⟩ := unreadBits_of_not_eos he (rfl : pendingAnswers s = _)
      rw [hb, List.nil_append] at hu
      rw [if_neg (by simp)]
      cases hp : pendingAnswers s with
      | nil =>
        rw [hp] at hu hf hn
        cases hz : zerosForever s with
        | false =>
          rw [hz] at hn
          simp only [getByte, sourceAnswer, hp, hz, andThen_done, Bool.false_eq_true, if_false]
          exact .inr (.inl ⟨_, hu, hf, hn, rfl,
            took_eof hu hf hn (by exact hc) rfl rfl rfl (by simp [he]) hc rfl⟩)
        | true =>
          rw [hz] at hn
          have hn' : sourceEndless s = true := hn
          have hu' : unreadBits s = [] := hu
          have hav : available 1 s = (0#8).getLsbD 7 :: List.replicate 7 false := by
            simp [available, hu', hn', List.replicate]
          simp only [getByte, sourceAnswer, hp, hz, andThen_done, if_true]
          have hpt := pendingAnswers_end
            (t := setBitBuffer 0#8 7#3 { s with srcPos := s.srcPos + 1, byteCnt := s.byteCnt + 1#64 }) hp rfl rfl rfl
          obtain ⟨ht1, ht2, ht3⟩ := unreadBits_of_not_eos (by exact he) hpt
          refine .inl ⟨_, _, _, hav, rfl, took_byte hav ?_ (by exact he) he ?_ ?_ ?_ rfl hc rfl rfl rfl ?_ ?_ rfl⟩
          · exact ht1.trans (by simp [bufferedBits, suppliedBytes, List.range_succ])
          · exact ht2.trans hf.symm
          · intro h; rw [hf] at h; cases h
          · exact ht3.trans (by rw [hn']; exact hz)
          · rw [hp]; rfl
          · rw [hpt, hp]; rfl
      | cons a as =>
        cases a with
        | byte v =>
          have hpt := pendingAnswers_next
            (t := setBitBuffer v 7#3 { s with srcPos := s.srcPos + 1, byteCnt := s.byteCnt + 1#64 }) hp rfl rfl rfl
          obtain ⟨ht1, ht2, ht3⟩ := unreadBits_of_not_eos (by exact he) hpt
          have hu' : unreadBits s =
              v.getLsbD 7 :: (bufferedBits (setBitBuffer v 7#3 s) ++ (suppliedBytes as).flatMap byteBits) := by
            rw [hu, hp, suppliedBytes, List.flatMap_cons, byteBits_cons v s, List.cons_append]
          have h1 : 1 ≤ (unreadBits s).length := by simp [hu']
          have hav := (available_of_le h1).trans hu'
          simp only [getByte, sourceAnswer, hp, andThen_done]
          refine .inl ⟨_, _, _, hav, rfl, took_byte hav ht1 (by exact he) he ?_ (fun _ => h1) ?_ rfl hc rfl rfl rfl ?_ ?_ rfl⟩
          · rw [hf, hp]; exact ht2
          · rw [hn, hp]; exact ht3
          · rw [hp]; rfl
          · rw [hpt, hp]; rfl
        | eof =>
          rw [hp] at hu hf hn
          simp only [getByte, sourceAnswer, hp, andThen_done]
          exact .inr (.inl ⟨_, hu, hf, hn, rfl,
            took_eof hu hf hn (by exact hc) rfl rfl rfl (by simp [he]) hc rfl⟩)
        | ioErr =>
          rw [hp] at hu hf
          have hu' : unreadBits s = [] := hu
          simp only [getByte, sourceAnswer, hp, andThen_raised]
          exact .inr (.inr ⟨_, hu, hf, rfl, rfl, 0, by simp, by simp [hu', hc0], rfl⟩)
  · have h0 : s.cnt.toNat ≠ 0 := fun h' => hc (BitVec.eq_of_toNat_eq h')
    have hu : unreadBits s = s.buf.getLsbD (s.cnt.toNat - 1) :: unreadBits (setBitBuffer s.buf (s.cnt - 1#3) s) := by
      rw [unreadBits, bufferedBits_succ hc]; rfl
    have hav : available 1 s = _ := (available_of_le (by simp [hu])).trans hu
    rw [if_neg hc]
    refine .inl ⟨_, _, _, hav, rfl, rfl, ?_, ?_, ?_, rfl, 0, by simp, ?_, ?_, by simp, fun _ => rfl⟩
    · rw [hav]; rfl
    · rw [hav]; simp
    · rw [hu]; simp [sourceFails, pendingAnswers, tailAnswers]
    · rw [hav]; simp only [setBitBuffer_cnt, cnt_sub_one hc, List.length_cons]; omega
    · rw [hav]; simp

/-- With a bit unread, `GetBit` returns it. -/
theorem getBit_of_cons {b : Bool} {rest : List Bool} {s : State} (hu : unreadBits s = b :: rest) :
    ∃ t, getBit s = .done (some b) t ∧ Took 1 s t ∧ unreadBits t = rest ∧ sourceFails t = sourceFails s := by
  have hav := available_of_le (n := 1) (s := s) (by simp [hu])
  rw [hu] at hav
  rcases getBit_cases s with ⟨b', r', t, h1, h2, h3⟩ | ⟨t, h1, _⟩ | ⟨t, h1, _⟩
  · rw [hav] at h1
    cases h1
    exact ⟨t, h2, h3, by rw [h3.unread, hav]; rfl, by rw [h3.fails, hu]; simp⟩
  · rw [hu] at h1; cases h1
  · rw [hu] at h1; cases h1

/-! ### Fields -/

theorem getFieldFrom_spec (n : Nat) (v : Nat) (s : State) :
    (CanRead n s → ∃ t,
      getFieldFrom v n s = .done (v * 2 ^ n + bitsValue (paddedTake n (unreadBits s))) t ∧ Took n s t) ∧
    (¬CanRead n s → ∃ t, getFieldFrom v n s = .raised .ioError t ∧ SourceFailed s t) := by
  induction n generalizing v s with
  | zero =>
    exact ⟨fun _ => ⟨s, by simp [getFieldFrom, bitsValue], took_refl s⟩, fun h => absurd (.inl (Nat.zero_le _)) h⟩
  | succ n ih =>
    rw [getFieldFrom]
    rcases getBit_cases s with ⟨b, rest, t, hu, hg, ht⟩ | ⟨t, hu, hf, hn, hg, ht⟩ | ⟨t, hu, hf, hg, ht⟩
    · have hav : available (n + 1) s = b :: available n t := by
        have h := ht.available (m := n)
        rw [Nat.add_comm] at h
        have hu1 : (available (n + 1) s).take 1 = [b] := by
          have h1 : (available (n + 1) s).take 1 = (available 1 s).take 1 := by
            cases hs : unreadBits s with
            | cons c cs => simp [available, hs]
            | nil =>
              cases he : sourceEndless s with
              | false => rw [available_of_finite he, available_of_finite he]
              | true =>
                simp only [available, hs, he, if_true, List.nil_append, List.take_replicate, List.length_nil]
                congr 1
                omega
          rw [h1, hu]; rfl
        rw [h.1, ← List.take_append_drop 1 (available (n + 1) s), hu1]
        simp
      have hcr : CanRead n t ↔ CanRead (n + 1) s := by
        cases hs : unreadBits s with
        | cons c cs =>
          have h1 := available_of_le (n := 1) (s := s) (by simp [hs])
          have h2 : unreadBits t = cs := by rw [ht.unread, h1, hs]; rfl
          have h3 : sourceFails t = sourceFails s := by rw [ht.fails, hs]; simp
          simp [CanRead, h2, h3, hs]
        | nil =>
          have he : sourceEndless s = true := by
            by_contra he
            rw [Bool.not_eq_true] at he
            rw [available_of_finite he, hs] at hu
            cases hu
          have h1 := not_sourceFails_of_endless he
          have h2 := not_sourceFails_of_endless (ht.endless.trans he)
          simp [CanRead, h1, h2]
      rw [hg, andThen_done]
      constructor
      · intro h
        obtain ⟨u, hu', hw⟩ := (ih (2 * v + b.toNat) t).1 (hcr.2 h)
        refine ⟨u, ?_, by rw [Nat.add_comm]; exact ht.trans hw⟩
        rw [← paddedTake_available (n + 1) s, hav]
        simp only [Option.getD_some, hu', paddedTake_cons, paddedTake_available, bitsValue_cons, paddedTake_length]
        congr 1
        ring
      · intro h
        obtain ⟨u, hu', hw⟩ := (ih (2 * v + b.toNat) t).2 fun hc => h (hcr.1 hc)
        refine ⟨u, hu', ht.sourceFailed ?_ hw⟩
        have hfail : sourceFails s = true := by
          by_contra hc
          exact h (.inr (by simpa using hc))
        have hfin : sourceEndless s = false := by
          by_contra he
          rw [Bool.not_eq_false] at he
          rw [not_sourceFails_of_endless he] at hfail
          cases hfail
        rw [available_of_finite hfin] at hu
        simp [hu]
    · have hut : unreadBits t = [] := by rw [ht.unread, available_of_finite hn, hu]; rfl
      have hft : sourceFails t = false := by rw [ht.fails, hf]; rfl
      rw [hg, andThen_done]
      refine ⟨fun _ => ?_, fun h => absurd (.inr hf) h⟩
      obtain ⟨u, hu', hw⟩ := (ih (2 * v + (none.getD false).toNat) t).1 (.inr hft)
      refine ⟨u, ?_, by rw [Nat.add_comm]; exact ht.trans hw⟩
      simp only [hu', hut, hu, paddedTake_nil, List.replicate_succ, bitsValue_cons, List.length_replicate]
      congr 1
      simp
      ring
    · rw [hg, andThen_raised]
      refine ⟨fun h => ?_, fun _ => ⟨t, rfl, ht⟩⟩
      simp [CanRead, hu, hf] at h

/-- Everything `GetField` can do (R143). -/
theorem getField_spec (n : Nat) (s : State) :
    (CanRead n s → ∃ t, getField n s = .done (bitsValue (paddedTake n (unreadBits s))) t ∧ Took n s t) ∧
    (¬CanRead n s → ∃ t, getField n s = .raised .ioError t ∧ SourceFailed s t) := by
  simpa [getField] using getFieldFrom_spec n 0 s

/-! ### Unary codes -/

theorem getUnaryFrom_one (q : Nat) (fuel k : Nat) (s : State) (rest : List Bool) (hf : q < fuel)
    (hu : unreadBits s = List.replicate q false ++ true :: rest) :
    ∃ t, getUnaryFrom fuel k s = .done (k + q) t ∧ Took (q + 1) s t := by
  induction q generalizing fuel k s with
  | zero =>
    obtain ⟨fuel, rfl⟩ := Nat.exists_eq_succ_of_ne_zero (Nat.ne_of_gt hf)
    obtain ⟨t, hg, ht, -⟩ := getBit_of_cons (b := true) (rest := rest) (by simpa using hu)
    exact ⟨t, by simp [getUnaryFrom, hg], ht⟩
  | succ q ih =>
    obtain ⟨fuel, rfl⟩ := Nat.exists_eq_succ_of_ne_zero (Nat.ne_of_gt (Nat.zero_lt_of_lt hf))
    obtain ⟨t, hg, ht, hut, -⟩ := getBit_of_cons hu
    obtain ⟨u, hg', hw⟩ := ih fuel (k + 1) t (by omega) hut
    refine ⟨u, ?_, by rw [Nat.add_comm (q + 1)]; exact ht.trans hw⟩
    simp only [getUnaryFrom, hg, andThen_done, hg']
    congr 1
    omega

theorem getUnaryFrom_zeros (q : Nat) (fuel k : Nat) (s : State) (hf : q < fuel)
    (hu : unreadBits s = List.replicate q false) :
    (sourceFails s = false → sourceEndless s = false →
      ∃ t, getUnaryFrom fuel k s = .raised .unexpectedEndOfStream t ∧ Took (q + 1) s t) ∧
    (sourceFails s = true → ∃ t, getUnaryFrom fuel k s = .raised .ioError t ∧ SourceFailed s t) := by
  induction q generalizing fuel k s with
  | zero =>
    obtain ⟨fuel, rfl⟩ := Nat.exists_eq_succ_of_ne_zero (Nat.ne_of_gt hf)
    rcases getBit_cases s with ⟨b, rest', t, hu', -⟩ | ⟨t, -, hs, hn, hg, ht⟩ | ⟨t, -, hs, hg, ht⟩
    · have he : sourceEndless s = true := by
        by_contra he
        rw [Bool.not_eq_true] at he
        rw [available_of_finite he, hu] at hu'
        cases hu'
      have hf' := not_sourceFails_of_endless he
      exact ⟨fun _ h => by simp [he] at h, fun h => by simp [hf'] at h⟩
    · exact ⟨fun _ _ => ⟨t, by simp [getUnaryFrom, hg], ht⟩, fun h => by simp [hs] at h⟩
    · exact ⟨fun h => by simp [hs] at h, fun _ => ⟨t, by simp [getUnaryFrom, hg], ht⟩⟩
  | succ q ih =>
    obtain ⟨fuel, rfl⟩ := Nat.exists_eq_succ_of_ne_zero (Nat.ne_of_gt (Nat.zero_lt_of_lt hf))
    obtain ⟨t, hg, ht, hut, hft⟩ := getBit_of_cons (by rw [hu, List.replicate_succ] : unreadBits s = false :: _)
    obtain ⟨h1, h2⟩ := ih fuel (k + 1) t (by omega) hut
    simp only [getUnaryFrom, hg, andThen_done]
    constructor
    · intro h hn
      obtain ⟨u, hg', hw⟩ := h1 (by rw [hft, h]) (by rw [ht.endless, hn])
      exact ⟨u, hg', by rw [Nat.add_comm (q + 1)]; exact ht.trans hw⟩
    · intro h
      obtain ⟨u, hg', hw⟩ := h2 (by rw [hft, h])
      exact ⟨u, hg', ht.sourceFailed (by simp [hu]) hw⟩

/-- On endless zero bits the loop of `GetUnary` does not end (R360). -/
theorem getUnaryFrom_endless (fuel : Nat) (q k : Nat) (s : State) (he : sourceEndless s = true)
    (hu : unreadBits s = List.replicate q false) : getUnaryFrom fuel k s = .running := by
  induction fuel generalizing q k s with
  | zero => rfl
  | succ fuel ih =>
    have hz : available 1 s = List.replicate (available 1 s).length false := by
      conv_lhs => rw [available, hu, List.replicate_append_replicate]
      rw [available_length, hu, List.length_replicate]
    rcases getBit_cases s with ⟨b, rest, t, hav, hg, ht⟩ | ⟨t, -, -, hn, -⟩ | ⟨t, -, hf, -⟩
    · rw [hav, List.length_cons, List.replicate_succ] at hz
      obtain ⟨rfl, hr⟩ : b = false ∧ rest = List.replicate rest.length false := by
        injection hz with h1 h2
        exact ⟨h1, h2⟩
      simp only [getUnaryFrom, hg, andThen_done]
      exact ih rest.length (k + 1) t (by rw [ht.endless, he]) (by rw [ht.unread, hav]; exact hr)
    · rw [he] at hn; cases hn
    · rw [not_sourceFails_of_endless he] at hf; cases hf

theorem length_lt_unaryBound (s : State) : (unreadBits s).length < unaryBound s := by
  have := unreadBits_length_le s
  unfold unaryBound
  omega

/-- `GetUnary` on bits that hold a one bit (R172). -/
theorem getUnary_one {q : Nat} {s : State} {rest : List Bool} (hu : unreadBits s = unaryBits q ++ rest) :
    ∃ t, getUnary s = .done q t ∧ Took (q + 1) s t := by
  have hl := length_lt_unaryBound s
  simp only [hu, unaryBits, List.length_append, List.length_replicate] at hl
  obtain ⟨t, h1, h2⟩ := getUnaryFrom_one q (unaryBound s) 0 s rest (by omega) (by simpa [unaryBits] using hu)
  exact ⟨t, by simpa [getUnary] using h1, h2⟩

/-- `GetUnary` on bits that are all zero (R172, R360): EOF inside the run, an IoErr, or zero bits for ever. -/
theorem getUnary_zeros {q : Nat} {s : State} (hu : unreadBits s = List.replicate q false) :
    (sourceFails s = false → sourceEndless s = false →
      ∃ t, getUnary s = .raised .unexpectedEndOfStream t ∧ Took (q + 1) s t) ∧
    (sourceFails s = true → ∃ t, getUnary s = .raised .ioError t ∧ SourceFailed s t) ∧
    (sourceEndless s = true → getUnary s = .running) := by
  have hl := length_lt_unaryBound s
  rw [hu, List.length_replicate] at hl
  obtain ⟨h1, h2⟩ := getUnaryFrom_zeros q (unaryBound s) 0 s hl hu
  exact ⟨h1, h2, fun he => getUnaryFrom_endless _ q 0 s he hu⟩

/-- Bits are all zero, or hold a first one bit. -/
theorem zeros_or_one (bits : List Bool) :
    bits = List.replicate bits.length false ∨ ∃ q rest, bits = unaryBits q ++ rest := by
  induction bits with
  | nil => exact .inl rfl
  | cons b bs ih =>
    cases b with
    | true => exact .inr ⟨0, bs, rfl⟩
    | false =>
      rcases ih with h | ⟨q, rest, rfl⟩
      · left
        rw [List.length_cons, List.replicate_succ, ← h]
      · exact .inr ⟨q + 1, rest, rfl⟩

end Sys2Proof.Machine.Laws
end

