-- ==== Sys2Proof/Laws/Write.lean ====
section
/-! SUPPORT. What writing bits can do, said once: either the sink accepts every byte the bits complete, and
exactly those bits are appended to what was written, or the first refused byte is an IoError. -/

namespace Sys2Proof.Machine.Laws

/-- `t` is `s` with `bits` written: nothing but BUF, CNT, BYTECNT and the sink changed. -/
abbrev Wrote (bits : List Bool) (s t : State) : Prop :=
  t = { s with
    buf := t.buf, cnt := t.cnt, byteCnt := t.byteCnt, sinkBytes := t.sinkBytes, sinkAsked := t.sinkAsked } ∧
  writtenBits t = writtenBits s ++ bits ∧
  s.sinkBytes <+: t.sinkBytes ∧
  t.byteCnt = s.byteCnt + BitVec.ofNat 64 (t.sinkBytes.length - s.sinkBytes.length) ∧
  t.sinkAsked = s.sinkAsked + (t.sinkBytes.length - s.sinkBytes.length) ∧
  (LowBitsZero s → LowBitsZero t)

/-- `t` is `s` after `bits` were written up to byte `j`, which the sink refused. -/
abbrev RefusedAt (j : Nat) (bits : List Bool) (s t : State) : Prop :=
  t = { s with
    buf := t.buf, cnt := t.cnt, byteCnt := s.byteCnt + BitVec.ofNat 64 j, sinkBytes := t.sinkBytes,
    sinkAsked := s.sinkAsked + j + 1 } ∧
  s.sinkBytes <+: t.sinkBytes ∧
  t.sinkBytes.length = s.sinkBytes.length + j ∧
  t.sinkBytes.flatMap byteBits <+: writtenBits s ++ bits

/-- The part `f` of a command, started in `s`, writes `bits`. -/
def Writes (bits : List Bool) (s : State) (f : Flow Unit) : Prop :=
  (SinkAccepts (bytesCompleted bits.length s) s → ∃ t, f = .done () t ∧ Wrote bits s t) ∧
  ∀ j < bytesCompleted bits.length s, SinkAccepts j s → sinkAnswerAt j s = .ioErr →
    ∃ t, f = .raised .ioError t ∧ RefusedAt j bits s t

theorem sinkAnswer_eq_at (s : State) : sinkAnswer s = sinkAnswerAt 0 s := rfl

theorem wrote_refl (s : State) : Wrote [] s s :=
  ⟨rfl, by simp, List.prefix_rfl, by simp, by simp, id⟩

/-- Writing no bits. -/
theorem writes_nil (s : State) : Writes [] s (.done () s) := by
  refine ⟨fun _ => ⟨s, rfl, wrote_refl s⟩, fun j hj => ?_⟩
  have := cnt_lt s
  simp only [bytesCompleted, List.length_nil] at hj
  omega

/-- How many bytes writing completes (R40). -/
theorem Wrote.sink_length {bits : List Bool} {s t : State} (h : Wrote bits s t) :
    t.sinkBytes.length = s.sinkBytes.length + bytesCompleted bits.length s ∧
      t.cnt.toNat = (s.cnt.toNat + bits.length) % 8 := by
  have h1 := congrArg List.length h.2.1
  simp only [List.length_append, writtenBits_length] at h1
  have := cnt_lt t
  have := cnt_lt s
  unfold bytesCompleted
  omega

theorem Wrote.sinkAnswerAt {bits : List Bool} {s t : State} (h : Wrote bits s t) (j : Nat) :
    sinkAnswerAt j t = Machine.sinkAnswerAt (bytesCompleted bits.length s + j) s := by
  have hl := h.sink_length.1
  have hp : t.sinkPlan = s.sinkPlan := by rw [h.1]
  simp only [Machine.sinkAnswerAt, hp, h.2.2.2.2.1, hl]
  rw [Nat.add_sub_cancel_left, Nat.add_assoc]

theorem Wrote.trans {as bs : List Bool} {s t u : State} (h1 : Wrote as s t) (h2 : Wrote bs t u) :
    Wrote (as ++ bs) s u := by
  obtain ⟨e1, w1, p1, c1, a1, l1⟩ := h1
  obtain ⟨e2, w2, p2, c2, a2, l2⟩ := h2
  have hl1 := p1.length_le
  have hl2 := p2.length_le
  refine ⟨?_, by rw [w2, w1, List.append_assoc], p1.trans p2, ?_, by omega, fun h => l2 (l1 h)⟩
  · rw [e2, e1]
  · rw [c2, c1, BitVec.add_assoc, ← BitVec.ofNat_add]
    congr 2
    omega

theorem bytesCompleted_append {as bs : List Bool} {s t : State} (h : Wrote as s t) :
    bytesCompleted (as ++ bs).length s = bytesCompleted as.length s + bytesCompleted bs.length t := by
  have h2 := h.sink_length.2
  simp only [bytesCompleted, List.length_append] at *
  omega

/-- Writing some bits and then others. -/
theorem writes_append {as bs : List Bool} {s : State} {f : Flow Unit} {k : Unit → State → Flow Unit}
    (h1 : Writes as s f) (h2 : ∀ t, Wrote as s t → Writes bs t (k () t)) : Writes (as ++ bs) s (andThen f k) := by
  constructor
  · intro hacc
    have hle : bytesCompleted as.length s ≤ bytesCompleted (as ++ bs).length s := by
      simp only [bytesCompleted, List.length_append]; omega
    obtain ⟨t, rfl, ht⟩ := h1.1 fun j hj => hacc j (by omega)
    have heq := bytesCompleted_append (bs := bs) ht
    obtain ⟨u, hu, hw⟩ := (h2 t ht).1 fun j hj => by
      rw [ht.sinkAnswerAt]; exact hacc _ (by omega)
    exact ⟨u, hu, ht.trans hw⟩
  · intro j hj hacc hio
    by_cases hj1 : j < bytesCompleted as.length s
    · obtain ⟨t, rfl, e, p, l, b⟩ := h1.2 j hj1 hacc hio
      refine ⟨t, rfl, e, p, l, b.trans ?_⟩
      rw [← List.append_assoc]
      exact List.prefix_append _ _
    · obtain ⟨t, rfl, ht⟩ := h1.1 fun i hi => hacc i (by omega)
      have heq := bytesCompleted_append (bs := bs) ht
      have hlen := ht.sink_length.1
      obtain ⟨j', rfl⟩ := Nat.exists_eq_add_of_le (Nat.le_of_not_lt hj1)
      obtain ⟨u, hu, e, p, l, b⟩ := (h2 t ht).2 j' (by omega)
        (fun i hi => by rw [ht.sinkAnswerAt]; exact hacc _ (by omega)) (by rw [ht.sinkAnswerAt]; exact hio)
      refine ⟨u, hu, ?_, ht.2.2.1.trans p, by omega, ?_⟩
      · obtain ⟨e1, -, -, c1, a1, -⟩ := ht
        rw [hlen, Nat.add_sub_cancel_left] at c1 a1
        rw [e, c1, a1, BitVec.add_assoc, ← BitVec.ofNat_add, e1]
        simp only [Nat.add_assoc]
      · rwa [ht.2.1, List.append_assoc] at b

/-! ### One bit -/

theorem pendingBits_withBit_full (s : State) (b : Bool) (h : s.cnt = 7#3) :
    byteBits (withBit s.buf (7 - s.cnt.toNat) b) = pendingBits s ++ [b] := by
  simp [byteBits, pendingBits, h, List.range_succ, withBit_getLsbD]

theorem cnt_add_one {s : State} (h : s.cnt ≠ 7#3) : (s.cnt + 1#3).toNat = s.cnt.toNat + 1 := by
  have := cnt_lt s
  have h7 : s.cnt.toNat ≠ 7 := fun h' => h (BitVec.eq_of_toNat_eq h')
  rw [BitVec.toNat_add]
  simp
  omega

theorem pendingBits_withBit (s : State) (b : Bool) (h : s.cnt ≠ 7#3) :
    pendingBits (setBitBuffer (withBit s.buf (7 - s.cnt.toNat) b) (s.cnt + 1#3) s) = pendingBits s ++ [b] := by
  have h7 : s.cnt.toNat ≠ 7 := fun h' => h (BitVec.eq_of_toNat_eq h')
  have := cnt_lt s
  simp only [pendingBits, setBitBuffer_buf, setBitBuffer_cnt, cnt_add_one h, List.range_succ, List.map_append,
    List.map_cons, List.map_nil]
  congr 1
  · apply List.map_congr_left
    intro i hi
    rw [List.mem_range] at hi
    rw [withBit_getLsbD _ _ _ _ (by omega), if_neg (by omega)]
  · rw [withBit_getLsbD _ _ _ _ (by omega), if_pos rfl]

/-- Everything `PutBit` can do (R140). -/
theorem writes_putBit (b : Bool) (s : State) : Writes [b] s (putBit b s) := by
  have hlt := cnt_lt s
  unfold putBit
  by_cases h : s.cnt = 7#3
  · have hbc : bytesCompleted [b].length s = 1 := by simp [bytesCompleted, h]
    rw [if_pos h]
    simp only [putByte]
    constructor
    · intro hacc
      have hans : sinkAnswer { s with buf := withBit s.buf (7 - s.cnt.toNat) b } = .ok := hacc 0 (by omega)
      rw [hans]
      refine ⟨_, rfl, rfl, ?_, List.prefix_append _ _, by simp, by simp, ?_⟩
      · simp only [writtenBits, setBitBuffer_sinkBytes, List.flatMap_append, List.flatMap_cons, List.flatMap_nil,
          List.append_nil, List.append_assoc]
        congr 1
        rw [pendingBits_withBit_full s b h]
        simp [pendingBits]
      · intro _ i _
        simp
    · intro j hj hacc hio
      obtain rfl : j = 0 := by omega
      have hans : sinkAnswer { s with buf := withBit s.buf (7 - s.cnt.toNat) b } = .ioErr := hio
      rw [hans]
      refine ⟨_, rfl, by simp, List.prefix_rfl, rfl, ?_⟩
      simp only [writtenBits, List.append_assoc]
      exact List.prefix_append _ _
  · rw [if_neg h]
    have h7 : s.cnt.toNat ≠ 7 := fun h' => h (BitVec.eq_of_toNat_eq h')
    have hbc : bytesCompleted [b].length s = 0 := by
      simp only [bytesCompleted, List.length_cons, List.length_nil]; omega
    refine ⟨fun _ => ⟨_, rfl, rfl, ?_, List.prefix_rfl, by simp, by simp, ?_⟩, fun j hj => by omega⟩
    · simp only [writtenBits, setBitBuffer_sinkBytes, pendingBits_withBit s b h, List.append_assoc]
    · intro hz i hi
      simp only [setBitBuffer_cnt, cnt_add_one h] at hi
      simp only [setBitBuffer_buf]
      rw [withBit_getLsbD _ _ _ _ (by omega), if_neg (by omega)]
      exact hz i (by omega)

/-! ### Fields and unary codes -/

/-- Everything `PutField` can do (R141). -/
theorem writes_putField (v : DWord) (n : Nat) (s : State) : Writes (fieldBits n v) s (putField v n s) := by
  induction n generalizing s with
  | zero => exact writes_nil s
  | succ n ih =>
    rw [fieldBits_succ]
    exact writes_append (as := [v.getLsbD n]) (writes_putBit _ s) fun t _ => ih t

/-- Everything `PutUnary` can do (R170). -/
theorem writes_putUnary (q : Nat) (s : State) : Writes (unaryBits q) s (putUnary q s) := by
  induction q generalizing s with
  | zero => exact writes_putBit true s
  | succ q ih => exact writes_append (as := [false]) (writes_putBit false s) fun t _ => ih t

/-- Everything the remainder code can do (R171). -/
theorem writes_putRemainder (r : Nat) (s : State) : Writes (remainderBits r s) s (putRemainder r s) := by
  unfold remainderBits putRemainder
  split
  · exact writes_nil s
  · split
    · exact writes_putField _ _ s
    · exact writes_putField _ _ s

theorem Wrote.golomb {bits : List Bool} {s t : State} (h : Wrote bits s t) :
    t.gM = s.gM ∧ t.gB = s.gB ∧ t.gCutoff = s.gCutoff ∧ t.gMode = s.gMode := by
  rw [h.1]
  exact ⟨rfl, rfl, rfl, rfl⟩

theorem remainderBits_congr {s t : State} (h : t.gM = s.gM ∧ t.gB = s.gB ∧ t.gCutoff = s.gCutoff ∧ t.gMode = s.gMode)
    (r : Nat) : remainderBits r t = remainderBits r s := by
  simp only [remainderBits, h.1, h.2.1, h.2.2.1]

theorem golombBits_congr {s t : State} (h : t.gM = s.gM ∧ t.gB = s.gB ∧ t.gCutoff = s.gCutoff ∧ t.gMode = s.gMode)
    (n : Nat) : golombBits n t = golombBits n s := by
  simp only [golombBits, remainderBits_congr h, h.1]

/-- Everything `EncodeU` can do (R171). -/
theorem writes_encodeU (n : Nat) (s : State) : Writes (golombBits n s) s (encodeU n s) := by
  refine writes_append (writes_putUnary _ s) fun t ht => ?_
  rw [← remainderBits_congr ht.golomb]
  exact writes_putRemainder _ t

/-- Everything the signed encoding can do (R174, R179). -/
theorem writes_encodeSigned (n : Int) (s : State) : Writes (signedBits n s) s (encodeSigned n s) := by
  unfold signedBits encodeSigned
  cases s.gMode with
  | interleaving =>
    have h : interleave n = (if 0 ≤ n then 2 * n else -2 * n - 1).toNat := by unfold interleave; split <;> rfl
    rw [← h]
    exact writes_encodeU _ s
  | signAndMagnitude =>
    refine writes_append (as := [decide (n < 0)]) (writes_putBit _ s) fun t ht => ?_
    have h := writes_encodeU n.natAbs t
    rwa [golombBits_congr ht.golomb] at h

end Sys2Proof.Machine.Laws
end

