-- ==== Sys2Proof/Laws/Golomb.lean ====
section
/-! SUPPORT. The Golomb coder: its registers (R42), what decoding can do (R172, R173), and that the two
remainder branches agree (R184). -/

namespace Sys2Proof.Machine.Laws

/-! ### Registers -/

/-- `ceilLog2 m` is the least `b` with `2^b ≥ m`, and at most 16, for `m ≤ 2^16` (R42). -/
theorem ceilLog2_spec {m : Nat} (h : m ≤ 2 ^ 16) :
    m ≤ 2 ^ ceilLog2 m ∧ (∀ b < ceilLog2 m, 2 ^ b < m) ∧ ceilLog2 m ≤ 16 := by
  unfold ceilLog2
  cases hf : (List.range 17).find? (fun b => decide (m ≤ 2 ^ b)) with
  | none =>
    rw [List.find?_eq_none] at hf
    exact absurd (decide_eq_true h) (hf 16 (by simp))
  | some b =>
    rw [List.find?_range_eq_some] at hf
    obtain ⟨h1, h2, h3⟩ := hf
    refine ⟨by simpa using h1, fun c hc => ?_, ?_⟩
    · have := h3 c hc
      simpa using this
    · simp at h2
      simpa using Nat.lt_succ_iff.mp h2

theorem two_pow_ceilLog2_lt {m : Nat} (h0 : m ≠ 0) (h : m ≤ 2 ^ 16) : 2 ^ ceilLog2 m < 2 * m := by
  obtain ⟨-, h2, -⟩ := ceilLog2_spec h
  cases hb : ceilLog2 m with
  | zero => simp; omega
  | succ b =>
    have := h2 b (by omega)
    rw [pow_succ]
    omega

/-- Every write of M leaves registers that agree (R42). -/
theorem setM_golombOk {v : Half} (hv : v ≠ 0#16) (s : State) : GolombOk (setM v s) := by
  have hlt : v.toNat < 2 ^ 16 := v.isLt
  have h0 : v.toNat ≠ 0 := fun h => hv (BitVec.eq_of_toNat_eq h)
  obtain ⟨h1, h2, h3⟩ := ceilLog2_spec (Nat.le_of_lt hlt)
  have h4 := two_pow_ceilLog2_lt h0 (Nat.le_of_lt hlt)
  have hB : (setM v s).gB.toNat = ceilLog2 v.toNat := by
    rw [setM_gB, BitVec.toNat_ofNat]
    exact Nat.mod_eq_of_lt (by omega)
  have hC : (setM v s).gCutoff.toNat = 2 ^ ceilLog2 v.toNat - v.toNat := by
    rw [setM_gCutoff, BitVec.toNat_ofNat]
    exact Nat.mod_eq_of_lt (by omega)
  refine ⟨hv, ?_, ?_, ?_⟩
  · rw [hB, setM_gM]; exact h1
  · rw [hB, setM_gM]; exact h2
  · rw [hB, hC, setM_gM]; omega

/-- Registers that agree are those that a write of M makes (R42). -/
theorem golombOk_eq_setM {s : State} (h : GolombOk s) :
    s.gB = (setM s.gM s).gB ∧ s.gCutoff = (setM s.gM s).gCutoff := by
  obtain ⟨h1, h2, h3, h4⟩ := h
  obtain ⟨g1, g2, g3, g4⟩ := setM_golombOk h1 s
  rw [setM_gM] at g2 g3 g4
  have hb : s.gB.toNat = (setM s.gM s).gB.toNat := by
    rcases Nat.lt_trichotomy s.gB.toNat (setM s.gM s).gB.toNat with h | h | h
    · have := g3 _ h; omega
    · exact h
    · have := h3 _ h; omega
  exact ⟨BitVec.eq_of_toNat_eq hb, BitVec.eq_of_toNat_eq (by rw [hb] at h4; omega)⟩

theorem golombOk_gB_le {s : State} (h : GolombOk s) : s.gB.toNat ≤ 16 := by
  by_contra hb
  have := h.2.2.1 16 (by omega)
  have := s.gM.isLt
  omega

/-- For M ≥ 2, B is at least 1 and CUTOFF is below `2^(B−1)` (R42). -/
theorem golombOk_cutoff_lt {s : State} (h : GolombOk s) (h1 : s.gM ≠ 1#16) :
    ∃ b, s.gB.toNat = b + 1 ∧ s.gCutoff.toNat < 2 ^ b := by
  obtain ⟨h0, h2, h3, h4⟩ := h
  have hm0 : s.gM.toNat ≠ 0 := fun h => h0 (BitVec.eq_of_toNat_eq h)
  have hm1 : s.gM.toNat ≠ 1 := fun h => h1 (BitVec.eq_of_toNat_eq h)
  cases hb : s.gB.toNat with
  | zero => rw [hb] at h2; simp at h2; omega
  | succ b =>
    have := h3 b (by omega)
    rw [hb, pow_succ] at h4
    exact ⟨b, rfl, by omega⟩

/-! ### Reading on -/

theorem Took.canRead {n m : Nat} {s t : State} (h : Took n s t) (hn : n ≤ (unreadBits s).length) :
    CanRead m t ↔ CanRead (n + m) s := by
  have h1 : (unreadBits t).length = (unreadBits s).length - n := by
    rw [h.unread, available_of_le hn, List.length_drop]
  have h2 : sourceFails t = sourceFails s := by rw [h.fails]; simp [hn]
  simp only [CanRead, h1, h2]
  constructor
  · rintro (h | h)
    · left; omega
    · exact .inr h
  · rintro (h | h)
    · left; omega
    · exact .inr h

theorem Took.golomb {n : Nat} {s t : State} (h : Took n s t) :
    t.gM = s.gM ∧ t.gB = s.gB ∧ t.gCutoff = s.gCutoff ∧ t.gMode = s.gMode := by
  rw [h.frame]
  exact ⟨rfl, rfl, rfl, rfl⟩

theorem paddedTake_append_drop (n m : Nat) (bits : List Bool) :
    paddedTake (n + m) bits = paddedTake n bits ++ paddedTake m (bits.drop n) := by
  induction n generalizing bits with
  | zero => simp
  | succ n ih =>
    cases bits with
    | nil => rw [List.drop_nil, paddedTake_nil, paddedTake_nil, paddedTake_nil, List.replicate_append_replicate]
    | cons b bs =>
      rw [Nat.add_right_comm, paddedTake_cons, paddedTake_cons, ih, List.drop_succ_cons, List.cons_append]

/-- Everything the remainder part of `DecodeU` can do (R173). -/
theorem getRemainder_spec (s : State) :
    (CanRead (remainderLength (unreadBits s) s) s → ∃ t,
      getRemainder s = .done (remainderValue (unreadBits s) s) t ∧ Took (remainderLength (unreadBits s) s) s t) ∧
    (¬CanRead (remainderLength (unreadBits s) s) s → ∃ t,
      getRemainder s = .raised .ioError t ∧ SourceFailed s t) := by
  unfold getRemainder remainderValue remainderLength remainderHead
  by_cases hm : s.gM = 1#16
  · simp only [hm, if_true]
    exact ⟨fun _ => ⟨s, rfl, took_refl s⟩, fun h => absurd (.inl (Nat.zero_le _)) h⟩
  · simp only [hm, if_false]
    obtain ⟨h1, h2⟩ := getField_spec (s.gB.toNat - 1) s
    by_cases hc : CanRead (s.gB.toNat - 1) s
    · obtain ⟨t, ht, hw⟩ := h1 hc
      rw [ht, andThen_done]
      by_cases hh : bitsValue (paddedTake (s.gB.toNat - 1) (unreadBits s)) < s.gCutoff.toNat
      · simp only [hh, if_true]
        exact ⟨fun _ => ⟨t, rfl, hw⟩, fun h => absurd hc h⟩
      · simp only [hh, if_false]
        obtain ⟨g1, g2⟩ := getField_spec 1 t
        have hhead := paddedTake_available (s.gB.toNat - 1) s
        have hlong : paddedTake (s.gB.toNat - 1 + 1) (available (s.gB.toNat - 1) s) =
            paddedTake (s.gB.toNat - 1 + 1) (unreadBits s) := by
          rw [available, paddedTake_append_zeros]
        constructor
        · intro hcan
          have hct : CanRead 1 t := by
            by_cases hle : s.gB.toNat - 1 ≤ (unreadBits s).length
            · exact (hw.canRead hle).2 hcan
            · right; rw [hw.fails]; simp [hle]
          obtain ⟨u, hu, hw'⟩ := g1 hct
          refine ⟨u, ?_, hw.trans hw'⟩
          rw [hu, andThen_done, hw.unread, ← hlong, paddedTake_append_drop, bitsValue_append, hhead]
          simp only [paddedTake_length, pow_one]
          rw [Nat.mul_comm 2]
        · intro hcan
          have hle : s.gB.toNat - 1 ≤ (unreadBits s).length := by
            by_contra hle
            exact hcan (.inr (hc.resolve_left hle))
          obtain ⟨u, hu, hw'⟩ := g2 fun h => hcan ((hw.canRead hle).1 h)
          exact ⟨u, by rw [hu, andThen_raised], hw.sourceFailed hle hw'⟩
    · obtain ⟨t, ht, hw⟩ := h2 hc
      rw [ht, andThen_raised]
      constructor
      · intro h
        exfalso
        apply hc
        rcases h with h | h
        · left
          split at h
          · exact h
          · omega
        · exact .inr h
      · exact fun _ => ⟨t, rfl, hw⟩

theorem remainder_congr {s t : State} (h : t.gM = s.gM ∧ t.gB = s.gB ∧ t.gCutoff = s.gCutoff ∧ t.gMode = s.gMode)
    (tail : List Bool) :
    remainderValue tail t = remainderValue tail s ∧ remainderLength tail t = remainderLength tail s := by
  unfold remainderValue remainderLength remainderHead
  rw [h.1, h.2.1, h.2.2.1]
  exact ⟨rfl, rfl⟩

theorem unaryBits_length (q : Nat) : (unaryBits q).length = q + 1 := by simp [unaryBits]

/-- `DecodeU` on bits that hold the end of a unary code (R173): the value, Overflow, or an IoErr. -/
theorem decodeU_spec {q : Nat} {tail : List Bool} {s : State} (hu : unreadBits s = unaryBits q ++ tail) :
    (CanRead (q + 1 + remainderLength tail s) s → ∃ t, Took (q + 1 + remainderLength tail s) s t ∧
      decodeU s =
        if 2 ^ 32 ≤ q * s.gM.toNat + remainderValue tail s then .raised .overflow t
        else .done (q * s.gM.toNat + remainderValue tail s) t) ∧
    (¬CanRead (q + 1 + remainderLength tail s) s → ∃ t,
      decodeU s = .raised .ioError t ∧ SourceFailed s t) := by
  obtain ⟨t, ht, hw⟩ := getUnary_one hu
  have hle : q + 1 ≤ (unreadBits s).length := by rw [hu, List.length_append, unaryBits_length]; omega
  have hdrop : unreadBits t = tail := by
    rw [hw.unread, available_of_le hle, hu, List.drop_append_of_le_length (by rw [unaryBits_length]), ← unaryBits_length,
      List.drop_length, List.nil_append]
  have hg := remainder_congr hw.golomb tail
  obtain ⟨g1, g2⟩ := getRemainder_spec t
  rw [hdrop, hg.1, hg.2] at g1
  rw [hdrop, hg.2] at g2
  unfold decodeU
  rw [ht, andThen_done]
  constructor
  · intro hc
    obtain ⟨u, hu', hw'⟩ := g1 ((hw.canRead hle).2 hc)
    refine ⟨u, hw.trans hw', ?_⟩
    rw [hu', andThen_done]
  · intro hc
    obtain ⟨u, hu', hw'⟩ := g2 fun h => hc ((hw.canRead hle).1 h)
    exact ⟨u, by rw [hu', andThen_raised], hw.sourceFailed hle hw'⟩

/-- `DecodeU` on bits that hold no one bit (R172, R360): EOF inside the unary code, an IoErr, or no end. -/
theorem decodeU_zeros {q : Nat} {s : State} (hu : unreadBits s = List.replicate q false) :
    (sourceFails s = false → sourceEndless s = false →
      ∃ t, decodeU s = .raised .unexpectedEndOfStream t ∧ Took (q + 1) s t) ∧
    (sourceFails s = true → ∃ t, decodeU s = .raised .ioError t ∧ SourceFailed s t) ∧
    (sourceEndless s = true → decodeU s = .running) := by
  obtain ⟨h1, h2, h3⟩ := getUnary_zeros hu
  unfold decodeU
  refine ⟨fun h hn => ?_, fun h => ?_, fun h => by rw [h3 h, andThen_running]⟩
  · obtain ⟨t, ht, hw⟩ := h1 h hn
    exact ⟨t, by rw [ht, andThen_raised], hw⟩
  · obtain ⟨t, ht, hw⟩ := h2 h
    exact ⟨t, by rw [ht, andThen_raised], hw⟩

/-! ### The remainder branches agree -/

/-- A remainder's code, read back, is the remainder, and takes exactly its bits (R184). -/
theorem remainder_roundTrip {s : State} (h : GolombOk s) {r : Nat} (hr : r < s.gM.toNat) (rest : List Bool) :
    remainderValue (remainderBits r s ++ rest) s = r ∧
      remainderLength (remainderBits r s ++ rest) s = (remainderBits r s).length := by
  by_cases hm : s.gM = 1#16
  · have : s.gM.toNat = 1 := by rw [hm]; rfl
    simp only [remainderValue, remainderLength, remainderBits, hm, if_true]
    simp
    omega
  · obtain ⟨b, hb, hcut⟩ := golombOk_cutoff_lt h hm
    have hsum := h.2.2.2
    have hb16 := golombOk_gB_le h
    rw [hb, pow_succ] at hsum
    have hpow : 2 ^ b ≤ 2 ^ 15 := Nat.pow_le_pow_right (by omega) (by omega)
    simp only [remainderValue, remainderLength, remainderBits, remainderHead, hm, if_false, hb, Nat.add_sub_cancel]
    by_cases hrc : r < s.gCutoff.toNat
    · simp only [hrc, if_true]
      have hv : bitsValue (paddedTake b (fieldBits b (BitVec.ofNat 64 r) ++ rest)) = r := by
        rw [paddedTake_of_le (by simp), List.take_left' (by simp), bitsValue_fieldBits, BitVec.toNat_ofNat,
          Nat.mod_eq_of_lt (a := r) (by omega), Nat.mod_eq_of_lt (by omega)]
      rw [hv, if_pos hrc, if_pos hrc]
      simp
    · simp only [hrc, if_false]
      have hsplit : ∀ v : DWord, fieldBits (b + 1) v = fieldBits b (v >>> 1) ++ [v.getLsbD 0] := by
        intro v
        simp only [fieldBits, List.range_succ, List.map_append, List.map_cons, List.map_nil, Nat.add_sub_cancel,
          Nat.sub_self]
        congr 1
        apply List.map_congr_left
        intro i hi
        rw [List.mem_range] at hi
        rw [BitVec.getLsbD_ushiftRight]
        congr 1
        omega
      have hN : (BitVec.ofNat 64 (r + s.gCutoff.toNat)).toNat = r + s.gCutoff.toNat := by
        rw [BitVec.toNat_ofNat, Nat.mod_eq_of_lt (by omega)]
      have hhead : bitsValue (paddedTake b (fieldBits (b + 1) (BitVec.ofNat 64 (r + s.gCutoff.toNat)) ++ rest)) =
          (r + s.gCutoff.toNat) / 2 := by
        rw [paddedTake_of_le (by simp; omega), hsplit, List.append_assoc, List.take_left' (by simp), bitsValue_fieldBits,
          BitVec.toNat_ushiftRight, hN, Nat.shiftRight_one]
        apply Nat.mod_eq_of_lt
        omega
      have hfull : bitsValue (paddedTake (b + 1) (fieldBits (b + 1) (BitVec.ofNat 64 (r + s.gCutoff.toNat)) ++ rest)) =
          r + s.gCutoff.toNat := by
        rw [paddedTake_of_le (by simp), List.take_left' (by simp), bitsValue_fieldBits, hN]
        apply Nat.mod_eq_of_lt
        rw [pow_succ]
        omega
      rw [hhead, hfull, if_neg (by omega), if_neg (by omega)]
      simp

end Sys2Proof.Machine.Laws
end

