-- ==== Sys2Proof/Laws/PerInstr.lean ====
section
/-! SUPPORT. A law of every instruction, made per instruction: its word is zero in the bits its format reserves
(30_encoding.md R116). -/

namespace Sys2Proof.Laws

/-- The word of `i` has no reserved bit set (R116). -/
def ReservedZero.Statement (i : Instr) : Prop := encode i &&& reservedMask i = 0#32

/-- A word is zero under a mask that lies in bits 23:0 where its field is zero under it. -/
theorem reservedZero_of_field (i : Instr) (h : ∀ j < 32, (reservedMask i).getLsbD j = true →
    j < 24 ∧ (operandField i).getLsbD j = false) : ReservedZero.Statement i := by
  apply BitVec.eq_of_getLsbD_eq
  intro j hj
  rw [BitVec.getLsbD_and]
  cases hm : (reservedMask i).getLsbD j with
  | false => simp
  | true =>
    obtain ⟨h24, hf⟩ := h j hj hm
    rw [encode_getLsbD, if_pos h24, hf]
    simp

theorem maskN_bits : ∀ j < 32, maskN.getLsbD j = true → j < 24 ∧ 7 ≤ j := by decide

theorem maskI_bits : ∀ j < 32, maskI.getLsbD j = true → j < 24 ∧ 16 ≤ j := by decide

theorem ReservedZero.bsOpenw : ReservedZero.Statement .bsOpenw := rfl

theorem ReservedZero.bsOpenr : ReservedZero.Statement .bsOpenr := rfl

theorem ReservedZero.bsClose : ReservedZero.Statement .bsClose := rfl

theorem ReservedZero.bsWrbit (bit : Bool) : ReservedZero.Statement (.bsWrbit bit) := by
  cases bit <;> rfl

theorem ReservedZero.bsWrbits (n : Nat) : ReservedZero.Statement (.bsWrbits n) :=
  reservedZero_of_field _ fun j hj hm => by
    obtain ⟨h1, h2⟩ := maskN_bits j hj hm
    exact ⟨h1, by rw [operandField, BitVec.getLsbD_setWidth, BitVec.getLsbD_of_ge _ _ h2, Bool.and_false]⟩

theorem ReservedZero.bsRdbit : ReservedZero.Statement .bsRdbit := rfl

theorem ReservedZero.bsRdbits (n : Nat) : ReservedZero.Statement (.bsRdbits n) :=
  reservedZero_of_field _ fun j hj hm => by
    obtain ⟨h1, h2⟩ := maskN_bits j hj hm
    exact ⟨h1, by rw [operandField, BitVec.getLsbD_setWidth, BitVec.getLsbD_of_ge _ _ h2, Bool.and_false]⟩

theorem ReservedZero.gSetm (imm : Half) : ReservedZero.Statement (.gSetm imm) :=
  reservedZero_of_field _ fun j hj hm => by
    obtain ⟨h1, h2⟩ := maskI_bits j hj hm
    exact ⟨h1, by rw [operandField, BitVec.getLsbD_setWidth, BitVec.getLsbD_of_ge _ _ h2, Bool.and_false]⟩

theorem ReservedZero.gSetmode (mode : GMode) : ReservedZero.Statement (.gSetmode mode) := by
  cases mode <;> rfl

theorem ReservedZero.gEncu : ReservedZero.Statement .gEncu := rfl

theorem ReservedZero.gDecu : ReservedZero.Statement .gDecu := rfl

theorem ReservedZero.gEnc : ReservedZero.Statement .gEnc := rfl

theorem ReservedZero.gDec : ReservedZero.Statement .gDec := rfl

theorem ReservedZero.gRdm : ReservedZero.Statement .gRdm := rfl

theorem ReservedZero.apReset : ReservedZero.Statement .apReset := rfl

theorem ReservedZero.apEncl : ReservedZero.Statement .apEncl := rfl

theorem ReservedZero.apEncr : ReservedZero.Statement .apEncr := rfl

theorem ReservedZero.apDecl : ReservedZero.Statement .apDecl := rfl

theorem ReservedZero.apDecr : ReservedZero.Statement .apDecr := rfl

theorem ReservedZero.medPred : ReservedZero.Statement .medPred := rfl

theorem ReservedZero.medEnc : ReservedZero.Statement .medEnc := rfl

theorem ReservedZero.medDec : ReservedZero.Statement .medDec := rfl

theorem ReservedZero.estClr : ReservedZero.Statement .estClr := rfl

theorem ReservedZero.estAcc : ReservedZero.Statement .estAcc := rfl

theorem ReservedZero.estM : ReservedZero.Statement .estM := rfl

end Sys2Proof.Laws
end

