-- ==== Sys2Proof/Laws/Registers.lean ====
section
/-! SUPPORT. What an access of the register block does, said once, and the halves of 64-bit registers as
numbers. -/

namespace Sys2Proof.Machine.Laws

/-- The value of two fields, the first above the second. -/
theorem append_toNat {a b : Nat} (x : BitVec a) (y : BitVec b) : (x ++ y).toNat = x.toNat * 2 ^ b + y.toNat := by
  rw [BitVec.toNat_append, ← Nat.shiftLeft_add_eq_or_of_lt y.isLt, Nat.shiftLeft_eq]

theorem loHalf_toNat (v : DWord) : (loHalf v).toNat = v.toNat % 2 ^ 32 := by simp [loHalf]

theorem hiHalf_toNat (v : DWord) : (hiHalf v).toNat = v.toNat / 2 ^ 32 := by
  have := v.isLt
  simp only [hiHalf, BitVec.extractLsb'_toNat, Nat.shiftRight_eq_div_pow]
  omega

/-- A write of a `_LO` half leaves the other half (R73). -/
theorem withLo_toNat (v : DWord) (x : Word) : (withLo v x).toNat = v.toNat / 2 ^ 32 * 2 ^ 32 + x.toNat := by
  refine (append_toNat _ _).trans ?_
  rw [hiHalf_toNat]

/-- A write of a `_HI` half leaves the other half (R73). -/
theorem withHi_toNat (v : DWord) (x : Word) : (withHi v x).toNat = x.toNat * 2 ^ 32 + v.toNat % 2 ^ 32 := by
  refine (append_toNat _ _).trans ?_
  rw [loHalf_toNat]

/-- An address of the block is inside at its offset when it is aligned, of 4 bytes (R70). -/
theorem placeOf_inside {off : Nat} (h : off < 256) (h4 : off % 4 = 0) :
    placeOf (Config.coreBase + off) 4 = .inside off := by
  simp [placeOf, placeAt, h4]
  omega

theorem placeOf_add (off size : Nat) : placeOf (Config.coreBase + off) size = placeAt off size := by simp [placeOf]

/-- A write inside the block is the register's write (R70, R72). -/
theorem hostAccess_write {off : Nat} (h : off < 256) (h4 : off % 4 = 0) (v : Word) (s : State) :
    hostAccess (.write (Config.coreBase + off) 4 v) s = .next (writeReg (regAt off) v s) := by
  simp only [hostAccess, placeOf_inside h h4]

/-- A read inside the block gives the host the register's value (R70, R72). -/
theorem hostAccess_read {off : Nat} (h : off < 256) (h4 : off % 4 = 0) (s : State) :
    hostAccess (.read (Config.coreBase + off) 4) s =
      .next { afterRead s with hostReplies := s.hostReplies ++ [readReg (regAt off) s] } := by
  simp only [hostAccess, placeOf_inside h h4]

theorem isBusy_of_busy {s : State} {w : Word} (h : s.cstate = .busy w) : isBusy s = true := by
  simp [isBusy, h]

theorem isBusy_of_not {s : State} (h : ∀ w, s.cstate ≠ .busy w) : isBusy s = false := by
  unfold isBusy
  cases hc : s.cstate <;> simp_all

/-- A read that no draw replaces any bit of is the register's value. -/
theorem undrawn (x y : Word) : (x &&& ~~~0#32) ||| (y &&& 0#32) = x := by
  rw [BitVec.and_zero, BitVec.or_zero]
  exact BitVec.and_allOnes

end Sys2Proof.Machine.Laws
end

