-- ==== Sys2Proof/Laws/Step.lean ====
section
/-! SUPPORT. What a step can do, said once: wait, execute the pending word, or make the host's oldest access. -/

namespace Sys2Proof.Machine.Laws

theorem pendingWord_of_busy {s : State} {w : Word} (h : s.cstate = .busy w) : pendingWord s = some w := by
  simp [pendingWord, h]

theorem pendingWord_of_not {s : State} (h : ∀ w, s.cstate ≠ .busy w) : pendingWord s = none := by
  unfold pendingWord
  cases hc : s.cstate <;> simp_all

theorem pendingWord_eq_some {s : State} {w : Word} (h : pendingWord s = some w) : s.cstate = .busy w := by
  unfold pendingWord at h
  split at h <;> simp_all

/-! ### Turns -/

/-- A turn uses up turns and free values, nothing else. -/
theorem TurnOf.frame {a : Turn} {s u : State} (h : TurnOf a s u) :
    u = { s with turns := u.turns, draws := u.draws } := by
  rcases h with ⟨ts, -, rfl⟩ | ⟨-, -, rfl⟩ | ⟨-, -, -, rfl⟩ <;> rfl

/-- The turn of a state is one agent's, with one state after it. -/
theorem turnOf_iff {a : Turn} {s u : State} : TurnOf a s u ↔ nextTurn s = (a, u) := by
  unfold nextTurn
  cases ht : s.turns with
  | cons t ts => simp [TurnOf, ht, eq_comm]
  | nil => cases hr : s.turnRest <;> simp [TurnOf, ht, hr, eq_comm]

theorem turnOf_nextTurn (s : State) : TurnOf (nextTurn s).1 s (nextTurn s).2 := turnOf_iff.2 rfl

/-! ### Steps -/

/-- The host's step: its oldest access, or none. -/
theorem perform_hostMove (s : State) :
    (s.hostQueue = [] → perform (hostMove s).1 (hostMove s).2 = .next s) ∧
    ∀ a rest, s.hostQueue = a :: rest →
      perform (hostMove s).1 (hostMove s).2 = hostAccess a { s with hostQueue := rest } := by
  unfold hostMove
  exact ⟨fun h => by rw [h]; rfl, fun a rest h => by rw [h]; rfl⟩

/-- With no command pending, the step is the host's (R91, R342). -/
theorem step_of_not_busy {s : State} (h : ∀ w, s.cstate ≠ .busy w) :
    step s = perform (hostMove s).1 (hostMove s).2 := by
  simp only [step, arbitrate, pendingWord_of_not h]

/-- With the core's turn, the step executes the pending word (R31). -/
theorem step_of_coreTurn {s u : State} {w : Word} (h : s.cstate = .busy w) (ht : TurnOf .core s u) :
    step s = runWord w u := by
  simp only [step, arbitrate, pendingWord_of_busy h, turnOf_iff.1 ht, perform]

/-- With the host's turn while a command is pending, the step is the host's (R360). -/
theorem step_of_hostTurn {s u : State} {w : Word} (h : s.cstate = .busy w) (ht : TurnOf .host s u) :
    step s = perform (hostMove u).1 (hostMove u).2 := by
  simp only [step, arbitrate, pendingWord_of_busy h, turnOf_iff.1 ht]

/-- Everything a step can be (R30, R31, R91, R360): the core executes the pending word, or the host, which has the
turn or no command to wait for, makes its oldest access or none. -/
theorem step_cases (s : State) :
    (∃ w u, s.cstate = .busy w ∧ TurnOf .core s u ∧ step s = runWord w u) ∨
    (∃ u, ((∀ w, s.cstate ≠ .busy w) ∧ u = s ∨ TurnOf .host s u) ∧
      (s.hostQueue = [] ∧ step s = .next u ∨
        ∃ a rest, s.hostQueue = a :: rest ∧ step s = hostAccess a { u with hostQueue := rest })) := by
  have host : ∀ u, u.hostQueue = s.hostQueue → step s = perform (hostMove u).1 (hostMove u).2 →
      s.hostQueue = [] ∧ step s = .next u ∨
        ∃ a rest, s.hostQueue = a :: rest ∧ step s = hostAccess a { u with hostQueue := rest } := by
    intro u hu hs
    obtain ⟨h1, h2⟩ := perform_hostMove u
    rw [hu] at h1 h2
    rw [hs]
    cases hq : s.hostQueue with
    | nil => exact .inl ⟨rfl, h1 hq⟩
    | cons a rest => exact .inr ⟨a, rest, rfl, h2 a rest hq⟩
  by_cases hb : ∃ w, s.cstate = .busy w
  · obtain ⟨w, hw⟩ := hb
    have ht := turnOf_nextTurn s
    cases ha : (nextTurn s).1 with
    | core =>
      rw [ha] at ht
      exact .inl ⟨w, _, hw, ht, step_of_coreTurn hw ht⟩
    | host =>
      rw [ha] at ht
      exact .inr ⟨_, .inr ht, host _ (by rw [TurnOf.frame ht]) (step_of_hostTurn hw ht)⟩
  · have hn : ∀ w, s.cstate ≠ .busy w := fun w h => hb ⟨w, h⟩
    exact .inr ⟨s, .inl ⟨hn, rfl⟩, host s rfl (step_of_not_busy hn)⟩

/-- Every command is its body within the frame of R310, in the BSMODE that R113 gives it. -/
theorem exec_eq_command (i : Instr) (s : State) : ∃ body, exec i s = command (requiredMode i) body s := by
  cases i <;>
    simp only [exec, requiredMode, execBsOpenw, execBsOpenr, execBsClose, execBsWrbit, execBsWrbits, execBsRdbit,
      execBsRdbits, execGSetm, execGSetmode, execGEncu, execGDecu, execGEnc, execGDec, execGRdm, execApReset,
      execApEncl, execApEncr, execApDecl, execApDecr, execMedPred, execMedEnc, execMedDec, execEstClr, execEstAcc,
      execEstM] <;>
    exact ⟨_, rfl⟩

/-- A word that spells no command is IllegalCommand (R114). -/
theorem illegalWord_eq {s : State} (h : s.cstate ≠ .halted) :
    illegalWord s = .next { s with cstate := .halted, errCode := .illegalCommand } :=
  command_of_allowed h rfl

end Sys2Proof.Machine.Laws
end

