-- ==== Sys2Proof/Machine/Assembler.lean ====
section
/-! DEFINITION. Assembler syntax (30_encoding.md R117): a mnemonic in upper or lower case, then the field of
its format, if any, as a decimal or 0x number; G.SETMODE also accepts IL and SM. A line is a list of
characters, words separated by spaces (log 16). -/

namespace Sys2Proof.Machine

/-- The lower-case form of a character. -/
def lowerChar (c : Char) : Char := if 'A' ≤ c ∧ c ≤ 'Z' then Char.ofNat (c.toNat + 32) else c

/-- The words of a line, separated by spaces; `cur` is the word being read, reversed. -/
def wordsOf : List Char → List Char → List (List Char)
  | [], cur => if cur = [] then [] else [cur.reverse]
  | ' ' :: cs, cur => if cur = [] then wordsOf cs [] else cur.reverse :: wordsOf cs []
  | c :: cs, cur => wordsOf cs (c :: cur)

/-- The value of a digit in base 10 or 16. -/
def digitValue (base : Nat) (c : Char) : Option Nat :=
  let d :=
    if '0' ≤ c ∧ c ≤ '9' then some (c.toNat - '0'.toNat)
    else if 'a' ≤ c ∧ c ≤ 'f' then some (c.toNat - 'a'.toNat + 10)
    else if 'A' ≤ c ∧ c ≤ 'F' then some (c.toNat - 'A'.toNat + 10)
    else none
  d.bind fun v => if v < base then some v else none

/-- The value of a nonempty run of digits after the value `acc`. -/
def digitsValue (base : Nat) : List Char → Nat → Option Nat
  | [], acc => some acc
  | c :: cs, acc => (digitValue base c).bind fun d => digitsValue base cs (base * acc + d)

/-- A decimal or `0x` number (R117). -/
def numberOf (cs : List Char) : Option Nat :=
  match cs with
  | [] => none
  | '0' :: 'x' :: d :: ds => digitsValue 16 (d :: ds) 0
  | c :: cs => digitsValue 10 (c :: cs) 0

/-- A field with `bound` values. -/
def fieldBelow (bound : Nat) (cs : List Char) : Option Nat :=
  (numberOf cs).bind fun v => if v < bound then some v else none

/-- The operand of G.SETMODE (R117). -/
def modeOperand (cs : List Char) : Option GMode :=
  if cs = "IL".toList then some .interleaving
  else if cs = "SM".toList then some .signAndMagnitude
  else (fieldBelow 2 cs).map fun v => modeOfBit (v == 1)

/-- The commands of format Z with their mnemonics (R113). -/
def plainMnemonics : List (String × Instr) :=
  [("BS.OPENW", .bsOpenw), ("BS.OPENR", .bsOpenr), ("BS.CLOSE", .bsClose), ("BS.RDBIT", .bsRdbit),
   ("G.ENCU", .gEncu), ("G.DECU", .gDecu), ("G.ENC", .gEnc), ("G.DEC", .gDec), ("G.RDM", .gRdm),
   ("AP.RESET", .apReset), ("AP.ENCL", .apEncl), ("AP.ENCR", .apEncr), ("AP.DECL", .apDecl),
   ("AP.DECR", .apDecr), ("MED.PRED", .medPred), ("MED.ENC", .medEnc), ("MED.DEC", .medDec),
   ("EST.CLR", .estClr), ("EST.ACC", .estAcc), ("EST.M", .estM)]

/-- Whether a word spells a mnemonic, in upper or in lower case (R117). -/
def spells (cs : List Char) (mnemonic : String) : Bool :=
  cs == mnemonic.toList || cs == mnemonic.toList.map lowerChar

/-- The command with one field that a mnemonic and its operand spell (R117). -/
def withField (name operand : List Char) : Option Instr :=
  if spells name "BS.WRBIT" then (fieldBelow 2 operand).map fun v => .bsWrbit (v == 1)
  else if spells name "BS.WRBITS" then (fieldBelow 128 operand).map .bsWrbits
  else if spells name "BS.RDBITS" then (fieldBelow 128 operand).map .bsRdbits
  else if spells name "G.SETM" then (fieldBelow 65536 operand).map fun v => .gSetm (BitVec.ofNat 16 v)
  else if spells name "G.SETMODE" then (modeOperand operand).map .gSetmode
  else none

/-- The command a line spells (R117). -/
def assemble (line : List Char) : Option Instr :=
  match wordsOf line [] with
  | [name] => (plainMnemonics.find? fun p => spells name p.1).map (·.2)
  | [name, operand] => withField name operand
  | _ => none

/-- The word of a line (R117). -/
def assembleWord (line : List Char) : Option Word := (assemble line).map encode

end Sys2Proof.Machine
end

