-- ==== Sys2Proof/Tests/Slice0.lean ====
section
/-! SUPPORT. Tests: what WellFormed refuses, the words of the opcode map decoded, one step of each command with
values from spec/95_test_vectors.md, and for each statement with hypotheses a state that meets them. -/

namespace Sys2Proof.Tests

open Sys2Proof.Machine

/-! ### WellFormed -/

theorem test_width_of_write_too_wide : (Instr.bsWrbits 128).wellFormed = false := by decide

theorem test_width_of_read_too_wide : (Instr.bsRdbits 128).wellFormed = false := by decide

/-! ### Decode: words written out from R111 and R113, opcode in bits 31:24, then the field -/

theorem test_decode_bitstream :
    decode 0b00000001_000000000000000000000000#32 = .ok .bsOpenw ∧
    decode 0b00000010_000000000000000000000000#32 = .ok .bsOpenr ∧
    decode 0b00000011_000000000000000000000000#32 = .ok .bsClose ∧
    decode 0b00000100_00000000000000000000000_1#32 = .ok (.bsWrbit true) ∧
    decode 0b00000101_00000000000000000_0000011#32 = .ok (.bsWrbits 3) ∧
    decode 0b00000110_000000000000000000000000#32 = .ok .bsRdbit ∧
    decode 0b00000111_00000000000000000_1000000#32 = .ok (.bsRdbits 64) := by decide

theorem test_decode_golomb :
    decode 0b00010000_00000000_1111111111111111#32 = .ok (.gSetm 65535#16) ∧
    decode 0b00010001_00000000000000000000000_0#32 = .ok (.gSetmode .interleaving) ∧
    decode 0b00010001_00000000000000000000000_1#32 = .ok (.gSetmode .signAndMagnitude) ∧
    decode 0b00010010_000000000000000000000000#32 = .ok .gEncu ∧
    decode 0b00010011_000000000000000000000000#32 = .ok .gDecu ∧
    decode 0b00010100_000000000000000000000000#32 = .ok .gEnc ∧
    decode 0b00010101_000000000000000000000000#32 = .ok .gDec ∧
    decode 0b00010110_000000000000000000000000#32 = .ok .gRdm := by decide

theorem test_decode_audio :
    decode 0b00100000_000000000000000000000000#32 = .ok .apReset ∧
    decode 0b00100001_000000000000000000000000#32 = .ok .apEncl ∧
    decode 0b00100010_000000000000000000000000#32 = .ok .apEncr ∧
    decode 0b00100011_000000000000000000000000#32 = .ok .apDecl ∧
    decode 0b00100100_000000000000000000000000#32 = .ok .apDecr := by decide

theorem test_decode_med :
    decode 0b00101000_000000000000000000000000#32 = .ok .medPred ∧
    decode 0b00101001_000000000000000000000000#32 = .ok .medEnc ∧
    decode 0b00101010_000000000000000000000000#32 = .ok .medDec := by decide

theorem test_decode_estimator :
    decode 0b00110000_000000000000000000000000#32 = .ok .estClr ∧
    decode 0b00110001_000000000000000000000000#32 = .ok .estAcc ∧
    decode 0b00110010_000000000000000000000000#32 = .ok .estM := by decide

/-- Section 2.1: reserved bits and undefined opcodes. -/
theorem test_decode_refuses :
    decode 0x05000080#32 = .error .reservedBits ∧ decode 0x10010001#32 = .error .reservedBits ∧
    decode 0x11000002#32 = .error .reservedBits ∧ decode 0x01000100#32 = .error .reservedBits ∧
    decode 0x00000000#32 = .error .undefinedOpcode ∧ decode 0x08000000#32 = .error .undefinedOpcode := by decide

/-- Section 2.1: widths 0 and 65 decode; they fault only when the command executes. -/
theorem test_decode_widths :
    decode 0x05000000#32 = .ok (.bsWrbits 0) ∧ decode 0x05000041#32 = .ok (.bsWrbits 65) := by decide

/-- Section 2.1: texts and their words. -/
theorem test_assemble :
    assembleWord "BS.WRBITS 64".toList = some 0x05000040#32 ∧
    assembleWord "G.SETMODE SM".toList = some 0x11000001#32 ∧
    assembleWord "g.setm 0xFFFF".toList = some 0x1000FFFF#32 ∧
    assembleWord "MED.DEC".toList = some 0x2A000000#32 ∧ assembleWord "BS.WRBITS 128".toList = none := by decide

/-! ### States to test in -/

/-- A writer with `cnt` pending bits in `buf`, and a sink that accepts the next 16 bytes. -/
def writer (buf : Byte) (cnt : BitVec 3) : State :=
  { State.reset with bsMode := .write, buf := buf, cnt := cnt, sinkPlan := List.replicate 16 .ok }

/-- A writer whose sink refuses the first byte. -/
def refusingWriter (buf : Byte) (cnt : BitVec 3) : State :=
  { State.reset with bsMode := .write, buf := buf, cnt := cnt, sinkPlan := [.ioErr] }

/-- A reader whose source supplies these bytes and then EOF. -/
def reader (bytes : List Byte) : State :=
  { State.reset with bsMode := .read, srcTape := bytes.map .byte, srcRest := .eof }

/-- A reader whose source supplies these bytes and then zero bytes for ever. -/
def endlessReader (bytes : List Byte) : State := { reader bytes with srcRest := .zeros }

/-- A reader whose source supplies these bytes and then an IoErr. -/
def failingReader (bytes : List Byte) : State :=
  { State.reset with bsMode := .read, srcTape := bytes.map .byte ++ [.ioErr] }

/-- `s` with the block parameter `m`. -/
def withM (m : Half) (s : State) : State := setM m s

/-- The state after a command; `s` where the command gives none. -/
def after (i : Instr) (s : State) : State :=
  match exec i s with
  | .next t => t
  | .fault _ => s
  | .refused _ => s

/-! ### One step of each command -/

theorem test_openw : (after .bsOpenw State.reset).bsMode = .write := by decide

/-- Section 2.2: WRITE, BS.OPENR. -/
theorem test_openr_while_writing :
    (after .bsOpenr (writer 0#8 0#3)).errCode = .illegalCommand ∧ (after .bsOpenr State.reset).bsMode = .read := by
  decide

/-- Section 2.2: CNT 3, BUF A0, BS.CLOSE. -/
theorem test_close_flushes :
    (after .bsClose (writer 0xA0#8 3#3)).sinkBytes = [0xA0#8] ∧
    (after .bsClose (writer 0xA0#8 3#3)).byteCnt = 1#64 := by decide

/-- Section 2.2: a reader's unread bits are dropped. -/
theorem test_close_drops :
    (after .bsClose { reader [] with buf := 0xD4#8, cnt := 4#3 }).buf = 0#8 ∧
    (after .bsClose { reader [] with buf := 0xD4#8, cnt := 4#3 }).bsMode = .closed := by decide

/-- Section 2.2: the eighth 1 completes FF. -/
theorem test_wrbit_eighth :
    (after (.bsWrbit true) (writer 0xFE#8 7#3)).sinkBytes = [0xFF#8] ∧
    (after (.bsWrbit true) (writer 0xFE#8 7#3)).cnt = 0#3 := by decide

/-- Section 2.2: BS.WRBIT in CLOSED, STATUS 00000500. -/
theorem test_wrbit_closed : statusWord (after (.bsWrbit true) State.reset) = 0x00000500#32 := by decide

/-- Section 2.2: OPA = 0b101, BS.WRBITS 3. -/
theorem test_wrbits_three :
    (after (.bsWrbits 3) { writer 0#8 0#3 with opa := 5#64 }).buf = 0xA0#8 ∧
    (after (.bsWrbits 3) { writer 0#8 0#3 with opa := 5#64 }).cnt = 3#3 := by decide

/-- Section 2.2: 64 bits, most significant byte first. -/
theorem test_wrbits_all :
    (after (.bsWrbits 64) { writer 0#8 0#3 with opa := 0x0123456789ABCDEF#64 }).sinkBytes =
      [0x01#8, 0x23#8, 0x45#8, 0x67#8, 0x89#8, 0xAB#8, 0xCD#8, 0xEF#8] := by decide

/-- Section 2.2: source 80, BS.RDBIT. -/
theorem test_rdbit : (after .bsRdbit (reader [0x80#8])).res = 1#64 := by decide

/-- Section 2.2: BS.RDBIT past the end. -/
theorem test_rdbit_eof :
    (after .bsRdbit (reader [])).res = 0xFFFFFFFFFFFFFFFF#64 ∧ (after .bsRdbit (reader [])).eos = true := by decide

/-- Section 2.2: source AB, BS.RDBITS 12. -/
theorem test_rdbits_padded :
    (after (.bsRdbits 12) (reader [0xAB#8])).res = 0xAB0#64 ∧ (after (.bsRdbits 12) (reader [0xAB#8])).eos = true := by
  decide

/-- V1: the field at bits 3 to 5 of D4 is 5. -/
theorem test_rdbits_field : (after (.bsRdbits 3) { reader [] with buf := 0xD4#8, cnt := 5#3 }).res = 5#64 := by decide

/-- Section 2.5: G.SETM 5, and G.SETM 0. -/
theorem test_setm :
    (after (.gSetm 5#16) State.reset).gB = 3#5 ∧ (after (.gSetm 5#16) State.reset).gCutoff = 3#16 ∧
    statusWord (after (.gSetm 0#16) State.reset) = 0x00000300#32 := by decide

theorem test_setmode : statusWord (after (.gSetmode .signAndMagnitude) State.reset) = 0x00000080#32 := by decide

/-- V3: M 3, n 4 is 01 10. -/
theorem test_encu :
    (after .gEncu (withM 3#16 { writer 0#8 0#3 with opa := 4#64 })).buf = 0x60#8 ∧
    (after .gEncu (withM 3#16 { writer 0#8 0#3 with opa := 4#64 })).cnt = 4#3 := by decide

/-- Section 2.3: M 5, n 4 is 1 111. -/
theorem test_encu_long_remainder :
    (after .gEncu (withM 5#16 { writer 0#8 0#3 with opa := 4#64 })).buf = 0xF0#8 := by decide

/-- Section 2.3: M 4, source 01: RES 28, EOS 1. -/
theorem test_decu_padded :
    (after .gDecu (withM 4#16 (reader [0x01#8]))).res = 28#64 ∧ (after .gDecu (withM 4#16 (reader [0x01#8]))).eos = true := by
  decide

/-- Section 2.3: M 4, source 00: the end of the stream inside the unary code. -/
theorem test_decu_eof :
    (after .gDecu (withM 4#16 (reader [0x00#8]))).errCode = .unexpectedEndOfStream ∧
    (after .gDecu (withM 4#16 (reader [0x00#8]))).byteCnt = 1#64 := by decide

/-- Section 2.4: interleaving, M 4, n −2 is 1 11. -/
theorem test_enc_interleaving :
    (after .gEnc (withM 4#16 { writer 0#8 0#3 with opa := 0xFFFFFFFFFFFFFFFE#64 })).buf = 0xE0#8 ∧
    (after .gEnc (withM 4#16 { writer 0#8 0#3 with opa := 0xFFFFFFFFFFFFFFFE#64 })).cnt = 3#3 := by decide

/-- Section 2.4 and V5: sign and magnitude, M 3, n −2 is 1 1 11. -/
theorem test_enc_sign :
    (after .gEnc (withM 3#16 { writer 0#8 0#3 with opa := 0xFFFFFFFE#64, gMode := .signAndMagnitude })).buf = 0xF0#8 := by
  decide

/-- V4: M 4, 97 begins with the code of 0, and 1 01 after it decodes to −1. -/
theorem test_dec_interleaving :
    (after .gDec (withM 4#16 (reader [0x97#8]))).res = 0#64 ∧
    (after .gDec (withM 4#16 { reader [] with buf := 0x97#8, cnt := 5#3 })).res = 0xFFFFFFFFFFFFFFFF#64 := by decide

/-- Section 2.4: sign and magnitude, M 4, 1 1 00 decodes to 0. -/
theorem test_dec_minus_zero :
    (after .gDec (withM 4#16 { reader [0xC0#8] with gMode := .signAndMagnitude, res := 7#64 })).res = 0#64 := by decide

/-- Section 2.5: source 00 AF and source AF only. -/
theorem test_rdm :
    (after .gRdm (reader [0x00#8, 0xAF#8])).gCutoff = 81#16 ∧ (after .gRdm (reader [0xAF#8])).gM = 44800#16 := by decide

/-- Section 2.5: a zero field is clamped to 1. -/
theorem test_rdm_zero :
    (after .gRdm (reader [0x00#8, 0x00#8])).gM = 1#16 ∧ (after .gRdm (reader [0x00#8, 0x00#8])).res = 1#64 := by decide

theorem test_ap_reset :
    (after .apReset { State.reset with prevL := 5#16, prevR := 6#16 }).prevL = 0#16 ∧
    (after .apReset { State.reset with prevL := 5#16, prevR := 6#16 }).prevR = 0#16 := by decide

/-- Section 2.6: PREV_L 32767, sample −32768. -/
theorem test_encl :
    (after .apEncl { State.reset with prevL := 0x7FFF#16, opa := 0x8000#64 }).res = 0xFFFFFFFFFFFF0001#64 ∧
    (after .apEncl { State.reset with prevL := 0x7FFF#16, opa := 0x8000#64 }).prevL = 0x8000#16 := by decide

/-- Section 2.6: PREV_L 1000, AP.ENCR 1005. -/
theorem test_encr :
    (after .apEncr { State.reset with prevL := 1000#16, opa := 1005#64 }).res = 5#64 ∧
    (after .apEncr { State.reset with prevL := 1000#16, opa := 1005#64 }).prevL = 1000#16 := by decide

/-- Section 2.6: PREV_L 32767, AP.DECL 1 wraps. -/
theorem test_decl :
    (after .apDecl { State.reset with prevL := 0x7FFF#16, opa := 1#64 }).res = 0xFFFFFFFFFFFF8000#64 := by decide

/-- Section 2.6: PREV_L 1000, AP.DECR 5. -/
theorem test_decr :
    (after .apDecr { State.reset with prevL := 1000#16, opa := 5#64 }).res = 1005#64 ∧
    (after .apDecr { State.reset with prevL := 1000#16, opa := 5#64 }).prevR = 1005#16 := by decide

/-- Section 2.7: A 10, B 20, C 15, and A 10, B 20, C 30. -/
theorem test_med_pred :
    (after .medPred { State.reset with opb := 0x0F140A#64 }).res = 15#64 ∧
    (after .medPred { State.reset with opb := 0x1E140A#64 }).res = 10#64 := by decide

/-- Section 2.7: A 0, B 255, C 0, x 0. -/
theorem test_med_enc :
    (after .medEnc { State.reset with opb := 0x00FF00#64, opa := 0#64 }).res = 0xFFFFFFFFFFFFFF01#64 := by decide

/-- Section 2.7: the two clamped rows. -/
theorem test_med_dec :
    (after .medDec { State.reset with opb := 0xC8C8C8#64, opa := 100#64 }).res = 255#64 ∧
    (after .medDec { State.reset with opb := 0x0A0A0A#64, opa := 0xFFFFFFFFFFFFFFCE#64 }).res = 0#64 := by decide

theorem test_est_clr :
    (after .estClr { State.reset with sum := 9#64, count := 3#32 }).sum = 0#64 ∧
    (after .estClr { State.reset with sum := 9#64, count := 3#32 }).count = 0#32 := by decide

/-- Section 2.8: the residual −2147483648, and a full COUNT. -/
theorem test_est_acc :
    (after .estAcc { State.reset with opa := 0x80000000#64 }).sum = 0x80000000#64 ∧
    (after .estAcc { State.reset with count := 0xFFFFFFFF#32 }).errCode = .overflow := by decide

/-- Section 2.8: SUM 1012, COUNT 4. -/
theorem test_est_m :
    (after .estM { State.reset with sum := 1012#64, count := 4#32 }).gM = 175#16 ∧
    (after .estM { State.reset with sum := 1012#64, count := 4#32 }).res = 175#64 := by decide

/-- Section 2.8: 2^31 saturates. -/
theorem test_est_m_saturates :
    (after .estM { State.reset with sum := 0x80000000#64, count := 1#32 }).gM = 65535#16 := by decide

/-- V9: a GICL header is no GACL header. -/
theorem test_gicl_is_not_gacl :
    parseGacl (giclBytes { width := 2, height := 2, adaptive := true, fixedM := 0 } ++ List.replicate 8 0#8) =
      .error .invalidFormat := by decide

/-- P6: the header bytes of the stereo file. -/
theorem test_gacl_bytes :
    gaclBytes { channels := 2, sampleRate := 44100, totalFrames := 2, adaptive := true, fixedM := 0 } =
      [0x47#8, 0x41#8, 0x43#8, 0x4C#8, 0x01#8, 0#8, 0x02#8, 0#8, 0x44#8, 0xAC#8, 0#8, 0#8, 0x10#8, 0#8, 0x02#8,
        0#8, 0#8, 0#8, 0#8, 0#8, 0#8, 0#8, 0x01#8, 0#8, 0#8] := by decide

/-- R303: an image that is not 8-bit greyscale, before any command. -/
theorem test_image_depth :
    imageEncode { grey8 := false, image := { width := 1, height := 1, pixels := [] } } true 0 State.reset =
      .raised .invalidParameter State.reset := by decide

/-! ### States that meet the hypotheses of the statements -/

/-- A core with `w` pending. -/
def busyWith (w : Word) : State := { State.reset with cstate := .busy w }

/-- A core HALTED by IllegalCommand. -/
def haltedCore : State := { State.reset with cstate := .halted, errCode := .illegalCommand }

theorem witness_decodeOfEncode :
    (Instr.bsWrbits 127).wellFormed = true ∧ (Instr.bsRdbits 0).wellFormed = true ∧
      (Instr.gSetm 0xFFFF#16).wellFormed = true := by decide

theorem witness_encodeOfDecode : decode 0x0500007F#32 = .ok (.bsWrbits 127) := by decide

/-- An undefined opcode, and a reserved bit of a defined one; the host has an access to make. -/
theorem witness_undefinedWordFaults :
    (busyWith 0x08000000#32).cstate = .busy 0x08000000#32 ∧
    TurnOf .core { busyWith 0x08000000#32 with turns := [.core], hostQueue := [.read 0 4] }
      { busyWith 0x08000000#32 with hostQueue := [.read 0 4] } ∧
    (¬∃ i, opcode i = (0x08000000#32).extractLsb' 24 8 ∧ 0x08000000#32 &&& reservedMask i = 0#32) ∧
    (busyWith 0x01000100#32).cstate = .busy 0x01000100#32 ∧
    TurnOf .core { busyWith 0x01000100#32 with turnRest := some .core }
      { busyWith 0x01000100#32 with turnRest := some .core } ∧
    ¬∃ i, opcode i = (0x01000100#32).extractLsb' 24 8 ∧ 0x01000100#32 &&& reservedMask i = 0#32 := by
  refine ⟨rfl, .inl ⟨[], rfl, rfl⟩, ?_, rfl, .inr (.inl ⟨rfl, rfl, rfl⟩), ?_⟩
  · rintro ⟨i, h, _⟩
    cases i <;> exact absurd h (by simp only [opcode]; decide)
  · rintro ⟨i, h, hm⟩
    cases i <;> first | exact absurd h (by simp only [opcode]; decide) | exact absurd hm (by decide)

theorem witness_stepRunsDecodedCommand :
    (busyWith 0x32000000#32).cstate = .busy 0x32000000#32 ∧ decode 0x32000000#32 = .ok .estM ∧
    TurnOf .core { busyWith 0x32000000#32 with hostQueue := [.read 0 4], turns := [.core, .host] }
      { busyWith 0x32000000#32 with hostQueue := [.read 0 4], turns := [.host] } ∧
    (Config.turnDraw 0 = .core → TurnOf .core (busyWith 0x32000000#32) { busyWith 0x32000000#32 with draws := 1 }) :=
  ⟨rfl, by decide, .inl ⟨_, rfl, rfl⟩, fun h => .inr (.inr ⟨rfl, rfl, h, rfl⟩)⟩

theorem witness_placedWordRunsNext :
    0x32000000 < 2 ^ 32 ∧ decodeTableWord 32 0x32000000 = some .estM ∧
    decodeTableWord 32 0x10FFFF = none ∧ decodeTableWord 32 0x1000FFFF = some (.gSetm 0xFFFF#16) := by decide

/-- A host whose next access is of 2 bytes stops the step. -/
theorem witness_stopsOnlyOnForeignAccess :
    ∀ t, step { State.reset with hostQueue := [.read (Config.coreBase + 254) 2] } ≠ .next t := by
  intro t h
  have hs : step { State.reset with hostQueue := [.read (Config.coreBase + 254) 2] } =
      hostAccess (.read (Config.coreBase + 254) 2) State.reset := rfl
  rw [hs, hostAccess, Laws.placeOf_add] at h
  exact absurd h (by simp [placeAt])

/-- Boundary offsets: 255 and 254 inside the block but misshapen, 256 outside. -/
theorem witness_foreignAccessStops :
    (255 < 256 ∧ (4 ≠ 4 ∨ 255 % 4 ≠ 0)) ∧ (0 < 256 ∧ (8 ≠ 4 ∨ 0 % 4 ≠ 0)) ∧ 256 ≤ 256 := by decide

/-- The host moves in HALTED and in IDLE, and while a command is pending when the turn is its. -/
theorem witness_stepMakesOldestAccess :
    (∀ w, haltedCore.cstate ≠ .busy w) ∧ haltedCore.hostQueue = [] ∧
    (∀ w, { State.reset with hostQueue := [.read 0 4] }.cstate ≠ .busy w) ∧
    { State.reset with hostQueue := [.read 0 4] }.hostQueue = .read 0 4 :: [] ∧
    TurnOf .host { busyWith 0#32 with turns := [.host], hostQueue := [.read 0 4] }
      { busyWith 0#32 with hostQueue := [.read 0 4] } ∧
    TurnOf .host { busyWith 0#32 with turnRest := some .host } { busyWith 0#32 with turnRest := some .host } :=
  ⟨(fun _ h => nomatch h), rfl, (fun _ h => nomatch h), rfl, .inl ⟨[], rfl, rfl⟩, .inr (.inl ⟨rfl, rfl, rfl⟩)⟩

theorem witness_cmdWriteResult :
    State.reset.cstate = .idle ∧ haltedCore.cstate ≠ .idle ∧ (busyWith 0#32).cstate ≠ .idle := by decide

theorem witness_operandWriteResult :
    (∃ w, (busyWith 0#32).cstate = .busy w) ∧ (∀ w, State.reset.cstate ≠ .busy w) ∧
    ∀ w, haltedCore.cstate ≠ .busy w :=
  ⟨⟨0#32, rfl⟩, (fun _ h => nomatch h), fun _ h => nomatch h⟩

theorem witness_otherWritesIgnored :
    (4 < 256 ∧ 4 % 4 = 0 ∧ 4 ∉ [0x00, 0x08, 0x10, 0x14, 0x18, 0x1C]) ∧
    (252 < 256 ∧ 252 % 4 = 0 ∧ 252 ∉ [0x00, 0x08, 0x10, 0x14, 0x18, 0x1C]) ∧
    (0xFFFFFFFE#32).getLsbD 0 = false := by decide

theorem witness_registerReadValues :
    (∀ w, haltedCore.cstate ≠ .busy w) ∧ 0 < 256 ∧ 0 % 4 = 0 ∧
    0 ∉ [0x04, 0x10, 0x14, 0x18, 0x1C, 0x20, 0x24, 0x28, 0x2C, 0x30, 0x38, 0x3C, 0x40, 0x48, 0x4C, 0x50] ∧
    252 < 256 ∧ 252 % 4 = 0 ∧
    252 ∉ [0x04, 0x10, 0x14, 0x18, 0x1C, 0x20, 0x24, 0x28, 0x2C, 0x30, 0x38, 0x3C, 0x40, 0x48, 0x4C, 0x50] :=
  ⟨(fun _ h => nomatch h), by decide⟩

theorem witness_statusReadFields : ∀ w, haltedCore.cstate ≠ .busy w := fun _ h => nomatch h

theorem witness_readsWhileBusy :
    (busyWith 0x16000000#32).cstate = .busy 0x16000000#32 ∧ (0x1C < 256 ∧ 0x1C % 4 = 0) ∧
    252 < 256 ∧ 252 % 4 = 0 ∧
    252 ∉ [0x04, 0x10, 0x14, 0x18, 0x1C, 0x20, 0x24, 0x28, 0x2C, 0x30, 0x38, 0x3C, 0x40, 0x48, 0x4C, 0x50] := by
  decide

/-- A reset while BUSY, while HALTED and while IDLE. -/
theorem witness_resetResult :
    (0x00000001#32).getLsbD 0 = true ∧ (busyWith 0x06000000#32).cstate = .busy 0x06000000#32 ∧
    (∀ w, haltedCore.cstate ≠ .busy w) ∧ ∀ w, State.reset.cstate ≠ .busy w :=
  ⟨by decide, rfl, (fun _ h => nomatch h), fun _ h => nomatch h⟩

/-- A reset of a command that completes, of one that never ends, and with no command pending. -/
theorem witness_resetAbandonsCommand :
    (0xFFFFFFFF#32).getLsbD 0 = true ∧
    hostAccess (.write (Config.coreBase + 8) 4 0xFFFFFFFF#32) (busyWith 0x06000000#32) =
      .next (softReset (busyWith 0x06000000#32)) ∧
    (∀ x, (afterCommand 0x06000000#32 (busyWith 0x06000000#32)).cstate ≠ .busy x) ∧
    (afterCommand 0x13000000#32 { endlessReader [] with cstate := .busy 0x13000000#32 }).cstate =
      .busy 0x13000000#32 ∧
    hostAccess (.write (Config.coreBase + 8) 4 0xFFFFFFFF#32) haltedCore = .next (softReset haltedCore) :=
  ⟨by decide, Laws.hostAccess_write (by decide) (by decide) _ _, (fun _ h => nomatch h), rfl,
    Laws.hostAccess_write (by decide) (by decide) _ _⟩

/-- The invariant holds of a core about to write, and the step gives a next state. -/
theorem witness_stepKeepsInvariant :
    CoreInv { writer 0xE0#8 3#3 with cstate := .busy 0x04000001#32, turns := [.core] } ∧
    step { writer 0xE0#8 3#3 with cstate := .busy 0x04000001#32, turns := [.core] } = .next (writer 0xF0#8 4#3) :=
  ⟨by decide, rfl⟩

/-- A HALTED core waits, and so does a BUSY one with LOST set; and a reset is the next step in IDLE, HALTED or BUSY. -/
theorem witness_haltedAndLostUntilReset :
    haltedCore.cstate = .halted ∧ step haltedCore = .next haltedCore ∧
    { busyWith 0#32 with lost := true, turnRest := some .host }.lost = true ∧
    step { busyWith 0#32 with lost := true, turnRest := some .host } =
      .next { busyWith 0#32 with lost := true, turnRest := some .host } ∧
    ResetNext { haltedCore with hostQueue := [.write (Config.coreBase + 8) 4 1#32] } ∧
    ResetNext { busyWith 0#32 with hostQueue := [.write (Config.coreBase + 8) 4 1#32], turns := [.host] } :=
  ⟨rfl, rfl, rfl, rfl, ⟨⟨1#32, [], rfl, by decide⟩, .inl fun _ h => nomatch h⟩,
    ⟨1#32, [], rfl, by decide⟩, .inr ⟨_, .inl ⟨[], rfl, rfl⟩⟩⟩

theorem witness_haltedDropsCommand : haltedCore.cstate = .halted := rfl

theorem witness_wrongModeFaults :
    State.reset.cstate ≠ .halted ∧ requiredMode (.bsWrbits 0) = some .write ∧ State.reset.bsMode ≠ .write ∧
    (writer 0#8 0#3).cstate ≠ .halted ∧ requiredMode .bsOpenr = some .closed ∧ (writer 0#8 0#3).bsMode ≠ .closed ∧
    requiredMode .gRdm = some .read ∧ (writer 0#8 0#3).bsMode ≠ .read := by decide

theorem witness_faultLeavesResults :
    (withM 4#16 (reader [0#8])).cstate ≠ .halted ∧
    exec .gDecu (withM 4#16 (reader [0#8])) = .next (after .gDecu (withM 4#16 (reader [0#8]))) ∧
    (after .gDecu (withM 4#16 (reader [0#8]))).cstate = .halted :=
  ⟨by decide, rfl, by decide⟩

/-- A command that completes, one that faults, and one that never ends. -/
theorem witness_writeSets :
    State.reset.cstate ≠ .halted ∧ exec .estAcc State.reset = .next (after .estAcc State.reset) ∧
    (after .estAcc State.reset).cstate = .idle ∧ writesRes .estAcc = false ∧ touchesStream .estAcc = false ∧
    writesEos .estAcc = false ∧ writesM .estAcc = false ∧
    (after .gDecu (reader [0#8])).cstate = .halted ∧ sourceEndless (endlessReader [0#8]) = true :=
  ⟨by decide, rfl, by decide⟩

/-- The states of every statement whose hypotheses are only 'not HALTED' and a BSMODE. -/
theorem witness_modes :
    State.reset.cstate ≠ .halted ∧ State.reset.bsMode = .closed ∧ (writer 0#8 0#3).cstate ≠ .halted ∧
    (writer 0#8 0#3).bsMode = .write ∧ (writer 0#8 0#3).bsMode ≠ .closed ∧ (reader []).cstate ≠ .halted ∧
    (reader []).bsMode = .read := by decide

/-- BS.CLOSE of a reader, of an empty writer, and of a writer whose flush is accepted or refused. -/
theorem witness_closeResult :
    (reader []).bsMode = .read ∧ ((writer 0#8 0#3).bsMode = .write ∧ (writer 0#8 0#3).cnt = 0#3) ∧
    ((writer 0x80#8 1#3).cnt ≠ 0#3 ∧ sinkAnswerAt 0 (writer 0x80#8 1#3) = .ok) ∧
    (refusingWriter 0x80#8 7#3).bsMode = .write ∧ (refusingWriter 0x80#8 7#3).cnt ≠ 0#3 ∧
    sinkAnswerAt 0 (refusingWriter 0x80#8 7#3) = .ioErr := by decide

theorem witness_closePadsWithZeros :
    (writer 0xA0#8 3#3).cstate ≠ .halted ∧ (writer 0xA0#8 3#3).bsMode = .write ∧ LowBitsZero (writer 0xA0#8 3#3) ∧
    exec .bsClose (writer 0xA0#8 3#3) = .next (after .bsClose (writer 0xA0#8 3#3)) ∧
    (after .bsClose (writer 0xA0#8 3#3)).cstate = .idle :=
  ⟨by decide, by decide, by decide, rfl, by decide⟩

theorem witness_writeBitResult :
    (writer 0xFE#8 7#3).cstate ≠ .halted ∧ (writer 0xFE#8 7#3).bsMode = .write ∧
    bytesCompleted 1 (writer 0xFE#8 7#3) = 1 ∧ SinkAccepts (bytesCompleted 1 (writer 0xFE#8 7#3)) (writer 0xFE#8 7#3) := by
  decide

theorem witness_writeFieldResult :
    (writer 0#8 0#3).cstate ≠ .halted ∧ (writer 0#8 0#3).bsMode = .write ∧ 1 ≤ 64 ∧ 64 ≤ 64 ∧
    SinkAccepts (bytesCompleted 64 (writer 0#8 0#3)) (writer 0#8 0#3) ∧
    SinkAccepts (bytesCompleted 1 (writer 0#8 0#3)) (writer 0#8 0#3) := by decide

theorem witness_outOfRangeFieldsFault :
    (writer 0#8 0#3).cstate ≠ .halted ∧ (0 = 0 ∨ 65 ≤ 0) ∧ (65 = 0 ∨ 65 ≤ 65) ∧ (writer 0#8 0#3).bsMode = .write ∧
    (reader []).cstate ≠ .halted ∧ (reader []).bsMode = .read := by decide

theorem witness_fieldWriteIsBitWrites :
    (writer 0#8 6#3).cstate ≠ .halted ∧ (writer 0#8 6#3).bsMode = .write ∧ 1 ≤ 3 ∧ 3 ≤ 64 ∧
    exec (.bsWrbits 3) (writer 0#8 6#3) = .next (after (.bsWrbits 3) (writer 0#8 6#3)) ∧
    (after (.bsWrbits 3) (writer 0#8 6#3)).cstate = .idle :=
  ⟨by decide, by decide, by decide, by decide, rfl, by decide⟩

/-- The first byte is refused to each of the four writing commands. -/
theorem witness_refusedByteFaults :
    (refusingWriter 0#8 7#3).cstate ≠ .halted ∧ (refusingWriter 0#8 7#3).bsMode = .write ∧
    SinkAccepts 0 (refusingWriter 0#8 7#3) ∧ sinkAnswerAt 0 (refusingWriter 0#8 7#3) = .ioErr ∧
    0 < bytesCompleted 1 (refusingWriter 0#8 7#3) ∧ (1 ≤ 64 ∧ 64 ≤ 64 ∧ 0 < bytesCompleted 64 (refusingWriter 0#8 7#3)) ∧
    0 < bytesCompleted (golombBits ((refusingWriter 0#8 7#3).opa.toNat % 2 ^ 32) (refusingWriter 0#8 7#3)).length
      (refusingWriter 0#8 7#3) ∧
    0 < bytesCompleted (signedBits ((refusingWriter 0#8 7#3).opa.setWidth 32).toInt (refusingWriter 0#8 7#3)).length
      (refusingWriter 0#8 7#3) := by decide

/-- A listed bit, a bit of the endless zero bytes, and EOF. -/
theorem witness_readBitResult :
    available 1 (reader [0x80#8]) = true :: List.replicate 7 false ∧
    available 1 (endlessReader []) = false :: List.replicate 7 false ∧ available 1 (reader []) = [] ∧
    sourceFails (reader []) = false := by decide

/-- The width at both ends, with and without EOF, and over endless zero bytes. -/
theorem witness_readFieldResult :
    CanRead 1 (failingReader [0xAB#8]) ∧ CanRead 8 (failingReader [0xAB#8]) ∧ CanRead 64 (reader [0xAB#8]) ∧
    CanRead 64 (endlessReader [0xAB#8]) ∧ (failingReader [0xAB#8]).cstate ≠ .halted ∧
    (failingReader [0xAB#8]).bsMode = .read := by decide

theorem witness_sourceErrorFaults :
    (failingReader []).cstate ≠ .halted ∧ (failingReader []).bsMode = .read ∧ sourceFails (failingReader []) = true ∧
    unreadBits (failingReader []) = [] ∧ (unreadBits (failingReader [])).length < 1 ∧
    (unreadBits (failingReader [])).length < 16 ∧ unreadBits (failingReader []) = List.replicate 0 false ∧
    (failingReader []).gMode = .interleaving := by decide

/-- The source fails inside a remainder; under sign and magnitude, also on the sign and inside the unary code. -/
theorem witness_sourceErrorFaults_inside :
    sourceFails (withM 4#16 (failingReader [0x01#8])) = true ∧
    unreadBits (withM 4#16 (failingReader [0x01#8])) = unaryBits 7 ++ [] ∧
    ([] : List Bool).length < remainderLength [] (withM 4#16 (failingReader [0x01#8])) ∧
    unreadBits { withM 4#16 (failingReader []) with gMode := .signAndMagnitude } = [] ∧
    unreadBits { withM 4#16 (failingReader [0x80#8]) with gMode := .signAndMagnitude } =
      true :: List.replicate 7 false ∧
    unreadBits { withM 4#16 (failingReader [0x81#8]) with gMode := .signAndMagnitude } = true :: (unaryBits 6 ++ []) ∧
    ([] : List Bool).length < remainderLength [] { withM 4#16 (failingReader [0x81#8]) with gMode := .signAndMagnitude } := by decide

/-- A writer of 5 in 3 bits. -/
def writesFive : State := { writer 0#8 0#3 with opa := 5#64 }

theorem witness_fieldRoundTrip :
    writesFive.cstate ≠ .halted ∧ writesFive.bsMode = .write ∧ 1 ≤ 3 ∧ 3 ≤ 64 ∧
    exec (.bsWrbits 3) writesFive = .next (after (.bsWrbits 3) writesFive) ∧
    (after (.bsWrbits 3) writesFive).cstate = .idle ∧
    writtenBits (after (.bsWrbits 3) writesFive) = writtenBits writesFive ++ [true, false, true] ∧
    (reader [0xA0#8]).cstate ≠ .halted ∧ (reader [0xA0#8]).bsMode = .read ∧
    unreadBits (reader [0xA0#8]) = [true, false, true] ++ List.replicate 5 false :=
  ⟨by decide, by decide, by decide, by decide, rfl, by decide⟩

theorem witness_setMResult : State.reset.cstate ≠ .halted ∧ 0#16 = 0#16 ∧ 0xFFFF#16 ≠ 0#16 ∧ 1#16 ≠ 0#16 := by decide

theorem witness_encodeUnsignedResult :
    writesFive.cstate ≠ .halted ∧ writesFive.bsMode = .write ∧
    SinkAccepts (bytesCompleted (golombBits (writesFive.opa.toNat % 2 ^ 32) writesFive).length writesFive) writesFive := by
  decide

/-- M 4, source 01: q 7, an empty tail and EOF; the value 28 fits. -/
theorem witness_decodeUnsignedResult :
    (withM 4#16 (reader [0x01#8])).cstate ≠ .halted ∧ (withM 4#16 (reader [0x01#8])).bsMode = .read ∧
    unreadBits (withM 4#16 (reader [0x01#8])) = unaryBits 7 ++ [] ∧
    CanRead (7 + 1 + remainderLength [] (withM 4#16 (reader [0x01#8]))) (withM 4#16 (reader [0x01#8])) ∧
    7 * (withM 4#16 (reader [0x01#8])).gM.toNat + remainderValue [] (withM 4#16 (reader [0x01#8])) < 2 ^ 32 := by decide

/-- A reader whose source supplies `n` zero bytes between two runs of bytes, and then EOF. -/
def zerosReader (first : List Byte) (n : Nat) (last : List Byte) (m : Half) (mode : GMode) : State :=
  withM m { State.reset with
    bsMode := .read
    gMode := mode
    srcTape := first.map .byte ++ (List.replicate n (.byte 0#8) ++ last.map .byte)
    srcRest := .eof }

theorem zerosReader_bits (first last : List Byte) (n : Nat) (m : Half) (mode : GMode) :
    unreadBits (zerosReader first n last m mode) =
      first.flatMap byteBits ++ (List.replicate (8 * n) false ++ last.flatMap byteBits) ∧
    sourceFails (zerosReader first n last m mode) = false ∧
    ∀ tail, remainderValue tail (zerosReader first n last m mode) = remainderValue tail (withM m State.reset) := by
  have hp : pendingAnswers (zerosReader first n last m mode) =
      first.map .byte ++ (List.replicate n (.byte 0#8) ++ (last.map .byte ++ [])) := by
    simp [pendingAnswers, tailAnswers, zerosReader, withM, State.reset]
  have hb : unreadBits (zerosReader first n last m mode) =
      (suppliedBytes (pendingAnswers (zerosReader first n last m mode))).flatMap byteBits := rfl
  have hf : sourceFails (zerosReader first n last m mode) =
      endsInIoErr (pendingAnswers (zerosReader first n last m mode)) := rfl
  refine ⟨?_, ?_, fun _ => rfl⟩
  · rw [hb, hp, Laws.suppliedBytes_bytes, Laws.suppliedBytes_zeros, Laws.suppliedBytes_bytes, List.flatMap_append,
      List.flatMap_append, Laws.flatMap_zeros]
    simp [suppliedBytes]
  · rw [hf, hp, Laws.endsInIoErr_bytes, Laws.endsInIoErr_zeros, Laws.endsInIoErr_bytes]
    rfl

theorem unaryBits_add (a b : Nat) : unaryBits (a + b) = List.replicate a false ++ unaryBits b := by
  rw [unaryBits, unaryBits, ← List.append_assoc, List.replicate_append_replicate]

/-- M 65535, the two ends of section 2.3: 2^32 − 1 fits, 2^32 is Overflow. -/
theorem witness_decodeUnsignedResult_bounds :
    unreadBits (zerosReader [] 8192 [0x40#8] 0xFFFF#16 .interleaving) = unaryBits 65537 ++ List.replicate 6 false ∧
    sourceFails (zerosReader [] 8192 [0x40#8] 0xFFFF#16 .interleaving) = false ∧
    65537 * 65535 + remainderValue (List.replicate 6 false) (zerosReader [] 8192 [0x40#8] 0xFFFF#16 .interleaving) =
      2 ^ 32 - 1 ∧
    unreadBits (zerosReader [] 8192 [0x40#8, 0x00#8, 0x80#8] 0xFFFF#16 .interleaving) =
      unaryBits 65537 ++ (List.replicate 14 false ++ [true] ++ List.replicate 7 false) ∧
    sourceFails (zerosReader [] 8192 [0x40#8, 0x00#8, 0x80#8] 0xFFFF#16 .interleaving) = false ∧
    65537 * 65535 + remainderValue (List.replicate 14 false ++ [true] ++ List.replicate 7 false)
      (zerosReader [] 8192 [0x40#8, 0x00#8, 0x80#8] 0xFFFF#16 .interleaving) = 2 ^ 32 := by
  obtain ⟨b1, f1, r1⟩ := zerosReader_bits [] [0x40#8] 8192 0xFFFF#16 .interleaving
  obtain ⟨b2, f2, r2⟩ := zerosReader_bits [] [0x40#8, 0x00#8, 0x80#8] 8192 0xFFFF#16 .interleaving
  rw [b1, b2, r1, r2, unaryBits_add 65536 1, List.append_assoc, List.append_assoc]
  exact ⟨congrArg (List.replicate 65536 false ++ ·) (by decide), f1, by decide,
    congrArg (List.replicate 65536 false ++ ·) (by decide), f2, by decide⟩

/-- Sign and magnitude, M 65535, sign 0 and a unary code of 65543: the magnitude passes 2^31 − 1. -/
theorem witness_decodeSignMagnitudeResult_overflow :
    unreadBits (zerosReader [0x00#8] 8192 [0x80#8] 0xFFFF#16 .signAndMagnitude) =
      false :: (unaryBits 65543 ++ List.replicate 7 false) ∧
    sourceFails (zerosReader [0x00#8] 8192 [0x80#8] 0xFFFF#16 .signAndMagnitude) = false ∧
    2 ^ 31 - (!false).toNat < 65543 * 65535 + remainderValue (List.replicate 7 false)
      (zerosReader [0x00#8] 8192 [0x80#8] 0xFFFF#16 .signAndMagnitude) := by
  obtain ⟨b, f, r⟩ := zerosReader_bits [0x00#8] [0x80#8] 8192 0xFFFF#16 .signAndMagnitude
  rw [b, r]
  refine ⟨?_, f, by decide⟩
  have h1 : [0x00#8].flatMap byteBits = false :: List.replicate 7 false := by decide
  have h2 : [0x80#8].flatMap byteBits = unaryBits 0 ++ List.replicate 7 false := by decide
  rw [h1, h2, unaryBits_add 7 65536, unaryBits_add 65536 0, List.cons_append, List.append_assoc, List.append_assoc]

theorem witness_endOfStreamFaults :
    (reader [0#8]).cstate ≠ .halted ∧ (reader [0#8]).bsMode = .read ∧ sourceFails (reader [0#8]) = false ∧
    sourceEndless (reader [0#8]) = false ∧
    unreadBits (reader [0#8]) = List.replicate 8 false ∧ (reader [0#8]).gMode = .interleaving ∧
    unreadBits { reader [0x80#8] with gMode := .signAndMagnitude } = true :: List.replicate 7 false ∧
    unreadBits { reader [] with gMode := .signAndMagnitude } = [] := by decide

/-- A source of endless zero bytes, in both sign mappings. -/
theorem witness_endOfStreamFaults_endless :
    (endlessReader [0#8]).cstate ≠ .halted ∧ (endlessReader [0#8]).bsMode = .read ∧
    sourceEndless (endlessReader [0#8]) = true ∧ unreadBits (endlessReader [0#8]) = List.replicate 8 false ∧
    sourceEndless { endlessReader [0x80#8] with gMode := .signAndMagnitude } = true ∧
    unreadBits { endlessReader [0x80#8] with gMode := .signAndMagnitude } = true :: List.replicate 7 false ∧
    unreadBits { endlessReader [] with gMode := .signAndMagnitude } = [] := by decide

theorem witness_encodeSignedResult :
    writesFive.cstate ≠ .halted ∧ writesFive.bsMode = .write ∧
    SinkAccepts (bytesCompleted (signedBits (writesFive.opa.setWidth 32).toInt writesFive).length writesFive) writesFive := by
  decide

/-- M 4, source 97: q 0 and the remainder 0; and q 0 with the remainder 1 (an odd code). -/
theorem witness_decodeInterleavedResult :
    (withM 4#16 (reader [0x97#8])).gMode = .interleaving ∧
    unreadBits (withM 4#16 (reader [0x97#8])) = unaryBits 0 ++ [false, false, true, false, true, true, true] ∧
    CanRead (0 + 1 + remainderLength [false, false, true, false, true, true, true] (withM 4#16 (reader [0x97#8])))
      (withM 4#16 (reader [0x97#8])) ∧
    0 * 4 + remainderValue [false, false, true, false, true, true, true] (withM 4#16 (reader [0x97#8])) = 0 ∧
    unreadBits (withM 4#16 (reader [0xA0#8])) = unaryBits 0 ++ [false, true, false, false, false, false, false] ∧
    0 * 4 + remainderValue [false, true, false, false, false, false, false] (withM 4#16 (reader [0xA0#8])) = 1 := by decide

/-- M 4, sign and magnitude, source C0: minus zero. -/
theorem witness_decodeSignMagnitudeResult :
    { withM 4#16 (reader [0xC0#8]) with gMode := .signAndMagnitude }.cstate ≠ .halted ∧
    { withM 4#16 (reader [0xC0#8]) with gMode := .signAndMagnitude }.bsMode = .read ∧
    unreadBits { withM 4#16 (reader [0xC0#8]) with gMode := .signAndMagnitude } =
      true :: (unaryBits 0 ++ List.replicate 6 false) ∧
    CanRead (0 + 2 + remainderLength (List.replicate 6 false) { withM 4#16 (reader [0xC0#8]) with gMode := .signAndMagnitude })
      { withM 4#16 (reader [0xC0#8]) with gMode := .signAndMagnitude } ∧
    0 * 4 + remainderValue (List.replicate 6 false)
      { withM 4#16 (reader [0xC0#8]) with gMode := .signAndMagnitude } ≤ 2 ^ 31 - (!true).toNat := by decide

theorem witness_readBlockParameterResult :
    (reader [0xAF#8]).cstate ≠ .halted ∧ (reader [0xAF#8]).bsMode = .read ∧ CanRead 16 (reader [0xAF#8]) ∧
    CanRead 16 (failingReader [0x00#8, 0x00#8]) := by decide

/-- M 4, the value 5, under both sign mappings. -/
theorem witness_codewordLengths :
    (withM 4#16 writesFive).cstate ≠ .halted ∧ (withM 4#16 writesFive).bsMode = .write ∧
    exec .gEncu (withM 4#16 writesFive) = .next (after .gEncu (withM 4#16 writesFive)) ∧
    exec .gEnc (withM 4#16 writesFive) = .next (after .gEnc (withM 4#16 writesFive)) ∧
    exec .gEnc { withM 4#16 writesFive with gMode := .signAndMagnitude } =
      .next (after .gEnc { withM 4#16 writesFive with gMode := .signAndMagnitude }) ∧
    (withM 4#16 writesFive).gMode = .interleaving ∧ (after .gEncu (withM 4#16 writesFive)).cstate = .idle ∧
    (after .gEnc (withM 4#16 writesFive)).cstate = .idle ∧
    (after .gEnc { withM 4#16 writesFive with gMode := .signAndMagnitude }).cstate = .idle :=
  ⟨by decide, by decide, rfl, rfl, rfl, by decide⟩

/-- M 3, the value 5: code 01 11, read back from 70. -/
theorem witness_unsignedRoundTrip :
    GolombOk (withM 3#16 writesFive) ∧ (withM 3#16 writesFive).cstate ≠ .halted ∧ (withM 3#16 writesFive).bsMode = .write ∧
    exec .gEncu (withM 3#16 writesFive) = .next (after .gEncu (withM 3#16 writesFive)) ∧
    (after .gEncu (withM 3#16 writesFive)).cstate = .idle ∧
    writtenBits (after .gEncu (withM 3#16 writesFive)) = writtenBits (withM 3#16 writesFive) ++ [false, true, true, true] ∧
    (withM 3#16 (reader [0x70#8])).cstate ≠ .halted ∧ (withM 3#16 (reader [0x70#8])).bsMode = .read ∧
    (withM 3#16 (reader [0x70#8])).gM = (withM 3#16 writesFive).gM ∧
    (withM 3#16 (reader [0x70#8])).gB = (withM 3#16 writesFive).gB ∧
    (withM 3#16 (reader [0x70#8])).gCutoff = (withM 3#16 writesFive).gCutoff ∧
    unreadBits (withM 3#16 (reader [0x70#8])) = [false, true, true, true] ++ List.replicate 4 false :=
  ⟨by decide, by decide, by decide, rfl, by decide⟩

/-- A writer of −2 with M 4. -/
def writesMinusTwo : State := withM 4#16 { writer 0#8 0#3 with opa := 0xFFFFFFFFFFFFFFFE#64 }

/-- M 4, the value −2: 1 11 under interleaving. -/
theorem witness_signedRoundTrip :
    GolombOk writesMinusTwo ∧ writesMinusTwo.cstate ≠ .halted ∧ writesMinusTwo.bsMode = .write ∧
    exec .gEnc writesMinusTwo = .next (after .gEnc writesMinusTwo) ∧ (after .gEnc writesMinusTwo).cstate = .idle ∧
    writtenBits (after .gEnc writesMinusTwo) = writtenBits writesMinusTwo ++ [true, true, true] ∧
    (withM 4#16 (reader [0xE0#8])).cstate ≠ .halted ∧ (withM 4#16 (reader [0xE0#8])).bsMode = .read ∧
    (withM 4#16 (reader [0xE0#8])).gM = writesMinusTwo.gM ∧ (withM 4#16 (reader [0xE0#8])).gB = writesMinusTwo.gB ∧
    (withM 4#16 (reader [0xE0#8])).gCutoff = writesMinusTwo.gCutoff ∧
    (withM 4#16 (reader [0xE0#8])).gMode = writesMinusTwo.gMode ∧
    unreadBits (withM 4#16 (reader [0xE0#8])) = [true, true, true] ++ List.replicate 5 false :=
  ⟨by decide, by decide, by decide, rfl, by decide⟩

/-- M 4, the value −2: 1 1 10 under sign and magnitude. -/
theorem witness_signedRoundTrip_sign :
    GolombOk writesMinusTwo ∧ writesMinusTwo.bsMode = .write ∧
    exec .gEnc { writesMinusTwo with gMode := .signAndMagnitude } =
      .next (after .gEnc { writesMinusTwo with gMode := .signAndMagnitude }) ∧
    (after .gEnc { writesMinusTwo with gMode := .signAndMagnitude }).cstate = .idle ∧
    writtenBits (after .gEnc { writesMinusTwo with gMode := .signAndMagnitude }) =
      writtenBits writesMinusTwo ++ [true, true, true, false] ∧
    { withM 4#16 (reader [0xE0#8]) with gMode := .signAndMagnitude }.cstate ≠ .halted ∧
    { withM 4#16 (reader [0xE0#8]) with gMode := .signAndMagnitude }.bsMode = .read ∧
    (withM 4#16 (reader [0xE0#8])).gB = writesMinusTwo.gB ∧
    unreadBits { withM 4#16 (reader [0xE0#8]) with gMode := .signAndMagnitude } =
      [true, true, true, false] ++ List.replicate 4 false :=
  ⟨by decide, by decide, rfl, by decide⟩

/-- A left sample 7 after a left sample 5, and its residual in a decoder's OPA. -/
theorem witness_audioRoundTrip :
    { State.reset with prevL := 5#16, opa := 7#64 }.cstate ≠ .halted ∧
    exec .apEncl { State.reset with prevL := 5#16, opa := 7#64 } =
      .next { State.reset with prevL := 7#16, opa := 7#64, res := 2#64 } ∧
    exec .apEncr { State.reset with prevL := 5#16, opa := 7#64 } =
      .next { State.reset with prevL := 5#16, prevR := 7#16, opa := 7#64, res := 2#64 } ∧
    { State.reset with prevL := 5#16, opa := 2#64 }.prevL = { State.reset with prevL := 5#16, opa := 7#64 }.prevL ∧
    { State.reset with prevL := 5#16, opa := 2#64 }.opa = 2#64 :=
  ⟨by decide, rfl, rfl, rfl, rfl⟩

theorem witness_medRoundTrip :
    exec .medEnc { State.reset with opb := 0x1E140A#64 } =
      .next { State.reset with opb := 0x1E140A#64, res := 0xFFFFFFFFFFFFFFF6#64 } ∧
    (0xFF1E140A#64).setWidth 24 = (0x1E140A#64).setWidth 24 ∧
    { State.reset with opb := 0xFF1E140A#64, opa := 0xFFFFFFFFFFFFFFF6#64 }.opa = 0xFFFFFFFFFFFFFFF6#64 :=
  ⟨rfl, by decide, rfl⟩

/-- COUNT one below full, and full. -/
theorem witness_estimatorSumResult :
    { State.reset with count := 0xFFFFFFFE#32 }.count ≠ 0xFFFFFFFF#32 ∧
    EstimatorOk { State.reset with count := 0xFFFFFFFE#32 } ∧
    { State.reset with count := 0xFFFFFFFF#32 }.count = 0xFFFFFFFF#32 := by decide

theorem witness_headersReadBack :
    (1 = 1 ∨ 1 = 2) ∧ (2 = 1 ∨ 2 = 2) ∧ 2 ^ 32 - 1 < 2 ^ 32 ∧ 2 ^ 64 - 1 < 2 ^ 64 ∧ 65535 < 2 ^ 16 := by decide

/-- An estimate under the default parameters, and one under others (R9). -/
theorem witness_estimateResult :
    State.reset.cstate ≠ .halted ∧ State.reset.estRule = .rational 693147 1000000 ∧
    (after .estM { State.reset with sum := 20#64, count := 4#32, estRule := .rational 7 10 }).gM = 4#16 := by decide

theorem witness_hostDoRunsCommand :
    (Instr.gSetm 0#16).wellFormed = true ∧ State.reset.cstate = .idle ∧
    exec (.gSetm 0#16) { State.reset with cstate := .busy (encode (.gSetm 0#16)) } =
      .next { State.reset with cstate := .halted, errCode := .invalidParameter } ∧
    exec .estClr { State.reset with cstate := .busy (encode .estClr) } = .next State.reset ∧
    exec .gDecu { endlessReader [] with cstate := .busy (encode .gDecu) } =
      .next { endlessReader [] with cstate := .busy (encode .gDecu) } :=
  ⟨by decide, by decide, rfl, rfl, rfl⟩

end Sys2Proof.Tests
end

