-- ==== Sys2Proof/Proofs/Estimator.lean ====
section
/-! PROOF. EST.M: the range of the estimate, its load into M and RES, and the obligation on its result
(44_estimator.md R240, R243). -/

namespace Sys2Proof.Machine.Laws

/-- The rounded estimate of R240 is saturated at both ends. -/
theorem estimateWith_bounds (num den sum count : Nat) :
    1 ≤ estimateWith num den sum count ∧ estimateWith num den sum count ≤ 65535 := by
  unfold estimateWith
  split
  case isTrue => decide
  case isFalse => omega

/-- Whatever the configuration field `estimate` is, its value is in 1..65535 (I6, R240). -/
theorem estimate_bounds (r : EstimateRule) (sum count : Nat) :
    1 ≤ estimate r sum count ∧ estimate r sum count ≤ 65535 := by
  cases r with
  | rational num den => exact estimateWith_bounds num den sum count
  | other =>
    simp only [estimate]
    omega

/-- What EST.M leaves for the estimate `v`: M, with B and CUTOFF, and RES (R243). -/
def loadEstimate (v : Nat) (s : State) : State :=
  complete (setRes (unsignedResult v) (setM (BitVec.ofNat 16 v) s))

/-- EST.M is never refused for its BSMODE: it loads the estimate of SUM and COUNT (R243). -/
theorem exec_estM {s : State} (hs : s.cstate ≠ .halted) :
    exec .estM s = .next (loadEstimate (estimate s.estRule s.sum.toNat s.count.toNat) s) := by
  change execEstM s = _
  rw [execEstM, command_of_allowed hs (modeAllows_none s)]
  rfl

theorem loadEstimate_frame (v : Nat) (s : State) :
    loadEstimate v s = { s with
      cstate := .idle
      gM := (loadEstimate v s).gM
      gB := (loadEstimate v s).gB
      gCutoff := (loadEstimate v s).gCutoff
      res := (loadEstimate v s).res } := rfl

theorem loadEstimate_gM_toNat {v : Nat} (hv : v ≤ 65535) (s : State) : (loadEstimate v s).gM.toNat = v :=
  (BitVec.toNat_ofNat _ _).trans (Nat.mod_eq_of_lt (by omega))

theorem loadEstimate_res_toNat {v : Nat} (hv : v ≤ 65535) (s : State) : (loadEstimate v s).res.toNat = v :=
  (BitVec.toNat_ofNat _ _).trans (Nat.mod_eq_of_lt (by omega))

/-- B and CUTOFF are those of the loaded M: an estimate in 1..65535 is not 0 in M's 16 bits (R42). -/
theorem loadEstimate_golombOk {v : Nat} (h1 : 1 ≤ v) (hv : v ≤ 65535) (s : State) :
    GolombOk (loadEstimate v s) := by
  have hne : BitVec.ofNat 16 v ≠ 0#16 := by
    intro h
    have h0 : v = 0 := by rw [← loadEstimate_gM_toNat hv s]; exact congrArg BitVec.toNat h
    omega
  exact setM_golombOk hne s

end Sys2Proof.Machine.Laws

namespace Sys2Proof.Proofs

open Sys2Proof.Machine Sys2Proof.Machine.Laws

/-- Settles O58: EST.M loads the estimate, which its 16 bits of M and 64 bits of RES hold whole, and for a
rational ln 2 that estimate is the formula of R240. -/
theorem estimateResult : Obligations.EstimateResult := by
  refine ⟨rfl, rfl, fun s hs => ?_⟩
  obtain ⟨hlo, hhi⟩ := estimate_bounds s.estRule s.sum.toNat s.count.toNat
  have hM := loadEstimate_gM_toNat hhi s
  have hRes := loadEstimate_res_toNat hhi s
  refine ⟨_, exec_estM hs, loadEstimate_golombOk hlo hhi s, hRes.trans hM.symm, loadEstimate_frame _ s, ?_⟩
  intro num den hrule
  rw [hM, hrule]
  rfl

end Sys2Proof.Proofs
end

/-! PROOF. What a part of a command can change of the state, said once per part, and from it what every command,
every step and every host access keeps (10_state.md R31 to R49, 20_memory.md R70 to R74, 60_exceptions.md R306). -/

namespace Sys2Proof.Machine.Laws

/-! ### How a part of a command ends -/

/-- How a part of a command ends: `P` of the value and the state it completes with, `E` of the error and
the state it raises, `R` where it never ends. -/
def Ends {α : Type} (P : α → State → Prop) (E : ErrCode → State → Prop) (R : Prop) : Flow α → Prop
  | .done a t => P a t
  | .raised e t => E e t
  | .running => R

theorem Ends.mono {α : Type} {P Q : α → State → Prop} {E E' : ErrCode → State → Prop} {R R' : Prop} {f : Flow α}
    (h : Ends P E R f) (hP : ∀ a t, P a t → Q a t) (hE : ∀ e t, E e t → E' e t) (hR : R → R') :
    Ends Q E' R' f := by
  cases f with
  | done a t => exact hP a t h
  | raised e t => exact hE e t h
  | running => exact hR h

theorem Ends.andThen {α β : Type} {P : α → State → Prop} {Q : β → State → Prop} {E : ErrCode → State → Prop}
    {R : Prop} {f : Flow α} {k : α → State → Flow β} (h : Ends P E R f)
    (hk : ∀ a t, P a t → Ends Q E R (k a t)) : Ends Q E R (Machine.andThen f k) := by
  cases f with
  | done a t => exact hk a t h
  | raised e t => exact h
  | running => exact h

/-- The errors that the core records (R301). -/
def Recordable (e : ErrCode) : Prop := e ≠ .none ∧ e ≠ .invalidFormat

/-! ### Reading -/

/-- `t` is `s` with the stream read on: nothing but BUF, CNT, EOS, BYTECNT and the source's position changed,
and the source did not go back. -/
structure ReadOn (s t : State) : Prop where
  frame : t = { s with buf := t.buf, cnt := t.cnt, eos := t.eos, byteCnt := t.byteCnt, srcPos := t.srcPos }
  srcPos_le : s.srcPos ≤ t.srcPos

theorem ReadOn.trans {s t u : State} (h1 : ReadOn s t) (h2 : ReadOn t u) : ReadOn s u :=
  ⟨by rw [h2.frame, h1.frame], h1.srcPos_le.trans h2.srcPos_le⟩

theorem Took.readOn {n : Nat} {s t : State} (h : Took n s t) : ReadOn s t := by
  obtain ⟨k, -, -, hpos, -⟩ := h.moved
  exact ⟨h.frame, by omega⟩

theorem SourceFailed.readOn {s t : State} (h : SourceFailed s t) : ReadOn s t := by
  obtain ⟨hframe, k, -, -, hpos⟩ := h
  exact ⟨by rw [hframe], by omega⟩

/-- The part `f` of a command, started in `s`, only reads the stream on; it never ends only if `R`. -/
def Reads {α : Type} (R : Prop) (s : State) (f : Flow α) : Prop :=
  Ends (fun _ t => ReadOn s t ∧ sourceEndless t = sourceEndless s) (fun e t => Recordable e ∧ ReadOn s t) R f

theorem Took.reads {α : Type} {n : Nat} {s t : State} (h : Took n s t) (R : Prop) (a : α) :
    Reads R s (.done a t) := ⟨h.readOn, h.endless⟩

theorem Took.reads_raised {α : Type} {n : Nat} {s t : State} (h : Took n s t) (R : Prop) {e : ErrCode}
    (he : Recordable e) : Reads R s (.raised e t : Flow α) := ⟨he, h.readOn⟩

theorem SourceFailed.reads {α : Type} {s t : State} (h : SourceFailed s t) (R : Prop) :
    Reads R s (.raised .ioError t : Flow α) := ⟨⟨nofun, nofun⟩, h.readOn⟩

/-- Reading on after a part that read. -/
theorem Reads.andThen {α β : Type} {s : State} {f : Flow α} {k : α → State → Flow β}
    (h : Reads (sourceEndless s = true) s f) (hk : ∀ a t, Reads (sourceEndless t = true) t (k a t)) :
    Reads (sourceEndless s = true) s (Machine.andThen f k) := by
  refine Ends.andThen h fun a t ⟨hread, hend⟩ => (hk a t).mono ?_ ?_ ?_
  · exact fun _ u ⟨hu, he⟩ => ⟨hread.trans hu, he.trans hend⟩
  · exact fun _ u ⟨he, hu⟩ => ⟨he, hread.trans hu⟩
  · exact fun he => hend ▸ he

theorem reads_getBit (R : Prop) (s : State) : Reads R s (getBit s) := by
  rcases getBit_cases s with ⟨b, rest, t, -, hget, ht⟩ | ⟨t, -, -, -, hget, ht⟩ | ⟨t, -, -, hget, ht⟩
  · rw [hget]; exact ht.reads R _
  · rw [hget]; exact ht.reads R _
  · rw [hget]; exact SourceFailed.reads ht R

theorem reads_getField (R : Prop) (n : Nat) (s : State) : Reads R s (getField n s) := by
  obtain ⟨hread, hfail⟩ := getField_spec n s
  by_cases hc : CanRead n s
  · obtain ⟨t, hget, ht⟩ := hread hc
    rw [hget]; exact ht.reads R _
  · obtain ⟨t, hget, ht⟩ := hfail hc
    rw [hget]; exact SourceFailed.reads ht R

/-- `DecodeU` never ends only on a source of endless zero bits (R173, R360). -/
theorem reads_decodeU (s : State) : Reads (sourceEndless s = true) s (decodeU s) := by
  rcases zeros_or_one (unreadBits s) with hzeros | ⟨q, tail, hone⟩
  · obtain ⟨heof, hfail, hrun⟩ := decodeU_zeros hzeros
    cases he : sourceEndless s with
    | true => rw [hrun he]; exact rfl
    | false =>
      cases hf : sourceFails s with
      | true =>
        obtain ⟨t, hdec, ht⟩ := hfail hf
        rw [hdec]; exact SourceFailed.reads ht _
      | false =>
        obtain ⟨t, hdec, ht⟩ := heof hf he
        rw [hdec]; exact ht.reads_raised _ ⟨nofun, nofun⟩
  · obtain ⟨hread, hfail⟩ := decodeU_spec hone
    by_cases hc : CanRead (q + 1 + remainderLength tail s) s
    · obtain ⟨t, ht, hdec⟩ := hread hc
      rw [hdec]
      split
      · exact ht.reads_raised _ ⟨nofun, nofun⟩
      · exact ht.reads _ _
    · obtain ⟨t, hdec, ht⟩ := hfail hc
      rw [hdec]; exact SourceFailed.reads ht _

theorem reads_signMagnitude (R : Prop) (negative : Bool) (u : Nat) (s : State) :
    Reads R s (signMagnitude negative u s) := by
  unfold signMagnitude
  have hdone (n : Int) : Reads R s (.done n s) := (took_refl s).reads R n
  have hover : Reads R s (.raised .overflow s : Flow Int) := (took_refl s).reads_raised R ⟨nofun, nofun⟩
  split <;> split
  · exact hover
  · exact hdone _
  · exact hover
  · exact hdone _

theorem reads_decodeSigned (s : State) : Reads (sourceEndless s = true) s (decodeSigned s) := by
  unfold decodeSigned
  cases s.gMode with
  | interleaving => exact (reads_decodeU s).andThen fun _ t => (took_refl t).reads _ _
  | signAndMagnitude =>
    refine (reads_getBit _ s).andThen fun sign t => ?_
    cases sign with
    | none => exact (took_refl t).reads_raised _ ⟨nofun, nofun⟩
    | some negative => exact (reads_decodeU t).andThen fun u v => reads_signMagnitude _ negative u v

/-! ### Writing -/

/-- The sink port accepts the next `k` bytes, or refuses a first one of them (R84). -/
theorem sinkAccepts_or_refuses (k : Nat) (s : State) :
    SinkAccepts k s ∨ ∃ j < k, SinkAccepts j s ∧ sinkAnswerAt j s = .ioErr := by
  induction k with
  | zero => exact .inl nofun
  | succ k ih =>
    rcases ih with hall | ⟨j, hj, hacc, hio⟩
    · cases ha : sinkAnswerAt k s with
      | ok => exact .inl fun j hj => (Nat.lt_succ_iff_lt_or_eq.1 hj).elim (hall j) fun h => h ▸ ha
      | ioErr => exact .inr ⟨k, Nat.lt_succ_self k, hall, ha⟩
    · exact .inr ⟨j, Nat.lt_succ_of_lt hj, hacc, hio⟩

/-- A part that writes completes with its bits written, or is refused a byte of them. -/
theorem Writes.ends {bits : List Bool} {s : State} {f : Flow Unit} (h : Writes bits s f) :
    Ends (fun _ t => Wrote bits s t) (fun e t => e = .ioError ∧ ∃ j, RefusedAt j bits s t) False f := by
  obtain ⟨hdone, hrefused⟩ := h
  rcases sinkAccepts_or_refuses (bytesCompleted bits.length s) s with hacc | ⟨j, hj, hacc, hio⟩
  · obtain ⟨t, rfl, ht⟩ := hdone hacc
    exact ht
  · obtain ⟨t, rfl, ht⟩ := hrefused j hj hacc hio
    exact ⟨rfl, j, ht⟩

/-- `t` is `s` with bytes offered to the sink: nothing but BUF, CNT, BYTECNT and the sink changed. -/
def WroteOn (s t : State) : Prop :=
  t = { s with
    buf := t.buf, cnt := t.cnt, byteCnt := t.byteCnt, sinkBytes := t.sinkBytes, sinkAsked := t.sinkAsked }

theorem Wrote.wroteOn {bits : List Bool} {s t : State} (h : Wrote bits s t) : WroteOn s t := h.1

theorem RefusedAt.wroteOn {j : Nat} {bits : List Bool} {s t : State} (h : RefusedAt j bits s t) :
    WroteOn s t := by
  have hframe := h.1
  rw [WroteOn, hframe]

/-! ### What a command keeps -/

/-- The registers and the environment that R49 does not list for `i` are in `u` as in `s`, and the source did
not go back. CSTATE, ERRCODE and, after an IoError, BUF and CNT are fault entry's to write. -/
structure WriteSet (i : Instr) (s u : State) : Prop where
  opa : u.opa = s.opa
  opb : u.opb = s.opb
  lost : u.lost = s.lost
  sinkPlan : u.sinkPlan = s.sinkPlan
  srcTape : u.srcTape = s.srcTape
  srcRest : u.srcRest = s.srcRest
  hostQueue : u.hostQueue = s.hostQueue
  hostReplies : u.hostReplies = s.hostReplies
  turns : u.turns = s.turns
  turnRest : u.turnRest = s.turnRest
  estRule : u.estRule = s.estRule
  res : writesRes i = false → u.res = s.res
  stream : touchesStream i = false →
    u.bsMode = s.bsMode ∧ u.buf = s.buf ∧ u.cnt = s.cnt ∧ u.byteCnt = s.byteCnt ∧
      u.sinkBytes = s.sinkBytes ∧ u.sinkAsked = s.sinkAsked ∧ u.srcPos = s.srcPos ∧ u.draws = s.draws
  bsMode : i ≠ .bsOpenw → i ≠ .bsOpenr → i ≠ .bsClose → u.bsMode = s.bsMode
  eos : writesEos i = false → u.eos = s.eos
  golomb : writesM i = false → u.gM = s.gM ∧ u.gB = s.gB ∧ u.gCutoff = s.gCutoff
  gMode : (∀ m, i ≠ .gSetmode m) → u.gMode = s.gMode
  prevL : i ≠ .apReset → i ≠ .apEncl → i ≠ .apDecl → u.prevL = s.prevL
  prevR : i ≠ .apReset → i ≠ .apEncr → i ≠ .apDecr → u.prevR = s.prevR
  estimator : i ≠ .estClr → i ≠ .estAcc → u.sum = s.sum ∧ u.count = s.count
  srcPos_le : s.srcPos ≤ u.srcPos

theorem WriteSet.refl (i : Instr) (s : State) : WriteSet i s s := by
  constructor <;> simp

theorem WriteSet.complete {i : Instr} {s u : State} (h : WriteSet i s u) : WriteSet i s (complete u) :=
  { h with }

/-- Fault entry writes nothing but CSTATE and ERRCODE, and after an IoError the bit buffer and a draw (R306). -/
theorem WriteSet.faultEntry {i : Instr} {s u : State} {e : ErrCode} (h : WriteSet i s u)
    (he : e = .ioError → touchesStream i = true) : WriteSet i s (faultEntry e u) := by
  by_cases hio : e = .ioError
  · subst hio
    exact { h with stream := fun hi => absurd (he rfl) (by simp [hi]) }
  · rw [faultEntry_of_ne_ioError u e hio]
    exact { h with }

theorem WriteSet.setRes {i : Instr} {s u : State} (h : WriteSet i s u) (hi : writesRes i = true) (v : DWord) :
    WriteSet i s (setRes v u) :=
  { h with res := fun hi' => absurd hi (by simp [hi']) }

theorem WriteSet.setM {i : Instr} {s u : State} (h : WriteSet i s u) (hi : writesM i = true) (v : Half) :
    WriteSet i s (setM v u) :=
  { h with golomb := fun hi' => absurd hi (by simp [hi']) }

theorem WriteSet.readOn {i : Instr} {s u : State} (h : ReadOn s u) (hs : touchesStream i = true)
    (he : writesEos i = true) : WriteSet i s u := by
  obtain ⟨hframe, hpos⟩ := h
  rw [hframe]
  constructor <;> simp [hs, he, hpos]

theorem WriteSet.wroteOn {i : Instr} {s u : State} (h : WroteOn s u) (hs : touchesStream i = true) :
    WriteSet i s u := by
  rw [WroteOn] at h
  rw [h]
  constructor <;> simp [hs]

/-! ### The parts of the invariant -/

/-- The Golomb registers of `u` agree and its sum is bounded where those of `s` do (R42, R242). -/
structure KeepsRegs (s u : State) : Prop where
  golomb : GolombOk s → GolombOk u
  estimator : EstimatorOk s → EstimatorOk u

/-- The bit buffer is as R39 says, the state after an IoError apart (R306). -/
def BufferSound (s : State) : Prop :=
  (s.bsMode = .closed → s.buf = 0#8 ∧ s.cnt = 0#3) ∧ (s.bsMode = .write → LowBitsZero s)

theorem KeepsRegs.refl (s : State) : KeepsRegs s s := ⟨id, id⟩

theorem ReadOn.keepsRegs {s u : State} (h : ReadOn s u) : KeepsRegs s u := by
  rw [h.frame]; exact ⟨id, id⟩

theorem WroteOn.keepsRegs {s u : State} (h : WroteOn s u) : KeepsRegs s u := by
  rw [WroteOn] at h
  rw [h]; exact ⟨id, id⟩

theorem KeepsRegs.faultEntry {s u : State} (h : KeepsRegs s u) (e : ErrCode) : KeepsRegs s (faultEntry e u) := by
  constructor
  · intro hg; simpa [GolombOk] using h.golomb hg
  · intro he; simpa [EstimatorOk] using h.estimator he

theorem bufferSound_faultEntry {e : ErrCode} {s : State} (he : e ≠ .ioError) (h : BufferSound s) :
    BufferSound (faultEntry e s) := by
  rw [faultEntry_of_ne_ioError s e he]; exact h

/-- R39 says nothing of a reader's buffer. -/
theorem bufferSound_of_read {s : State} (h : s.bsMode = .read) : BufferSound s := by
  simp [BufferSound, h]

theorem BufferSound.wrote {bits : List Bool} {s u : State} (h : BufferSound s) (hs : s.bsMode = .write)
    (hw : Wrote bits s u) : BufferSound u := by
  obtain ⟨hframe, -, -, -, -, hlow⟩ := hw
  have hmode : u.bsMode = .write := by rw [hframe]; exact hs
  exact ⟨fun hc => by simp [hmode] at hc, fun _ => hlow (h.2 hs)⟩

/-! ### The outcomes of a command -/

/-- What the body of `i` leaves when it completes. -/
structure Completes (i : Instr) (s u : State) : Prop where
  errCode : u.errCode = s.errCode
  writeSet : WriteSet i s u
  regs : KeepsRegs s u
  buffer : BufferSound s → BufferSound u

/-- What the body of `i` leaves when it raises `e`. -/
structure Raises (i : Instr) (s : State) (e : ErrCode) (u : State) : Prop where
  recordable : Recordable e
  ioError : e = .ioError → touchesStream i = true
  writeSet : WriteSet i s u
  regs : KeepsRegs s u
  buffer : e ≠ .ioError → BufferSound s → BufferSound u

/-- The commands that may never end, and only on endless zero bits (R360). -/
def NeverEnds (i : Instr) (s : State) : Prop := (i = .gDecu ∨ i = .gDec) ∧ sourceEndless s = true

/-- The part `f` of the command `i`, started in `s`, stays within what R49 lists for `i`. -/
def BodyOf (i : Instr) (s : State) (f : Flow Unit) : Prop :=
  Ends (fun _ u => Completes i s u) (Raises i s) (NeverEnds i s) f

/-- A body that raises an error before it did anything. -/
theorem bodyOf_raised (i : Instr) (s : State) {e : ErrCode} (he : Recordable e) (hio : e ≠ .ioError) :
    BodyOf i s (.raised e s) :=
  ⟨he, fun h => absurd h hio, WriteSet.refl i s, KeepsRegs.refl s, fun _ => id⟩

/-- A body that writes bits to the sink. -/
theorem Writes.bodyOf {i : Instr} {bits : List Bool} {s : State} {f : Flow Unit} (h : Writes bits s f)
    (hi : touchesStream i = true) (hs : s.bsMode = .write) : BodyOf i s f := by
  refine h.ends.mono (fun _ u hw => ?_) (fun e u ⟨he, j, hr⟩ => ?_) False.elim
  · have hon := hw.wroteOn
    exact ⟨by rw [hw.1], WriteSet.wroteOn hon hi, hon.keepsRegs, fun hb => hb.wrote hs hw⟩
  · subst he
    have hon := RefusedAt.wroteOn hr
    exact ⟨⟨nofun, nofun⟩, fun _ => hi, WriteSet.wroteOn hon hi, hon.keepsRegs, fun h => absurd rfl h⟩

/-- A body that reads the stream on and then goes on with `k`. -/
theorem Reads.bodyOf {α : Type} {i : Instr} {s : State} {f : Flow α} {k : α → State → Flow Unit}
    (h : Reads (NeverEnds i s) s f) (hs : s.bsMode = .read) (hi : touchesStream i = true)
    (he : writesEos i = true) (hk : ∀ a u, f = .done a u → ReadOn s u → BodyOf i s (k a u)) :
    BodyOf i s (Machine.andThen f k) := by
  cases f with
  | done a u => exact hk a u rfl h.1
  | raised e u =>
    obtain ⟨hrec, hu⟩ := h
    exact ⟨hrec, fun _ => hi, WriteSet.readOn hu hi he, hu.keepsRegs,
      fun _ _ => bufferSound_of_read (by rw [hu.frame]; exact hs)⟩
  | running => exact h

/-- A reading body's last part: RES takes a value. -/
theorem ReadOn.bodyOf_setRes {i : Instr} {s u : State} (h : ReadOn s u) (hs : s.bsMode = .read)
    (hi : touchesStream i = true) (he : writesEos i = true) (hr : writesRes i = true) (v : DWord) :
    BodyOf i s (.done () (setRes v u)) :=
  ⟨by rw [setRes_errCode, h.frame], (WriteSet.readOn h hi he).setRes hr v, ⟨h.keepsRegs.golomb, h.keepsRegs.estimator⟩,
    fun _ => bufferSound_of_read (by rw [setRes_bsMode, h.frame]; exact hs)⟩

/-- Everything a command that is not HALTED can leave, when its body stays within R49's list (R306, R310). -/
theorem command_outcome {i : Instr} {need : Option BsMode} {body : State → Flow Unit} {s t : State}
    (hs : s.cstate ≠ .halted) (h : command need body s = .next t)
    (hbody : modeAllows need s = true → BodyOf i s (body s)) :
    (∃ u, Completes i s u ∧ t = complete u) ∨ (∃ e u, Raises i s e u ∧ t = faultEntry e u) ∨
      NeverEnds i s ∧ t = s := by
  rcases command_cases h with
    ⟨hh, -⟩ | ⟨-, -, ht⟩ | ⟨-, hm, u, hu, ht⟩ | ⟨-, hm, e, u, hu, ht⟩ | ⟨-, hm, hu, ht⟩
  · exact absurd hh hs
  · exact .inr (.inl ⟨.illegalCommand, s, bodyOf_raised i s ⟨nofun, nofun⟩ nofun, ht⟩)
  · rw [hu] at hbody
    exact .inl ⟨u, hbody hm, ht⟩
  · rw [hu] at hbody
    exact .inr (.inl ⟨e, u, hbody hm, ht⟩)
  · rw [hu] at hbody
    exact .inr (.inr ⟨hbody hm, ht⟩)

/-! ### The commands -/

/-- Binding a closed stream (R145, R146): the buffer is empty. -/
theorem bodyOf_openStream {i : Instr} (h : i = .bsOpenw ∨ i = .bsOpenr) (m : BsMode) (s : State) :
    BodyOf i s (.done () (openStream m s)) := by
  refine ⟨rfl, ?_, ⟨id, id⟩, fun _ => ⟨fun _ => ⟨rfl, rfl⟩, fun _ j _ => BitVec.getLsbD_zero⟩⟩
  rcases h with rfl | rfl <;> constructor <;> simp [touchesStream, writesEos]

/-- The flush of BS.CLOSE sends a byte, or does nothing (R147). -/
theorem flushPending_ends (s : State) :
    Ends (fun _ u => u = s ∨ WroteOn s u ∧ s.bsMode = .write) (fun e u => e = .ioError ∧ WroteOn s u) False
      (flushPending s) := by
  unfold flushPending putByte
  split
  case isTrue h =>
    cases sinkAnswer s with
    | ok => exact .inr ⟨rfl, h.1⟩
    | ioErr => exact ⟨rfl, rfl⟩
  case isFalse => exact .inl rfl

theorem bodyOf_bsClose (s : State) :
    BodyOf .bsClose s (andThen (flushPending s) fun _ u =>
      .done () (if u.bsMode = .closed then u else closeStream u)) := by
  have hflush : Ends (fun _ u => u = s ∨ WroteOn s u ∧ s.bsMode = .write) (Raises .bsClose s)
      (NeverEnds .bsClose s) (flushPending s) :=
    (flushPending_ends s).mono (fun _ _ => id)
      (fun e u ⟨he, hu⟩ => ⟨by subst he; exact ⟨nofun, nofun⟩, fun _ => rfl, WriteSet.wroteOn hu rfl, hu.keepsRegs,
        fun h => absurd he h⟩) False.elim
  have hclosed (u : State) (hu : WroteOn s u) : Completes .bsClose s (closeStream u) := by
    refine ⟨by rw [closeStream_errCode, hu], ?_, ⟨hu.keepsRegs.golomb, hu.keepsRegs.estimator⟩, fun _ =>
      ⟨fun _ => ⟨rfl, rfl⟩, nofun⟩⟩
    exact { WriteSet.wroteOn (i := .bsClose) hu rfl with stream := nofun, bsMode := fun _ _ h => absurd rfl h }
  refine hflush.andThen fun _ u hu => ?_
  by_cases hc : u.bsMode = .closed
  · rcases hu with rfl | ⟨hu, hw⟩
    · simp only [hc, if_true]
      exact ⟨rfl, WriteSet.refl _ _, KeepsRegs.refl _, id⟩
    · rw [hu] at hc
      exact absurd (hc.symm.trans hw) nofun
  · simp only [hc, if_false]
    exact hclosed u (hu.elim (fun h => h ▸ rfl) And.left)

/-- Loading a legal M keeps all but M, B and CUTOFF (R42). -/
theorem KeepsRegs.setM {s u : State} (h : KeepsRegs s u) {v : Half} (hv : v ≠ 0#16) : KeepsRegs s (setM v u) :=
  ⟨fun _ => setM_golombOk hv u, h.estimator⟩

theorem bodyOf_gSetm (imm : Half) (s : State) :
    BodyOf (.gSetm imm) s (if imm = 0#16 then .raised .invalidParameter s else .done () (setM imm s)) := by
  split
  case isTrue => exact bodyOf_raised _ s ⟨nofun, nofun⟩ nofun
  case isFalse h => exact ⟨rfl, (WriteSet.refl _ s).setM rfl imm, (KeepsRegs.refl s).setM h, id⟩

/-- The clamped 16-bit field is a legal M (R181). -/
theorem clampZeroM_ne_zero {v : Nat} (h : v < 2 ^ 16) : BitVec.ofNat 16 (clampZeroM v) ≠ 0#16 := by
  intro h0
  have h1 := congrArg BitVec.toNat h0
  simp only [clampZeroM, BitVec.toNat_ofNat] at h1
  split at h1 <;> omega

/-- A field of `n` bits is below `2^n` (R143). -/
theorem getField_lt {n : Nat} {s u : State} {v : Nat} (h : getField n s = .done v u) : v < 2 ^ n := by
  obtain ⟨hread, hfail⟩ := getField_spec n s
  by_cases hc : CanRead n s
  · obtain ⟨t, hget, -⟩ := hread hc
    rw [h] at hget
    cases hget
    simpa using bitsValue_lt (paddedTake n (unreadBits s))
  · obtain ⟨t, hget, -⟩ := hfail hc
    rw [h] at hget
    cases hget

theorem bodyOf_gRdm {s : State} (hs : s.bsMode = .read) :
    BodyOf .gRdm s (andThen (getField 16 s) fun v u =>
      .done () (setRes (unsignedResult (clampZeroM v)) (setM (BitVec.ofNat 16 (clampZeroM v)) u))) := by
  refine (reads_getField _ 16 s).bodyOf hs rfl rfl fun v u hget hu => ?_
  have hM := (hu.keepsRegs).setM (clampZeroM_ne_zero (getField_lt hget))
  exact ⟨by rw [setRes_errCode, setM_errCode, hu.frame], ((WriteSet.readOn hu rfl rfl).setM rfl _).setRes rfl _,
    ⟨hM.golomb, hM.estimator⟩, fun _ => bufferSound_of_read (by rw [setRes_bsMode, setM_bsMode, hu.frame]; exact hs)⟩

/-- The field commands check their width first (R115). -/
theorem bodyOf_widthInRange {i : Instr} {n : Nat} {s : State} {f : Flow Unit} (h : BodyOf i s f) :
    BodyOf i s (if widthInRange n then f else .raised .invalidParameter s) := by
  split
  · exact h
  · exact bodyOf_raised i s ⟨nofun, nofun⟩ nofun

/-- COUNT terms of at most `2^31` are in SUM, and EST.ACC adds one (R242). -/
theorem estimatorOk_accumulate {s : State} (h : EstimatorOk s) (hc : s.count ≠ 0xFFFFFFFF#32) :
    EstimatorOk { s with
      sum := s.sum + BitVec.ofNat 64 (opaSigned32 s).natAbs
      count := s.count + 1#32 } := by
  have hterm : (opaSigned32 s).natAbs ≤ 2 ^ 31 := by
    have hlo := BitVec.le_toInt (s.opa.extractLsb' 0 32)
    have hhi := BitVec.toInt_lt (x := s.opa.extractLsb' 0 32)
    unfold opaSigned32
    omega
  have hcount : (s.count + 1#32).toNat = s.count.toNat + 1 := by
    have hne : s.count.toNat ≠ 0xFFFFFFFF := fun h' => hc (BitVec.eq_of_toNat_eq h')
    have := s.count.isLt
    rw [BitVec.toNat_add]
    exact Nat.mod_eq_of_lt (by simp; omega)
  have hsum : (s.sum + BitVec.ofNat 64 (opaSigned32 s).natAbs).toNat ≤ s.sum.toNat + (opaSigned32 s).natAbs := by
    rw [BitVec.toNat_add, BitVec.toNat_ofNat]
    exact (Nat.mod_le _ _).trans (Nat.add_le_add_left (Nat.mod_le _ _) _)
  simp only [EstimatorOk] at h ⊢
  rw [hcount]
  omega

theorem bodyOf_estAcc (s : State) :
    BodyOf .estAcc s (if s.count = 0xFFFFFFFF#32 then .raised .overflow s
      else .done () { s with
        sum := s.sum + BitVec.ofNat 64 (opaSigned32 s).natAbs
        count := s.count + 1#32 }) := by
  split
  case isTrue => exact bodyOf_raised _ s ⟨nofun, nofun⟩ nofun
  case isFalse h =>
    refine ⟨rfl, ?_, ⟨id, fun he => estimatorOk_accumulate he h⟩, id⟩
    constructor <;> simp

theorem bodyOf_estM (s : State) :
    BodyOf .estM s (.done () (setRes (unsignedResult (estimate s.estRule s.sum.toNat s.count.toNat))
      (setM (BitVec.ofNat 16 (estimate s.estRule s.sum.toNat s.count.toNat)) s))) := by
  obtain ⟨hlo, hhi⟩ := estimate_bounds s.estRule s.sum.toNat s.count.toNat
  exact ⟨rfl, ((WriteSet.refl .estM s).setM rfl _).setRes rfl _,
    ⟨fun _ => loadEstimate_golombOk hlo hhi s, id⟩, id⟩

/-- A body that completes at once, in the state `u`. -/
theorem bodyOf_done {i : Instr} {s u : State} (hw : WriteSet i s u) (he : u.errCode = s.errCode)
    (hr : KeepsRegs s u) (hb : BufferSound s → BufferSound u) : BodyOf i s (.done () u) :=
  ⟨he, hw, hr, hb⟩

/-- Everything a command can leave outside HALTED (R49, R306, R360). -/
theorem exec_outcome {i : Instr} {s t : State} (hs : s.cstate ≠ .halted) (h : exec i s = .next t) :
    (∃ u, Completes i s u ∧ t = complete u) ∨ (∃ e u, Raises i s e u ∧ t = faultEntry e u) ∨
      NeverEnds i s ∧ t = s := by
  have mode {m : BsMode} (hm : modeAllows (some m) s = true) : s.bsMode = m := of_decide_eq_true hm
  cases i with
  | bsOpenw =>
    rw [exec, execBsOpenw] at h
    exact command_outcome hs h fun _ => bodyOf_openStream (.inl rfl) _ s
  | bsOpenr =>
    rw [exec, execBsOpenr] at h
    exact command_outcome hs h fun _ => bodyOf_openStream (.inr rfl) _ s
  | bsClose =>
    rw [exec, execBsClose] at h
    exact command_outcome hs h fun _ => bodyOf_bsClose s
  | bsWrbit b =>
    rw [exec, execBsWrbit] at h
    exact command_outcome hs h fun hm => (writes_putBit b s).bodyOf rfl (mode hm)
  | bsWrbits n =>
    rw [exec, execBsWrbits] at h
    exact command_outcome hs h fun hm => bodyOf_widthInRange ((writes_putField _ n s).bodyOf rfl (mode hm))
  | bsRdbit =>
    rw [exec, execBsRdbit] at h
    refine command_outcome hs h fun hm => (reads_getBit _ s).bodyOf (mode hm) rfl rfl fun b u _ hu => ?_
    cases b with
    | none => exact hu.bodyOf_setRes (mode hm) rfl rfl rfl _
    | some b => exact hu.bodyOf_setRes (mode hm) rfl rfl rfl _
  | bsRdbits n =>
    rw [exec, execBsRdbits] at h
    exact command_outcome hs h fun hm => bodyOf_widthInRange ((reads_getField _ n s).bodyOf (mode hm) rfl rfl
      fun _ _ _ hu => hu.bodyOf_setRes (mode hm) rfl rfl rfl _)
  | gSetm imm =>
    rw [exec, execGSetm] at h
    exact command_outcome hs h fun _ => bodyOf_gSetm imm s
  | gSetmode m =>
    rw [exec, execGSetmode] at h
    exact command_outcome hs h fun _ => bodyOf_done (by constructor <;> simp) rfl ⟨id, id⟩ id
  | gEncu =>
    rw [exec, execGEncu] at h
    exact command_outcome hs h fun hm => (writes_encodeU _ s).bodyOf rfl (mode hm)
  | gDecu =>
    rw [exec, execGDecu] at h
    have hread : Reads (NeverEnds .gDecu s) s (decodeU s) :=
      (reads_decodeU s).mono (fun _ _ => id) (fun _ _ => id) fun he => ⟨.inl rfl, he⟩
    exact command_outcome hs h fun hm => hread.bodyOf (mode hm) rfl rfl
      fun _ _ _ hu => hu.bodyOf_setRes (mode hm) rfl rfl rfl _
  | gEnc =>
    rw [exec, execGEnc] at h
    exact command_outcome hs h fun hm => (writes_encodeSigned _ s).bodyOf rfl (mode hm)
  | gDec =>
    rw [exec, execGDec] at h
    have hread : Reads (NeverEnds .gDec s) s (decodeSigned s) :=
      (reads_decodeSigned s).mono (fun _ _ => id) (fun _ _ => id) fun he => ⟨.inr rfl, he⟩
    exact command_outcome hs h fun hm => hread.bodyOf (mode hm) rfl rfl
      fun _ _ _ hu => hu.bodyOf_setRes (mode hm) rfl rfl rfl _
  | gRdm =>
    rw [exec, execGRdm] at h
    exact command_outcome hs h fun hm => bodyOf_gRdm (mode hm)
  | apReset =>
    rw [exec, execApReset] at h
    exact command_outcome hs h fun _ => bodyOf_done (by constructor <;> simp) rfl ⟨id, id⟩ id
  | apEncl =>
    rw [exec, execApEncl] at h
    exact command_outcome hs h fun _ => bodyOf_done (by constructor <;> simp [writesRes]) rfl ⟨id, id⟩ id
  | apEncr =>
    rw [exec, execApEncr] at h
    exact command_outcome hs h fun _ => bodyOf_done (by constructor <;> simp [writesRes]) rfl ⟨id, id⟩ id
  | apDecl =>
    rw [exec, execApDecl] at h
    exact command_outcome hs h fun _ => bodyOf_done (by constructor <;> simp [writesRes]) rfl ⟨id, id⟩ id
  | apDecr =>
    rw [exec, execApDecr] at h
    exact command_outcome hs h fun _ => bodyOf_done (by constructor <;> simp [writesRes]) rfl ⟨id, id⟩ id
  | medPred =>
    rw [exec, execMedPred] at h
    exact command_outcome hs h fun _ => bodyOf_done ((WriteSet.refl _ s).setRes rfl _) rfl ⟨id, id⟩ id
  | medEnc =>
    rw [exec, execMedEnc] at h
    exact command_outcome hs h fun _ => bodyOf_done ((WriteSet.refl _ s).setRes rfl _) rfl ⟨id, id⟩ id
  | medDec =>
    rw [exec, execMedDec] at h
    exact command_outcome hs h fun _ => bodyOf_done ((WriteSet.refl _ s).setRes rfl _) rfl ⟨id, id⟩ id
  | estClr =>
    rw [exec, execEstClr] at h
    exact command_outcome hs h fun _ => bodyOf_done (by constructor <;> simp) rfl ⟨id, fun _ => Nat.zero_le _⟩ id
  | estAcc =>
    rw [exec, execEstAcc] at h
    exact command_outcome hs h fun _ => bodyOf_estAcc s
  | estM =>
    rw [exec, execEstM] at h
    exact command_outcome hs h fun _ => bodyOf_estM s

/-! ### What every command keeps -/

/-- Every command outside HALTED stays within what R49 lists for it. -/
theorem exec_writeSet {i : Instr} {s t : State} (hs : s.cstate ≠ .halted) (h : exec i s = .next t) :
    WriteSet i s t := by
  rcases exec_outcome hs h with ⟨u, hu, rfl⟩ | ⟨e, u, hu, rfl⟩ | ⟨-, rfl⟩
  · exact hu.writeSet.complete
  · exact hu.writeSet.faultEntry hu.ioError
  · exact WriteSet.refl i _

/-- Every command outside HALTED ends IDLE, or HALTED with an error, or never (R31, R306, R360). -/
theorem exec_cstate {i : Instr} {s t : State} (hs : s.cstate ≠ .halted) (h : exec i s = .next t) :
    t.cstate = .idle ∧ t.errCode = s.errCode ∨ t.cstate = .halted ∧ Recordable t.errCode ∨
      t = s ∧ NeverEnds i s := by
  rcases exec_outcome hs h with ⟨u, hu, rfl⟩ | ⟨e, u, hu, rfl⟩ | ⟨hend, rfl⟩
  · exact .inl ⟨rfl, hu.errCode⟩
  · exact .inr (.inl ⟨faultEntry_cstate u e, by rw [faultEntry_errCode]; exact hu.recordable⟩)
  · exact .inr (.inr ⟨rfl, hend⟩)

/-- Outside HALTED the invariant says that no fault is recorded. -/
theorem errCode_eq_none_of_faultOk {s : State} (h : FaultOk s) (hs : s.cstate ≠ .halted) : s.errCode = .none := by
  by_contra he
  exact hs (h.1.2 he)

/-- Outside HALTED the invariant says that the bit buffer is as R39 says. -/
theorem bufferSound_of_bitBufferOk {s : State} (h : BitBufferOk s) (he : s.errCode = .none) : BufferSound s :=
  h.resolve_left (by rw [he]; nofun)

theorem faultOk_of_fault {s : State} (hc : s.cstate = .halted) (he : Recordable s.errCode) : FaultOk s :=
  ⟨⟨fun _ => he.1, fun _ => hc⟩, he.2⟩

theorem faultOk_of_noFault {s : State} (hc : s.cstate ≠ .halted) (he : s.errCode = .none) : FaultOk s :=
  ⟨⟨fun h => absurd h hc, fun h => absurd he h⟩, by rw [he]; nofun⟩

/-- Completing keeps the invariant. -/
theorem Completes.coreInv {i : Instr} {s u : State} (hu : Completes i s u) (h : CoreInv s)
    (hs : s.cstate ≠ .halted) : CoreInv (complete u) := by
  obtain ⟨hgolomb, hbuffer, hfault, hest⟩ := h
  have he := errCode_eq_none_of_faultOk hfault hs
  exact ⟨hu.regs.golomb hgolomb, .inr (hu.buffer (bufferSound_of_bitBufferOk hbuffer he)),
    faultOk_of_noFault (by simp) (hu.errCode.trans he), hu.regs.estimator hest⟩

/-- Fault entry keeps the invariant: after an IoError it asks nothing of the bit buffer (R306). -/
theorem coreInv_faultEntry {u : State} {e : ErrCode} (he : Recordable e) (hgolomb : GolombOk u)
    (hbuffer : e ≠ .ioError → BufferSound u) (hest : EstimatorOk u) : CoreInv (faultEntry e u) := by
  have hregs := (KeepsRegs.refl u).faultEntry e
  refine ⟨hregs.golomb hgolomb, ?_, faultOk_of_fault (faultEntry_cstate u e) (by rwa [faultEntry_errCode]),
    hregs.estimator hest⟩
  by_cases hio : e = .ioError
  · exact .inl (by rw [faultEntry_errCode, hio])
  · exact .inr (bufferSound_faultEntry hio (hbuffer hio))

/-- Every command outside HALTED keeps the invariant. -/
theorem exec_coreInv {i : Instr} {s t : State} (hi : CoreInv s) (hs : s.cstate ≠ .halted)
    (h : exec i s = .next t) : CoreInv t := by
  rcases exec_outcome hs h with ⟨u, hu, rfl⟩ | ⟨e, u, hu, rfl⟩ | ⟨-, rfl⟩
  · exact hu.coreInv hi hs
  · obtain ⟨hgolomb, hbuffer, hfault, hest⟩ := hi
    have hsound := bufferSound_of_bitBufferOk hbuffer (errCode_eq_none_of_faultOk hfault hs)
    exact coreInv_faultEntry hu.recordable (hu.regs.golomb hgolomb) (fun hio => hu.buffer hio hsound)
      (hu.regs.estimator hest)
  · exact hi

/-! ### The pending word -/

/-- A pending word runs its command, or is IllegalCommand (R31, R114). -/
theorem runWord_cases {w : Word} {s t : State} (hs : s.cstate ≠ .halted) (h : runWord w s = .next t) :
    (∃ i, decode w = .ok i ∧ exec i s = .next t) ∨ t = faultEntry .illegalCommand s := by
  unfold runWord at h
  cases hd : decode w with
  | ok i => exact .inl ⟨i, rfl, by simpa [hd] using h⟩
  | error e =>
    rw [hd] at h
    have hill : illegalWord s = .next t := h
    rw [illegalWord_eq hs] at hill
    cases hill
    exact .inr rfl

theorem runWord_coreInv {w : Word} {s t : State} (hi : CoreInv s) (hs : s.cstate ≠ .halted)
    (h : runWord w s = .next t) : CoreInv t := by
  rcases runWord_cases hs h with ⟨i, -, hexec⟩ | rfl
  · exact exec_coreInv hi hs hexec
  · obtain ⟨hgolomb, hbuffer, hfault, hest⟩ := hi
    have hsound := bufferSound_of_bitBufferOk hbuffer (errCode_eq_none_of_faultOk hfault hs)
    exact coreInv_faultEntry ⟨nofun, nofun⟩ hgolomb (fun _ => hsound) hest

/-- A pending word clears no LOST, and takes the source nowhere back (R36, R340). -/
theorem runWord_lost_srcPos {w : Word} {s t : State} (hs : s.cstate ≠ .halted) (h : runWord w s = .next t) :
    t.lost = s.lost ∧ s.srcPos ≤ t.srcPos := by
  rcases runWord_cases hs h with ⟨i, -, hexec⟩ | rfl
  · have hw := exec_writeSet hs hexec
    exact ⟨hw.lost, hw.srcPos_le⟩
  · exact ⟨rfl, Nat.le_refl _⟩

/-! ### The host's accesses -/

/-- The offset of a register in the block (R71); of the reserved offsets, the one after the last register. -/
def regOffset : Reg → Nat
  | .cmd => 0x00
  | .status => 0x04
  | .ctrl => 0x08
  | .opaLo => 0x10
  | .opaHi => 0x14
  | .opbLo => 0x18
  | .opbHi => 0x1C
  | .resLo => 0x20
  | .resHi => 0x24
  | .gparam => 0x28
  | .gcutoff => 0x2C
  | .bsbuf => 0x30
  | .bytecntLo => 0x38
  | .bytecntHi => 0x3C
  | .aprev => 0x40
  | .estsumLo => 0x48
  | .estsumHi => 0x4C
  | .estcnt => 0x50
  | .reserved => 0x54

/-- The register at an offset is a reserved one, or the one whose offset this is (R71). -/
theorem regAt_cases (off : Nat) : regAt off = .reserved ∨ off = regOffset (regAt off) := by
  unfold regAt
  split
  case h_19 => exact .inl rfl
  all_goals exact .inr rfl

/-- Everything a write does (R35, R36, R72): a reset, LOST, a command accepted, a half of an operand, or
nothing. -/
theorem writeReg_cases (r : Reg) (v : Word) (s : State) :
    (r = .ctrl ∧ v.getLsbD 0 = true ∧ writeReg r v s = softReset s) ∨
    writeReg r v s = markLost s ∨
    (s.cstate = .idle ∧ writeReg r v s = { s with cstate := .busy v }) ∨
    ∃ a b, writeReg r v s = { s with opa := a, opb := b } := by
  have nothing : s = { s with opa := s.opa, opb := s.opb } := rfl
  cases r
  case cmd =>
    simp only [writeReg, writeCmd]
    cases hc : s.cstate with
    | idle => exact .inr (.inr (.inl ⟨rfl, rfl⟩))
    | busy w => exact .inr (.inl rfl)
    | halted => exact .inr (.inl rfl)
  case ctrl =>
    cases hv : v.getLsbD 0 with
    | true => exact .inl ⟨rfl, rfl, if_pos hv⟩
    | false => exact .inr (.inr (.inr ⟨_, _, (if_neg (by rw [hv]; exact Bool.false_ne_true)).trans nothing⟩))
  case opaLo | opaHi | opbLo | opbHi =>
    simp only [writeReg, writeOperand]
    cases isBusy s with
    | true => exact .inr (.inl rfl)
    | false => exact .inr (.inr (.inr ⟨_, _, rfl⟩))
  all_goals exact .inr (.inr (.inr ⟨_, _, nothing⟩))

theorem placeOf_eq_inside {addr size off : Nat} (h : placeOf addr size = .inside off) :
    addr = Config.coreBase + off ∧ size = 4 := by
  unfold placeOf placeAt at h
  split at h
  · cases h
  · split at h
    · cases h
    · split at h
      · cases h
        rename_i hge _ hsize
        exact ⟨by omega, hsize.1⟩
      · cases h

/-- Everything an access does that gives a next state (R70, R72): a read gives the host a value and uses at most a
free value, a write is the register's. -/
theorem hostAccess_cases {a : HostAccess} {s t : State} (h : hostAccess a s = .next t) :
    (t = { s with hostReplies := t.hostReplies, draws := t.draws }) ∨
    ∃ off v, a = .write (Config.coreBase + off) 4 v ∧ t = writeReg (regAt off) v s := by
  cases a with
  | read addr size =>
    cases hp : placeOf addr size <;> simp only [hostAccess, hp] at h <;> cases h
    left
    unfold afterRead
    split <;> rfl
  | write addr size v =>
    cases hp : placeOf addr size <;> simp only [hostAccess, hp] at h <;> cases h
    obtain ⟨rfl, rfl⟩ := placeOf_eq_inside hp
    exact .inr ⟨_, v, rfl, rfl⟩

/-- A write that resets the core is at CTRL's offset with bit 0 = 1 (R35). -/
theorem eq_of_regAt_ctrl {off : Nat} (h : regAt off = .ctrl) : off = 8 := by
  rcases regAt_cases off with hr | hr
  · rw [h] at hr; cases hr
  · rw [h] at hr; exact hr

/-- Everything a step does to the core (R30, R31, R91): it runs the pending word, resets the core, or makes the
host's other accesses. `u` is `s` with the turn and the access used up. -/
theorem step_next_cases {s t : State} (h : step s = .next t) :
    ∃ u, u = { s with turns := u.turns, draws := u.draws, hostQueue := u.hostQueue } ∧
      ((∃ w, s.cstate = .busy w ∧ runWord w u = .next t) ∨
       (ResetNext s ∧ t = softReset u) ∨
       t = { u with hostReplies := t.hostReplies, draws := t.draws } ∨
       t = markLost u ∨
       (∃ v, s.cstate = .idle ∧ t = { u with cstate := .busy v }) ∨
       ∃ a b, t = { u with opa := a, opb := b }) := by
  rcases step_cases s with ⟨w, u, hw, hturn, hstep⟩ | ⟨u, hturn, hstep⟩
  · rw [hstep] at h
    exact ⟨u, by rw [TurnOf.frame hturn], .inl ⟨w, hw, h⟩⟩
  · have hu : u = { s with turns := u.turns, draws := u.draws } := by
      rcases hturn with ⟨-, rfl⟩ | hturn
      · rfl
      · exact TurnOf.frame hturn
    rcases hstep with ⟨-, hstep⟩ | ⟨a, rest, hq, hstep⟩
    · rw [hstep] at h
      cases h
      exact ⟨t, by rw [hu], .inr (.inr (.inl rfl))⟩
    · rw [hstep] at h
      refine ⟨{ u with hostQueue := rest }, by rw [hu], .inr ?_⟩
      rcases hostAccess_cases h with hread | ⟨off, v, rfl, hwrite⟩
      · exact .inr (.inl hread)
      · subst hwrite
        rcases writeReg_cases (regAt off) v { u with hostQueue := rest } with
          ⟨hr, hv, he⟩ | he | ⟨hc, he⟩ | ⟨a, b, he⟩
        · rw [eq_of_regAt_ctrl hr] at hq
          exact .inl ⟨⟨⟨v, rest, hq, hv⟩, hturn.imp And.left fun ht => ⟨u, ht⟩⟩, he⟩
        · exact .inr (.inr (.inl he))
        · exact .inr (.inr (.inr (.inl ⟨v, by rw [hu] at hc; exact hc, he⟩)))
        · exact .inr (.inr (.inr (.inr ⟨a, b, he⟩)))

/-! ### Reset -/

theorem resetValues_reset : ResetValues State.reset := by
  decide

theorem coreInv_reset : CoreInv State.reset := by decide

/-- A soft reset resets the core; an abandoned command may have sent bytes and read on before it (R340). -/
theorem softReset_cases (s : State) : ∃ u, softReset s = resetCore u ∧
    u = { s with sinkBytes := u.sinkBytes, sinkAsked := u.sinkAsked, srcPos := u.srcPos, draws := u.draws } ∧
    s.sinkBytes <+: u.sinkBytes ∧ s.srcPos ≤ u.srcPos := by
  unfold softReset
  split
  case h_1 w hc =>
    refine ⟨_, rfl, rfl, List.prefix_append _ _, ?_⟩
    have hle : s.srcPos ≤ (afterCommand w s).srcPos := by
      unfold afterCommand
      split
      case h_1 t ht => exact (runWord_lost_srcPos (by rw [hc]; nofun) ht).2
      all_goals exact Nat.le_refl _
    simp only [abandonPorts]
    split <;> omega
  all_goals exact ⟨s, rfl, rfl, List.prefix_rfl, Nat.le_refl _⟩

/-! ### STATUS and reads while BUSY -/

/-- Each of the fields put together as STATUS is at its place. The widths have to stay sums for the lemmas on
`++` to apply. -/
theorem packed_fields (zero : BitVec 19) (lost : Bool) (err : BitVec 4) (sign : Bool) (cnt : BitVec 3) (mode : BitVec 2)
    (eos busy : Bool) :
    let v := zero ++ BitVec.ofBool lost ++ err ++ BitVec.ofBool sign ++ cnt ++ mode ++ BitVec.ofBool eos ++
      BitVec.ofBool busy
    v.getLsbD 0 = busy ∧ v.getLsbD 1 = eos ∧ v.extractLsb' 2 2 = mode ∧ v.extractLsb' 4 3 = cnt ∧
      v.getLsbD 7 = sign ∧ v.extractLsb' 8 4 = err ∧ v.getLsbD 12 = lost ∧ v.extractLsb' 13 19 = zero := by
  intro v
  refine ⟨?_, ?_, ?_, ?_, ?_, ?_, ?_, ?_⟩
  case refine_1 | refine_2 | refine_5 | refine_7 =>
    simp [v, BitVec.getLsbD_append, BitVec.getLsbD_ofBool, -Nat.reduceAdd, -BitVec.getLsbD_eq_getElem]
  all_goals simp [v, BitVec.extractLsb'_append_eq_of_le, BitVec.extractLsb'_append_eq_of_add_le, -Nat.reduceAdd]

/-- The fields of STATUS, each at its place (R34). -/
theorem statusWord_fields (s : State) :
    (statusWord s).getLsbD 0 = isBusy s ∧ (statusWord s).getLsbD 1 = s.eos ∧
      (statusWord s).extractLsb' 2 2 = bsModeCode s.bsMode ∧ (statusWord s).extractLsb' 4 3 = s.cnt ∧
      (statusWord s).getLsbD 7 = bitOfMode s.gMode ∧ (statusWord s).extractLsb' 8 4 = errCodeBits s.errCode ∧
      (statusWord s).getLsbD 12 = s.lost ∧ (statusWord s).extractLsb' 13 19 = 0#19 :=
  packed_fields _ _ _ _ _ _ _ _

/-- A field that no draw replaces reads as the register holds it (R74). -/
theorem undrawn_field {x y m : Word} {start len : Nat} (h : m.extractLsb' start len = 0#len) :
    ((x &&& ~~~m) ||| (y &&& m)).extractLsb' start len = x.extractLsb' start len := by
  apply BitVec.eq_of_getLsbD_eq
  intro i hi
  have hbit := congrArg (·.getLsbD i) h
  simp only [BitVec.getLsbD_extractLsb', hi, decide_true, Bool.true_and, BitVec.getLsbD_zero] at hbit
  simp only [BitVec.getLsbD_extractLsb', BitVec.getLsbD_or, BitVec.getLsbD_and, BitVec.getLsbD_not, hbit]
  by_cases hlt : start + i < 32
  · simp [hlt]
  · simp [BitVec.getLsbD_of_ge x _ (by omega : 32 ≤ start + i)]

theorem readReg_of_busy {r : Reg} {s : State} (h : isBusy s = true) :
    readReg r s = (regValue r s &&& ~~~busyMask r) ||| (Config.busyRead s.draws &&& busyMask r) := by
  simp [readReg, h]

/-- CMD, CTRL and the reserved offsets read 0 in every CSTATE (R72). -/
theorem readReg_eq_zero {r : Reg} (h : r = .cmd ∨ r = .ctrl ∨ r = .reserved) (s : State) : readReg r s = 0#32 := by
  unfold readReg
  split
  · rcases h with rfl | rfl | rfl <;> exact undrawn _ _
  · rcases h with rfl | rfl | rfl <;> rfl

/-- While BUSY, STATUS reads BUSY = 1 and its reserved bits 0 (R34, R74). -/
theorem readReg_status_of_busy {s : State} (h : isBusy s = true) :
    (readReg .status s).getLsbD 0 = true ∧ (readReg .status s).extractLsb' 13 19 = 0#19 := by
  obtain ⟨hbusy, -, -, -, -, -, -, hrest⟩ := statusWord_fields s
  rw [readReg_of_busy h]
  constructor
  · simp [regValue, busyMask, hbusy, h]
  · rw [undrawn_field (by decide)]
    exact hrest

/-- The registers that a write leaves alone (R35, R72). -/
theorem writeReg_of_readOnly {r : Reg} (h : regOffset r ∉ [0x00, 0x08, 0x10, 0x14, 0x18, 0x1C]) (v : Word)
    (s : State) : writeReg r v s = s := by
  cases r
  case cmd | ctrl | opaLo | opaHi | opbLo | opbHi => simp [regOffset] at h
  all_goals rfl

/-- A write of an operand's half while no command is pending is stored (R36). -/
theorem writeOperand_of_not_busy {f : State → State} {s : State} (h : ∀ w, s.cstate ≠ .busy w) :
    writeOperand f s = f s := by
  simp [writeOperand, isBusy_of_not h]

theorem writeOperand_of_busy {f : State → State} {s : State} {w : Word} (h : s.cstate = .busy w) :
    writeOperand f s = markLost s := by
  simp [writeOperand, isBusy_of_busy h]

theorem writeCmd_of_idle {s : State} (h : s.cstate = .idle) (w : Word) :
    writeCmd w s = { s with cstate := .busy w } := by
  simp [writeCmd, h]

theorem writeCmd_of_not_idle {s : State} (h : s.cstate ≠ .idle) (w : Word) : writeCmd w s = markLost s := by
  unfold writeCmd
  split
  case h_1 hc => exact absurd hc h
  all_goals rfl

/-- A `_LO` half replaced, as a number (R73). -/
theorem withLo_eq (v : DWord) (x : Word) : withLo v x = BitVec.ofNat 64 (v.toNat / 2 ^ 32 * 2 ^ 32 + x.toNat) := by
  rw [← withLo_toNat, BitVec.ofNat_toNat, BitVec.setWidth_eq]

/-- A `_HI` half replaced, as a number (R73). -/
theorem withHi_eq (v : DWord) (x : Word) : withHi v x = BitVec.ofNat 64 (x.toNat * 2 ^ 32 + v.toNat % 2 ^ 32) := by
  rw [← withHi_toNat, BitVec.ofNat_toNat, BitVec.setWidth_eq]

/-! ### Reading commands that complete -/

/-- A reading command that writes RES after `n` bits leaves what R49 and R142 say. -/
theorem Took.readFrame {n : Nat} {s u : State} (h : Took n s u) (v : DWord) :
    ReadFrame s (complete (setRes v u)) ∧ ReadBits n s (complete (setRes v u)) := by
  refine ⟨?_, h.readBits⟩
  rw [ReadFrame, h.frame]
  rfl

/-- A bit that is available is what `GetBit` returns (R142). -/
theorem getBit_of_available {b : Bool} {rest : List Bool} {s : State} (h : available 1 s = b :: rest) :
    ∃ u, getBit s = .done (some b) u ∧ Took 1 s u := by
  rcases getBit_cases s with ⟨b', rest', u, hav, hget, hu⟩ | ⟨u, hun, -, hend, -⟩ | ⟨u, hun, hfail, -⟩
  · rw [h] at hav
    cases hav
    exact ⟨u, hget, hu⟩
  · rw [available_of_finite hend, hun] at h
    cases h
  · have hend : sourceEndless s = false := by
      by_contra he
      rw [not_sourceFails_of_endless (by simpa using he)] at hfail
      cases hfail
    rw [available_of_finite hend, hun] at h
    cases h

/-- With no bit available and no IoErr, `GetBit` finds EOF (R142). -/
theorem getBit_of_eof {s : State} (h : available 1 s = []) (hf : sourceFails s = false) :
    ∃ u, getBit s = .done none u ∧ Took 1 s u := by
  rcases getBit_cases s with ⟨b, rest, u, hav, -⟩ | ⟨u, -, -, -, hget, hu⟩ | ⟨u, -, hfail, -⟩
  · rw [h] at hav; cases hav
  · exact ⟨u, hget, hu⟩
  · rw [hf] at hfail; cases hfail

theorem modeAllows_of_eq {m : BsMode} {s : State} (h : s.bsMode = m) : modeAllows (some m) s = true := by
  rw [modeAllows_some, h, decide_eq_true rfl]

/-- BS.RDBIT is GetBit and its result in RES (R150). -/
theorem exec_bsRdbit {s u : State} {b : Option Bool} (hs : s.cstate ≠ .halted) (hm : s.bsMode = .read)
    (hget : getBit s = .done b u) :
    exec .bsRdbit s = .next (complete (setRes (b.elim eofSentinel fun b => zext64 (BitVec.ofBool b)) u)) := by
  rw [exec, execBsRdbit, command_of_allowed hs (modeAllows_of_eq hm), hget]
  cases b <;> rfl

/-- BS.RDBITS is GetField and its result in RES (R151). -/
theorem exec_bsRdbits {n v : Nat} {s u : State} (hs : s.cstate ≠ .halted) (hm : s.bsMode = .read)
    (h1 : 1 ≤ n) (h64 : n ≤ 64) (hget : getField n s = .done v u) :
    exec (.bsRdbits n) s = .next (complete (setRes (unsignedResult v) u)) := by
  have hw : widthInRange n = true := by simp [widthInRange, h1, h64]
  rw [exec, execBsRdbits, command_of_allowed hs (modeAllows_of_eq hm), hw, if_pos rfl, hget]
  rfl

/-- What G.RDM leaves for the parameter `v`, read up to `u`. -/
def loadBlockParameter (v : Nat) (u : State) : State :=
  complete (setRes (unsignedResult v) (setM (BitVec.ofNat 16 v) u))

/-- G.RDM is GetField, and its clamped result in M and RES (R181). -/
theorem exec_gRdm {v : Nat} {s u : State} (hs : s.cstate ≠ .halted) (hm : s.bsMode = .read)
    (hget : getField 16 s = .done v u) : exec .gRdm s = .next (loadBlockParameter (clampZeroM v) u) := by
  rw [exec, execGRdm, command_of_allowed hs (modeAllows_of_eq hm), hget]
  rfl

theorem clampZeroM_eq_max (v : Nat) : clampZeroM v = max 1 v := by
  unfold clampZeroM
  split <;> omega

end Sys2Proof.Machine.Laws

namespace Sys2Proof.Proofs

open Sys2Proof.Machine Sys2Proof.Machine.Laws

/-- Settles O20: the pending word keeps the invariant whatever its command does, a reset restores it, and the
host's other accesses write no register it speaks of but CSTATE, in IDLE. -/
theorem stepKeepsInvariant : Obligations.StepKeepsInvariant := by
  intro s t hs hstep
  obtain ⟨u, hu, hcases⟩ := step_next_cases hstep
  have hinv : CoreInv u := by rw [hu]; exact hs
  rcases hcases with ⟨w, hw, hrun⟩ | ⟨-, rfl⟩ | ht | rfl | ⟨v, hidle, rfl⟩ | ⟨a, b, rfl⟩
  · exact runWord_coreInv hinv (by rw [hu]; simp [hw]) hrun
  · obtain ⟨x, hx, -⟩ := softReset_cases u
    rw [hx]
    exact coreInv_reset
  · rw [ht]; exact hinv
  · exact hinv
  · obtain ⟨hgolomb, hbuffer, hfault, hest⟩ := hinv
    have he := errCode_eq_none_of_faultOk hfault (by rw [hu]; simp [hidle])
    exact ⟨hgolomb, hbuffer, faultOk_of_noFault nofun he, hest⟩
  · exact hinv

/-- Settles O25: the write set of each command, and how it ends, from the outcomes its body has. -/
theorem writeSets : Obligations.WriteSets := by
  intro i s t hs h
  have hw := exec_writeSet hs h
  refine ⟨?_, hw.opa, hw.opb, hw.lost, hw.sinkPlan, hw.srcTape, hw.srcRest, hw.hostQueue, hw.hostReplies, hw.turns,
    hw.turnRest, hw.estRule, hw.res, hw.stream, hw.bsMode, hw.eos, hw.golomb, hw.gMode, hw.prevL, hw.prevR,
    hw.estimator⟩
  rcases exec_cstate hs h with hidle | ⟨hhalted, he⟩ | hend
  · exact .inl hidle
  · exact .inr (.inl ⟨hhalted, he.1⟩)
  · exact .inr (.inr hend)

/-- Settles O21: of a step's cases only the pending word's could change ERRCODE and RES, and a HALTED core has
none; and of all of them only the reset clears LOST. -/
theorem haltedAndLostUntilReset : Obligations.HaltedAndLostUntilReset := by
  constructor
  · intro s t hs hstep
    obtain ⟨u, hu, hcases⟩ := step_next_cases hstep
    have hkept : u.cstate = .halted ∧ u.errCode = s.errCode ∧ u.res = s.res := by rw [hu]; exact ⟨hs, rfl, rfl⟩
    rcases hcases with ⟨w, hw, -⟩ | ⟨hreset, -⟩ | ht | rfl | ⟨v, hidle, -⟩ | ⟨a, b, rfl⟩
    · rw [hs] at hw; cases hw
    · exact .inr hreset
    · rw [ht]; exact .inl hkept
    · exact .inl hkept
    · rw [hs] at hidle; cases hidle
    · exact .inl hkept
  · intro s t hs hstep
    obtain ⟨u, hu, hcases⟩ := step_next_cases hstep
    have hkept : u.lost = true := by rw [hu]; exact hs
    rcases hcases with ⟨w, hw, hrun⟩ | ⟨hreset, -⟩ | ht | rfl | ⟨v, -, rfl⟩ | ⟨a, b, rfl⟩
    · exact .inl ((runWord_lost_srcPos (by rw [hu]; simp [hw]) hrun).1.trans hkept)
    · exact .inr hreset
    · rw [ht]; exact .inl hkept
    · exact .inl rfl
    · exact .inl hkept
    · exact .inl hkept

/-- Settles O17: a write of SRST is the soft reset, which resets the core after an abandoned command's exchanges. -/
theorem resetResult : Obligations.ResetResult := by
  refine ⟨resetValues_reset, fun s v hv => ⟨softReset s, ?_, ?_⟩⟩
  · rw [hostAccess_write (by decide) (by decide)]
    exact congrArg _ (if_pos hv)
  · obtain ⟨u, hreset, hu, hsink, hsrc⟩ := softReset_cases s
    rw [hreset]
    refine ⟨resetValues_reset, hsink, hsrc, ?_⟩
    rw [hu]
    exact ⟨rfl, rfl, rfl, rfl, rfl, rfl⟩

/-- Settles O19, by evaluation of the one state it speaks of. -/
theorem invariantAtReset : Obligations.InvariantAtReset := coreInv_reset

/-- Settles O6: the word runs as its command (R31, R114). -/
theorem stepRunsDecodedCommand : Obligations.StepRunsDecodedCommand := by
  intro s u w i hs hw hturn
  rw [step_of_coreTurn hs hturn, runWord, hw]

/-- Settles O7: the placed word is pending, and the turn is the core's, past the end of the empty list of turns. -/
theorem placedWordRunsNext : Obligations.PlacedWordRunsNext := by
  intro s w i hw hdec
  have hword : tableWord 32 w = BitVec.ofNat 32 w := by rw [tableWord, Nat.mod_eq_of_lt hw]
  have hok : decode (tableWord 32 w) = .ok i := by
    rw [decodeTableWord] at hdec
    cases h : decode (tableWord 32 w) with
    | ok j => rw [h] at hdec; cases hdec; rfl
    | error e => rw [h] at hdec; cases hdec
  rw [stepRunsDecodedCommand (s.withFetchWord 32 w) _ _ i rfl hok (.inr (.inl ⟨rfl, rfl, rfl⟩)), ← hword]
  rfl

/-- Settles O12: a half is dropped or stored as CSTATE says, and `withLo` and `withHi` are the numbers of R73. -/
theorem operandWriteResult : Obligations.OperandWriteResult := by
  intro s v
  constructor
  · rintro ⟨w, hw⟩ off hoff
    simp only [List.mem_cons, List.not_mem_nil, or_false] at hoff
    rcases hoff with rfl | rfl | rfl | rfl
    all_goals
      rw [hostAccess_write (by decide) (by decide)]
      simp only [regAt, writeReg, writeOperand_of_busy hw]
      rfl
  · intro hs
    refine ⟨?_, ?_, ?_, ?_⟩
    all_goals
      rw [hostAccess_write (by decide) (by decide)]
      simp only [regAt, writeReg, writeOperand_of_not_busy hs, withLo_eq, withHi_eq]

/-- Settles O13: the offsets left out are those of the registers that a write can change. -/
theorem otherWritesIgnored : Obligations.OtherWritesIgnored := by
  constructor
  · intro s off v hoff h4 hother
    rw [hostAccess_write hoff h4]
    rcases regAt_cases off with hr | hr
    · rw [hr]; rfl
    · rw [hr] at hother
      rw [writeReg_of_readOnly hother]
  · intro s v hv
    rw [hostAccess_write (by decide) (by decide)]
    exact congrArg _ (if_neg (by rw [hv]; exact Bool.false_ne_true))

/-- Settles O15: with no command pending the read is of STATUS itself. -/
theorem statusReadFields : Obligations.StatusReadFields := by
  intro s hs
  have hbusy := isBusy_of_not hs
  obtain ⟨h0, h1, h2, h4, h7, h8, h12, h13⟩ := statusWord_fields s
  refine ⟨statusWord s, ?_, h0.trans hbusy, h1, h2.trans ?_, h4, h7.trans ?_, h8.trans ?_, h12, h13⟩
  · rw [hostAccess_read (by decide) (by decide)]
    simp [afterRead, readReg, hbusy, regAt, regValue]
  · cases s.bsMode <;> rfl
  · cases s.gMode <;> rfl
  · cases s.errCode <;> rfl

/-- Settles O16: every read draws; what STATUS and the registers that read 0 show is not drawn. -/
theorem readsWhileBusy : Obligations.ReadsWhileBusy := by
  intro s w hw off hoff h4
  have hbusy := isBusy_of_busy hw
  refine ⟨readReg (regAt off) s, ?_, ?_, fun hother => readReg_eq_zero ?_ s⟩
  · rw [hostAccess_read hoff h4]
    simp [afterRead, hbusy]
  · rintro rfl
    exact readReg_status_of_busy hbusy
  · rcases regAt_cases off with hr | hr
    · exact .inr (.inr hr)
    · rw [hr] at hother
      generalize regAt off = r at hother ⊢
      cases r
      case cmd => exact .inl rfl
      case ctrl => exact .inr (.inl rfl)
      case reserved => exact .inr (.inr rfl)
      all_goals simp [regOffset] at hother

/-- Settles O11: offset 0 is CMD. -/
theorem cmdWriteResult : Obligations.CmdWriteResult := by
  intro s w
  have haccess : hostAccess (.write Config.coreBase 4 w) s = .next (writeCmd w s) :=
    hostAccess_write (off := 0) (by decide) (by decide) w s
  rw [haccess]
  exact ⟨fun hs => congrArg _ (writeCmd_of_idle hs w), fun hs => congrArg _ (writeCmd_of_not_idle hs w)⟩

/-- Settles O35, by what GetBit finds. -/
theorem readBitResult : Obligations.ReadBitResult := by
  refine ⟨rfl, fun s hs hm => ⟨fun b rest hav => ?_, fun hav hf => ?_⟩⟩
  · obtain ⟨u, hget, hu⟩ := getBit_of_available hav
    obtain ⟨hframe, hbits⟩ := hu.readFrame (zext64 (BitVec.ofBool b))
    exact ⟨_, exec_bsRdbit hs hm hget, hframe, hbits, by cases b <;> rfl⟩
  · obtain ⟨u, hget, hu⟩ := getBit_of_eof hav hf
    obtain ⟨hframe, hbits⟩ := hu.readFrame eofSentinel
    exact ⟨_, exec_bsRdbit hs hm hget, hframe, hbits, hu.eos.trans (by simp [hav]), rfl⟩

/-- Settles O36, by what GetField reads. -/
theorem readFieldResult : Obligations.ReadFieldResult := by
  intro s n hs hm h1 h64 hc
  obtain ⟨u, hget, hu⟩ := (getField_spec n s).1 hc
  obtain ⟨hframe, hbits⟩ := hu.readFrame (unsignedResult (bitsValue (paddedTake n (unreadBits s))))
  exact ⟨_, exec_bsRdbits hs hm h1 h64 hget, hframe, hbits, rfl⟩

/-- Settles O47: 16 bits, of which a clamped M is legal. -/
theorem readBlockParameterResult : Obligations.ReadBlockParameterResult := by
  refine ⟨rfl, fun s hs hm hc => ?_⟩
  obtain ⟨u, hget, hu⟩ := (getField_spec 16 s).1 hc
  refine ⟨_, exec_gRdm hs hm hget, setM_golombOk (clampZeroM_ne_zero (getField_lt hget)) u, hu.readBits, ?_, ?_, ?_⟩
  · exact congrArg (BitVec.ofNat 64) (clampZeroM_eq_max _)
  · exact congrArg (BitVec.ofNat 16) (clampZeroM_eq_max _)
  · rw [loadBlockParameter, hu.frame]
    rfl

end Sys2Proof.Proofs

/-! PROOF. The block and the ports as the host and a command meet them: which accesses stop and what a read gives
(20_memory.md R70 to R73), what a port that fails does to a command (R84, R85), and that the fields of the stream and
of the headers read back as written (R82, R83). -/

namespace Sys2Proof.Machine.Laws

/-! ### Commands and accesses that give a next state -/

theorem exec_next (i : Instr) (s : State) : ∃ t, exec i s = .next t := by
  obtain ⟨body, hexec⟩ := exec_eq_command i s
  rw [hexec]
  exact command_next _ _ _

/-- No pending word stops the machine (R306, R360). -/
theorem runWord_next (w : Word) (s : State) : ∃ t, runWord w s = .next t := by
  unfold runWord
  cases decode w with
  | ok i => exact exec_next i s
  | error _ => exact command_next _ _ _

/-- An aligned access of 4 bytes inside the block does not stop the machine (R70). -/
theorem hostAccess_next {a : HostAccess} {addr size : Nat}
    (ha : a = .read addr size ∨ ∃ v, a = .write addr size v)
    (hin : Config.coreBase ≤ addr ∧ addr < Config.coreBase + 256 ∧ size = 4 ∧ (addr - Config.coreBase) % 4 = 0)
    (s : State) : ∃ t, hostAccess a s = .next t := by
  obtain ⟨hlo, hhi, rfl, h4⟩ := hin
  obtain ⟨off, rfl⟩ := Nat.exists_eq_add_of_le hlo
  rw [Nat.add_sub_cancel_left] at h4
  rcases ha with rfl | ⟨v, rfl⟩
  · exact ⟨_, hostAccess_read (by omega) h4 s⟩
  · exact ⟨_, hostAccess_write (by omega) h4 v s⟩

theorem hostAccess_has_shape (a : HostAccess) :
    ∃ addr size, a = .read addr size ∨ ∃ v, a = .write addr size v := by
  cases a with
  | read addr size => exact ⟨addr, size, .inl rfl⟩
  | write addr size v => exact ⟨addr, size, .inr ⟨v, rfl⟩⟩

/-! ### Accesses that stop -/

theorem placeOf_misshapen {off size : Nat} (h : off < 256) (hshape : size ≠ 4 ∨ off % 4 ≠ 0) :
    placeOf (Config.coreBase + off) size = .misshapen := by
  rw [placeOf_add, placeAt, if_neg (by omega), if_neg (by omega)]

theorem placeOf_outside {off : Nat} (h : 256 ≤ off) (size : Nat) :
    placeOf (Config.coreBase + off) size = .outside := by
  rw [placeOf_add, placeAt, if_pos h]

/-! ### Reads with no command pending -/

/-- With no command pending a read gives the register's value, and has no effect (R72). -/
theorem hostAccess_read_value {s : State} (hs : ∀ w, s.cstate ≠ .busy w) {off v : Nat} (h : off < 256)
    (h4 : off % 4 = 0) (hv : (regValue (regAt off) s).toNat = v) :
    hostAccess (.read (Config.coreBase + off) 4) s =
      .next { s with hostReplies := s.hostReplies ++ [BitVec.ofNat 32 v] } := by
  have hbusy := isBusy_of_not hs
  rw [hostAccess_read h h4, ← hv, BitVec.ofNat_toNat, BitVec.setWidth_eq]
  simp [afterRead, readReg, hbusy]

/-- GPARAM holds B above M (R71). -/
theorem regValue_gparam_toNat (s : State) :
    (regValue .gparam s).toNat = s.gM.toNat + 2 ^ 16 * s.gB.toNat := by
  have hval : (regValue .gparam s).toNat = (0#11 ++ s.gB).toNat * 2 ^ 16 + s.gM.toNat := append_toNat _ _
  rw [hval, append_toNat, BitVec.toNat_zero]
  omega

theorem regValue_gcutoff_toNat (s : State) : (regValue .gcutoff s).toNat = s.gCutoff.toNat :=
  (append_toNat 0#16 s.gCutoff).trans (by simp)

theorem regValue_bsbuf_toNat (s : State) : (regValue .bsbuf s).toNat = s.buf.toNat :=
  (append_toNat 0#24 s.buf).trans (by simp)

/-- APREV holds PREV_R above PREV_L (R71). -/
theorem regValue_aprev_toNat (s : State) :
    (regValue .aprev s).toNat = s.prevL.toNat + 2 ^ 16 * s.prevR.toNat :=
  (append_toNat s.prevR s.prevL).trans (by omega)

/-- CMD, CTRL and the reserved offsets are those that hold nothing (R71, R72). -/
theorem regValue_regAt_eq_zero {off : Nat}
    (h : off ∉ [0x04, 0x10, 0x14, 0x18, 0x1C, 0x20, 0x24, 0x28, 0x2C, 0x30, 0x38, 0x3C, 0x40, 0x48, 0x4C, 0x50])
    (s : State) : regValue (regAt off) s = 0#32 := by
  rcases regAt_cases off with hr | hr
  · rw [hr]; rfl
  · rw [hr] at h
    generalize regAt off = r at h ⊢
    cases r
    case cmd | ctrl | reserved => rfl
    all_goals simp [regOffset] at h

/-! ### Writing commands -/

/-- A refused byte, after fault entry (R306). -/
theorem refusedFrame_faultEntry {j : Nat} {bits : List Bool} {s u : State} (h : RefusedAt j bits s u) :
    RefusedFrame j bits s (faultEntry .ioError u) := by
  obtain ⟨hframe, hpre, hlength, hbits⟩ := h
  refine ⟨?_, by simpa using hpre, by simpa using hlength, by simpa using hbits⟩
  rw [hframe]
  rfl

/-- A command that writes `bits` and meets a refused byte faults with IoError (R84, R302). -/
theorem command_refused {j : Nat} {bits : List Bool} {body : State → Flow Unit} {s : State}
    (hw : Writes bits s (body s)) (hs : s.cstate ≠ .halted) (hm : s.bsMode = .write)
    (hj : j < bytesCompleted bits.length s) (hacc : SinkAccepts j s) (hio : sinkAnswerAt j s = .ioErr) :
    ∃ t, command (some .write) body s = .next t ∧ RefusedFrame j bits s t := by
  obtain ⟨u, hbody, hu⟩ := hw.2 j hj hacc hio
  rw [command_of_allowed hs (modeAllows_of_eq hm), hbody]
  exact ⟨_, rfl, refusedFrame_faultEntry hu⟩

/-- A command that writes `bits` and completes wrote them (R89). -/
theorem command_wrote {bits : List Bool} {body : State → Flow Unit} {s t : State}
    (hw : Writes bits s (body s)) (hs : s.cstate ≠ .halted) (hm : s.bsMode = .write)
    (h : command (some .write) body s = .next t) (ht : t.cstate = .idle) :
    ∃ u, Wrote bits s u ∧ t = complete u := by
  have hends := hw.ends
  rw [command_of_allowed hs (modeAllows_of_eq hm)] at h
  cases hbody : body s with
  | done a u =>
    rw [hbody] at h hends
    cases h
    exact ⟨u, hends, rfl⟩
  | raised e u =>
    rw [hbody] at h
    cases h
    rw [faultEntry_cstate] at ht
    cases ht
  | running =>
    rw [hbody] at hends
    exact hends.elim

theorem opaUnsigned32_eq (s : State) : opaUnsigned32 s = s.opa.toNat % 2 ^ 32 := by simp [opaUnsigned32]

theorem opaSigned32_eq (s : State) : opaSigned32 s = (s.opa.setWidth 32).toInt := by
  have hlow : s.opa.extractLsb' 0 32 = s.opa.setWidth 32 := BitVec.eq_of_toNat_eq (by simp)
  rw [opaSigned32, hlow]

/-- The widths that the field commands take (R115). -/
theorem widthInRange_of_le {n : Nat} (h1 : 1 ≤ n) (h64 : n ≤ 64) : widthInRange n = true := by
  simp [widthInRange, h1, h64]

theorem exec_bsWrbits {n : Nat} (h1 : 1 ≤ n) (h64 : n ≤ 64) (s : State) :
    exec (.bsWrbits n) s = command (some .write) (fun s => putField s.opa n s) s := by
  simp only [exec, execBsWrbits, widthInRange_of_le h1 h64, if_true]

theorem exec_gEncu (s : State) :
    exec .gEncu s = command (some .write) (fun s => encodeU (opaUnsigned32 s) s) s := rfl

theorem exec_gEnc (s : State) :
    exec .gEnc s = command (some .write) (fun s => encodeSigned (opaSigned32 s) s) s := rfl

/-! ### Reading commands that meet an IoErr -/

/-- An IoErr of the source, after fault entry (R306). -/
theorem sourceFaultFrame_faultEntry {s u : State} (h : SourceFailed s u) :
    SourceFaultFrame s (faultEntry .ioError u) := by
  obtain ⟨hframe, hmoved⟩ := h
  refine ⟨?_, by simpa using hmoved⟩
  rw [hframe]
  rfl

/-- A reading command whose first part meets an IoErr of the source faults with IoError (R85, R302). -/
theorem command_sourceFailed {α : Type} {f : State → Flow α} {k : α → State → Flow Unit} {s : State}
    (hf : ∃ u, f s = .raised .ioError u ∧ SourceFailed s u) (hs : s.cstate ≠ .halted) (hm : s.bsMode = .read) :
    ∃ t, command (some .read) (fun s => andThen (f s) k) s = .next t ∧ SourceFaultFrame s t := by
  obtain ⟨u, hraised, hu⟩ := hf
  rw [command_of_allowed hs (modeAllows_of_eq hm), hraised]
  exact ⟨_, rfl, sourceFaultFrame_faultEntry hu⟩

theorem not_canRead {n : Nat} {s : State} (h : (unreadBits s).length < n) (hf : sourceFails s = true) :
    ¬CanRead n s := by
  rintro (hle | hno)
  · omega
  · rw [hf] at hno; cases hno

theorem not_sourceEndless_of_fails {s : State} (hf : sourceFails s = true) : sourceEndless s = false := by
  by_contra he
  rw [not_sourceFails_of_endless (by simpa using he)] at hf
  cases hf

theorem getBit_sourceFailed {s : State} (h : unreadBits s = []) (hf : sourceFails s = true) :
    ∃ u, getBit s = .raised .ioError u ∧ SourceFailed s u := by
  rcases getBit_cases s with ⟨b, rest, u, hav, -⟩ | ⟨u, -, hno, -⟩ | ⟨u, -, -, hget, hu⟩
  · rw [available_of_finite (not_sourceEndless_of_fails hf), h] at hav
    cases hav
  · rw [hf] at hno; cases hno
  · exact ⟨u, hget, hu⟩

theorem getField_sourceFailed {n : Nat} {s : State} (h : (unreadBits s).length < n) (hf : sourceFails s = true) :
    ∃ u, getField n s = .raised .ioError u ∧ SourceFailed s u :=
  (getField_spec n s).2 (not_canRead h hf)

/-- `bits` end before a codeword of the coder of `s` does: inside its unary code, or inside its remainder. -/
def CodewordCut (bits : List Bool) (s : State) : Prop :=
  (∃ q, bits = List.replicate q false) ∨
    ∃ q tail, bits = unaryBits q ++ tail ∧ tail.length < remainderLength tail s

theorem CodewordCut.congr {bits : List Bool} {s t : State}
    (h : t.gM = s.gM ∧ t.gB = s.gB ∧ t.gCutoff = s.gCutoff ∧ t.gMode = s.gMode) (hc : CodewordCut bits s) :
    CodewordCut bits t := by
  rcases hc with hzeros | ⟨q, tail, hbits, hlt⟩
  · exact .inl hzeros
  · exact .inr ⟨q, tail, hbits, by rwa [(remainder_congr h tail).2]⟩

theorem decodeU_sourceFailed {s : State} (h : CodewordCut (unreadBits s) s) (hf : sourceFails s = true) :
    ∃ u, decodeU s = .raised .ioError u ∧ SourceFailed s u := by
  rcases h with ⟨q, hzeros⟩ | ⟨q, tail, hone, hlt⟩
  · exact (decodeU_zeros hzeros).2.1 hf
  · refine (decodeU_spec hone).2 (not_canRead ?_ hf)
    rw [hone, List.length_append, unaryBits_length]
    omega

/-- Under INTERLEAVING a signed value is one codeword (R180). -/
theorem decodeSigned_sourceFailed_interleaving {s : State} (hmode : s.gMode = .interleaving)
    (h : CodewordCut (unreadBits s) s) (hf : sourceFails s = true) :
    ∃ u, decodeSigned s = .raised .ioError u ∧ SourceFailed s u := by
  obtain ⟨u, hdec, hu⟩ := decodeU_sourceFailed h hf
  refine ⟨u, ?_, hu⟩
  simp only [decodeSigned, hmode, hdec, andThen_raised]

/-- Under SIGN_AND_MAGNITUDE it is a sign bit and a codeword (R180). -/
theorem decodeSigned_sourceFailed_signAndMagnitude {s : State} (hmode : s.gMode = .signAndMagnitude)
    (h : unreadBits s = [] ∨ ∃ sign bits, unreadBits s = sign :: bits ∧ CodewordCut bits s)
    (hf : sourceFails s = true) : ∃ u, decodeSigned s = .raised .ioError u ∧ SourceFailed s u := by
  rcases h with hnil | ⟨sign, bits, hcons, hcut⟩
  · obtain ⟨u, hget, hu⟩ := getBit_sourceFailed hnil hf
    exact ⟨u, by simp only [decodeSigned, hmode, hget, andThen_raised], hu⟩
  · obtain ⟨t, hget, ht, hrest, hfails⟩ := getBit_of_cons hcons
    have hcut' : CodewordCut (unreadBits t) t := by rw [hrest]; exact hcut.congr ht.golomb
    obtain ⟨u, hdec, hu⟩ := decodeU_sourceFailed hcut' (hfails.trans hf)
    refine ⟨u, ?_, ht.sourceFailed (by simp [hcons]) hu⟩
    simp only [decodeSigned, hmode, hget, andThen_done, hdec, andThen_raised]

/-! ### Header fields -/

@[simp] theorem leBytes_length (n v : Nat) : (leBytes n v).length = n := by
  induction n generalizing v with
  | zero => rfl
  | succ n ih => simp [leBytes, ih]

/-- The bytes of a field spell its value modulo `2^(8n)` (R83). -/
theorem leValue_leBytes (n v : Nat) : leValue (leBytes n v) = v % 256 ^ n := by
  induction n generalizing v with
  | zero => simp [leBytes, leValue, Nat.mod_one]
  | succ n ih =>
    rw [leBytes, leValue, ih, BitVec.toNat_ofNat, pow_succ' 256, Nat.mod_mul]

/-- A field at the front of the bytes. -/
theorem fieldAt_front (n v : Nat) (post : List Byte) : fieldAt (leBytes n v ++ post) 0 n = v % 256 ^ n := by
  rw [fieldAt, List.drop_zero, List.take_left' (leBytes_length n v), leValue_leBytes]

theorem fieldAt_last (n v : Nat) : fieldAt (leBytes n v) 0 n = v % 256 ^ n := by
  rw [← List.append_nil (leBytes n v), fieldAt_front]

/-- A field behind the bytes `pre`. -/
theorem fieldAt_append {pre : List Byte} {off : Nat} (h : pre.length ≤ off) (post : List Byte) (n : Nat) :
    fieldAt (pre ++ post) off n = fieldAt post (off - pre.length) n := by
  rw [fieldAt, List.drop_append, List.drop_eq_nil_of_le h, List.nil_append, fieldAt]

theorem gaclMagic_length : gaclMagic.length = 4 := by decide

theorem giclMagic_length : giclMagic.length = 4 := by decide

theorem adaptiveByte_mod (adaptive : Bool) : adaptiveByte adaptive % 256 = adaptive.toNat := by
  cases adaptive <;> rfl

/-- The fields of a GACL header, each at its offset (R260). -/
theorem gaclBytes_fields (h : GaclHeader) :
    (gaclBytes h).take 4 = gaclMagic ∧ fieldAt (gaclBytes h) 4 2 = 1 ∧
      fieldAt (gaclBytes h) 6 2 = h.channels % 2 ^ 16 ∧ fieldAt (gaclBytes h) 8 4 = h.sampleRate % 2 ^ 32 ∧
      fieldAt (gaclBytes h) 12 2 = 16 ∧ fieldAt (gaclBytes h) 14 8 = h.totalFrames % 2 ^ 64 ∧
      fieldAt (gaclBytes h) 22 1 = h.adaptive.toNat ∧
      fieldAt (gaclBytes h) 23 2 = fixedMField h.adaptive h.fixedM % 2 ^ 16 := by
  refine ⟨rfl, ?_⟩
  simp [gaclBytes, fieldAt_append, fieldAt_front, fieldAt_last, gaclMagic_length, adaptiveByte_mod]

/-- The fields of a GICL header, each at its offset (R261). -/
theorem giclBytes_fields (h : GiclHeader) :
    (giclBytes h).take 4 = giclMagic ∧ fieldAt (giclBytes h) 4 2 = 1 ∧
      fieldAt (giclBytes h) 6 4 = h.width % 2 ^ 32 ∧ fieldAt (giclBytes h) 10 4 = h.height % 2 ^ 32 ∧
      fieldAt (giclBytes h) 14 1 = h.adaptive.toNat ∧
      fieldAt (giclBytes h) 15 2 = fixedMField h.adaptive h.fixedM % 2 ^ 16 := by
  refine ⟨rfl, ?_⟩
  simp [giclBytes, fieldAt_append, fieldAt_front, fieldAt_last, giclMagic_length, adaptiveByte_mod]

theorem fixedMField_mod {m : Nat} (h : m < 2 ^ 16) (adaptive : Bool) :
    fixedMField adaptive m % 2 ^ 16 = if adaptive then 0 else m := by
  cases adaptive with
  | true => rfl
  | false => exact Nat.mod_eq_of_lt h

/-- What the parsers ask of the adaptive byte (R270, R272). -/
theorem adaptive_toNat_checks (adaptive : Bool) : (adaptive.toNat == 1) = adaptive ∧ ¬1 < adaptive.toNat := by
  cases adaptive <;> decide

theorem gaclBytes_length (h : GaclHeader) : (gaclBytes h).length = 25 := by
  simp [gaclBytes, gaclMagic_length]

theorem giclBytes_length (h : GiclHeader) : (giclBytes h).length = 17 := by
  simp [giclBytes, giclMagic_length]

/-- A GACL header of fields that fit passes every check of R270, and is read back. -/
theorem parseGacl_gaclBytes {h : GaclHeader} (hch : h.channels = 1 ∨ h.channels = 2) (hrate : h.sampleRate < 2 ^ 32)
    (hframes : h.totalFrames < 2 ^ 64) (hm : h.fixedM < 2 ^ 16) :
    parseGacl (gaclBytes h) = .ok { h with fixedM := if h.adaptive then 0 else h.fixedM } := by
  obtain ⟨hmagic, hversion, hchannels, hsampleRate, hbits, htotal, hadaptive, hfixed⟩ := gaclBytes_fields h
  obtain ⟨hflag, hle⟩ := adaptive_toNat_checks h.adaptive
  rw [Nat.mod_eq_of_lt (by omega)] at hchannels
  rw [Nat.mod_eq_of_lt hrate] at hsampleRate
  rw [Nat.mod_eq_of_lt hframes] at htotal
  rw [fixedMField_mod hm] at hfixed
  rw [parseGacl, hmagic, hversion, hchannels, hsampleRate, hbits, htotal, hadaptive, hfixed, hflag]
  rw [if_neg (by simp), if_neg (by simp), if_neg (by omega), if_neg (by simp), if_neg hle]

/-- A GICL header of fields that fit passes every check of R272, and is read back. -/
theorem parseGicl_giclBytes {h : GiclHeader} (hw : h.width < 2 ^ 32) (hh : h.height < 2 ^ 32)
    (hm : h.fixedM < 2 ^ 16) :
    parseGicl (giclBytes h) = .ok { h with fixedM := if h.adaptive then 0 else h.fixedM } := by
  obtain ⟨hmagic, hversion, hwidth, hheight, hadaptive, hfixed⟩ := giclBytes_fields h
  obtain ⟨hflag, hle⟩ := adaptive_toNat_checks h.adaptive
  rw [Nat.mod_eq_of_lt hw] at hwidth
  rw [Nat.mod_eq_of_lt hh] at hheight
  rw [fixedMField_mod hm] at hfixed
  rw [parseGicl, hmagic, hversion, hwidth, hheight, hadaptive, hfixed, hflag]
  rw [if_neg (by simp), if_neg (by simp), if_neg hle]

/-- Whatever follows a GICL header, its magic is not GACL's (R270). -/
theorem parseGacl_giclBytes_append (g : GiclHeader) (more : List Byte) :
    parseGacl (giclBytes g ++ more) = .error .invalidFormat := by
  have hmagic : (giclBytes g ++ more).take 4 = giclMagic := by
    rw [List.take_append_of_le_length (by rw [giclBytes_length]; omega)]
    exact (giclBytes_fields g).1
  rw [parseGacl, hmagic, if_pos (by decide)]

end Sys2Proof.Machine.Laws

namespace Sys2Proof.Proofs

open Sys2Proof.Machine Sys2Proof.Machine.Laws

/-- Settles O8: of a step's cases only an access of the host can stop, and an aligned one in the block does not. -/
theorem stopsOnlyOnForeignAccess : Obligations.StopsOnlyOnForeignAccess := by
  intro s hstop
  rcases step_cases s with ⟨w, u, -, -, hstep⟩ | ⟨u, -, ⟨-, hstep⟩ | ⟨a, rest, hq, hstep⟩⟩
  · obtain ⟨t, ht⟩ := runWord_next w u
    exact absurd (hstep.trans ht) (hstop t)
  · exact absurd hstep (hstop u)
  · obtain ⟨addr, size, ha⟩ := hostAccess_has_shape a
    refine ⟨a, rest, addr, size, hq, ha, fun hin => ?_⟩
    obtain ⟨t, ht⟩ := hostAccess_next ha hin { u with hostQueue := rest }
    exact hstop t (hstep.trans ht)

/-- Settles O9, by where such an access falls. -/
theorem foreignAccessStops : Obligations.ForeignAccessStops := by
  intro s off size v
  constructor
  · intro hoff hshape
    simp only [hostAccess, placeOf_misshapen hoff hshape, and_self]
  · intro hoff
    simp only [hostAccess, placeOf_outside hoff, and_self]

/-- Settles O10: the host's move, in the state its turn leaves. -/
theorem stepMakesOldestAccess : Obligations.StepMakesOldestAccess := by
  intro s
  refine ⟨fun hs => ?_, fun w hw => ⟨⟨(nextTurn s).2, ?_⟩, fun u hturn => ?_⟩⟩
  · rw [step_of_not_busy hs]
    exact perform_hostMove s
  · have hturn := turnOf_nextTurn s
    cases ha : (nextTurn s).1 with
    | core => rw [ha] at hturn; exact .inl hturn
    | host => rw [ha] at hturn; exact .inr hturn
  · have hq : u.hostQueue = s.hostQueue := by rw [TurnOf.frame hturn]
    rw [step_of_hostTurn hw hturn, ← hq]
    exact perform_hostMove u

/-- Settles O14, by the number each register holds. -/
theorem registerReadValues : Obligations.RegisterReadValues := by
  intro s hs reads
  have read {off v : Nat} (h : off < 256) (h4 : off % 4 = 0) (hv : (regValue (regAt off) s).toNat = v) :
      reads off v := hostAccess_read_value hs h h4 hv
  refine ⟨?_, ?_, ?_, ?_, ?_, ?_, ?_, ?_, ?_, ?_, ?_, ?_, ?_, ?_, ?_, fun off h h4 hother => ?_⟩
  · exact read (by decide) (by decide) (loHalf_toNat s.opa)
  · exact read (by decide) (by decide) (hiHalf_toNat s.opa)
  · exact read (by decide) (by decide) (loHalf_toNat s.opb)
  · exact read (by decide) (by decide) (hiHalf_toNat s.opb)
  · exact read (by decide) (by decide) (loHalf_toNat s.res)
  · exact read (by decide) (by decide) (hiHalf_toNat s.res)
  · exact read (by decide) (by decide) (regValue_gparam_toNat s)
  · exact read (by decide) (by decide) (regValue_gcutoff_toNat s)
  · exact read (by decide) (by decide) (regValue_bsbuf_toNat s)
  · exact read (by decide) (by decide) (loHalf_toNat s.byteCnt)
  · exact read (by decide) (by decide) (hiHalf_toNat s.byteCnt)
  · exact read (by decide) (by decide) (regValue_aprev_toNat s)
  · exact read (by decide) (by decide) (loHalf_toNat s.sum)
  · exact read (by decide) (by decide) (hiHalf_toNat s.sum)
  · exact read (by decide) (by decide) rfl
  · exact read h h4 (congrArg BitVec.toNat (regValue_regAt_eq_zero hother s))

/-- Settles O34: each of the four commands writes its bits, up to the refused byte. -/
theorem refusedByteFaults : Obligations.RefusedByteFaults := by
  intro s j hs hm hacc hio
  refine ⟨fun b hj => ?_, fun n h1 h64 hj => ?_, fun hj => ?_, fun hj => ?_⟩
  · exact command_refused (writes_putBit b s) hs hm hj hacc hio
  · rw [exec_bsWrbits h1 h64]
    exact command_refused (writes_putField s.opa n s) hs hm (by rwa [← fieldBits_length n s.opa] at hj) hacc hio
  · rw [← opaUnsigned32_eq] at hj ⊢
    rw [exec_gEncu]
    exact command_refused (writes_encodeU (opaUnsigned32 s) s) hs hm hj hacc hio
  · rw [← opaSigned32_eq] at hj ⊢
    rw [exec_gEnc]
    exact command_refused (writes_encodeSigned (opaSigned32 s) s) hs hm hj hacc hio

/-- Settles O37: each command's reading part runs out of bits before the IoErr. -/
theorem sourceErrorFaults : Obligations.SourceErrorFaults := by
  intro s hs hm hf faults
  have decu (h : CodewordCut (unreadBits s) s) : faults .gDecu :=
    command_sourceFailed (decodeU_sourceFailed h hf) hs hm
  have decInterleaved (h : CodewordCut (unreadBits s) s) (hmode : s.gMode = .interleaving) : faults .gDec :=
    command_sourceFailed (decodeSigned_sourceFailed_interleaving hmode h hf) hs hm
  refine ⟨fun h => ?_, fun n h1 h64 h => ?_, fun h => ?_, fun q h => ?_, fun q tail h hlt => ?_, fun hmode => ?_⟩
  · exact command_sourceFailed (getBit_sourceFailed h hf) hs hm
  · simp only [faults, exec, execBsRdbits, widthInRange_of_le h1 h64, if_true]
    exact command_sourceFailed (getField_sourceFailed h hf) hs hm
  · exact command_sourceFailed (getField_sourceFailed h hf) hs hm
  · have hcut : CodewordCut (unreadBits s) s := .inl ⟨q, h⟩
    exact ⟨decu hcut, decInterleaved hcut⟩
  · have hcut : CodewordCut (unreadBits s) s := .inr ⟨q, tail, h, hlt⟩
    exact ⟨decu hcut, decInterleaved hcut⟩
  · have decSign (h : unreadBits s = [] ∨ ∃ sign bits, unreadBits s = sign :: bits ∧ CodewordCut bits s) :
        faults .gDec := command_sourceFailed (decodeSigned_sourceFailed_signAndMagnitude hmode h hf) hs hm
    refine ⟨fun h => decSign (.inl h), fun sign q h => ?_, fun sign q tail h hlt => ?_⟩
    · exact decSign (.inr ⟨sign, _, h, .inl ⟨q, rfl⟩⟩)
    · exact decSign (.inr ⟨sign, _, h, .inr ⟨q, tail, rfl, hlt⟩⟩)

/-- Settles O59: every field of a header is found at its offset, whole when it fits. -/
theorem headersReadBack : Obligations.HeadersReadBack :=
  ⟨fun h hch hrate hframes hm => ⟨gaclBytes_length h, parseGacl_gaclBytes hch hrate hframes hm⟩,
    fun h hw hh hm => ⟨giclBytes_length h, parseGicl_giclBytes hw hh hm⟩, parseGacl_giclBytes_append⟩

/-- Settles O38: the bits written are the field's, which spell its value, and reading takes just as many. -/
theorem fieldRoundTrip : Obligations.FieldRoundTrip := by
  intro w w' r n bits rest hw hwm h1 h64 hexec hidle hbits hr hrm hunread
  rw [exec_bsWrbits h1 h64] at hexec
  obtain ⟨u, hu, rfl⟩ := command_wrote (writes_putField w.opa n w) hw hwm hexec hidle
  obtain rfl : bits = fieldBits n w.opa := List.append_cancel_left (hbits.symm.trans hu.2.1)
  have hlen : n ≤ (unreadBits r).length := by rw [hunread, List.length_append, fieldBits_length]; omega
  obtain ⟨t, hget, ht⟩ := (getField_spec n r).1 (.inl hlen)
  have hvalue : bitsValue (paddedTake n (unreadBits r)) = w.opa.toNat % 2 ^ n := by
    rw [paddedTake_of_le hlen, hunread, List.take_left' (fieldBits_length n _), bitsValue_fieldBits]
  refine ⟨_, exec_bsRdbits hr hrm h1 h64 hget, rfl, ?_, ?_⟩
  · rw [complete_res, setRes_res, hvalue, unsignedResult, BitVec.toNat_ofNat]
    exact Nat.mod_eq_of_lt ((Nat.mod_le _ _).trans_lt w.opa.isLt)
  · refine ht.readBits.1.trans ?_
    rw [available_of_le hlen, hunread, List.drop_left' (fieldBits_length n _)]

end Sys2Proof.Proofs

/-! PROOF. Command words: a word decodes exactly as its opcode, its reserved bits and its field say, so that decoder
and encoder are inverse (30_encoding.md R111, R113, R114, R116), and what a word or a field that is refused does when
it executes (R114, R115, R310). -/

namespace Sys2Proof.Laws

/-! ### Fields -/

/-- How many low bits of a command's word are its field (R111). -/
def fieldWidth : Instr → Nat
  | .bsWrbit _ | .gSetmode _ => 1
  | .bsWrbits _ | .bsRdbits _ => 7
  | .gSetm _ => 16
  | _ => 0

/-- The command of `i`'s opcode with its field read from `w` (R111). -/
def readFields (w : Word) : Instr → Instr
  | .bsWrbit _ => .bsWrbit (fieldS w)
  | .bsWrbits _ => .bsWrbits (fieldN w)
  | .bsRdbits _ => .bsRdbits (fieldN w)
  | .gSetm _ => .gSetm (fieldImm16 w)
  | .gSetmode _ => .gSetmode (modeOfBit (fieldS w))
  | i => i

/-- Below the opcode a format reserves exactly the bits above its field (R111, R116). -/
theorem reservedMask_getLsbD (i : Instr) :
    ∀ j < 24, (reservedMask i).getLsbD j = decide (fieldWidth i ≤ j) := by
  cases i with
  | bsWrbit b => exact (by decide : ∀ j < 24, maskS.getLsbD j = decide (1 ≤ j))
  | gSetmode m => exact (by decide : ∀ j < 24, maskS.getLsbD j = decide (1 ≤ j))
  | bsWrbits n => exact (by decide : ∀ j < 24, maskN.getLsbD j = decide (7 ≤ j))
  | bsRdbits n => exact (by decide : ∀ j < 24, maskN.getLsbD j = decide (7 ≤ j))
  | gSetm imm => exact (by decide : ∀ j < 24, maskI.getLsbD j = decide (16 ≤ j))
  | _ => exact (by decide : ∀ j < 24, maskZ.getLsbD j = decide (0 ≤ j))

theorem bitOfMode_modeOfBit (b : Bool) : bitOfMode (modeOfBit b) = b := by cases b <;> rfl

theorem modeOfBit_bitOfMode (m : GMode) : modeOfBit (bitOfMode m) = m := by cases m <;> rfl

theorem fieldS_eq (w : Word) : BitVec.ofBool (fieldS w) = w.extractLsb' 0 1 := by
  apply BitVec.eq_of_getLsbD_eq
  intro j hj
  obtain rfl : j = 0 := by omega
  simp [fieldS]

/-- The field written for the command read from `w` is the low bits of `w` (R111). -/
theorem operandField_readFields (w : Word) (i : Instr) :
    operandField (readFields w i) = (w.extractLsb' 0 (fieldWidth i)).setWidth 24 := by
  cases i with
  | bsWrbit b => rw [readFields, operandField, fieldS_eq, fieldWidth]
  | gSetmode m => rw [readFields, operandField, bitOfMode_modeOfBit, fieldS_eq, fieldWidth]
  | bsWrbits n => rw [readFields, operandField, fieldN, BitVec.ofNat_toNat, BitVec.setWidth_eq, fieldWidth]
  | bsRdbits n => rw [readFields, operandField, fieldN, BitVec.ofNat_toNat, BitVec.setWidth_eq, fieldWidth]
  | gSetm imm => rfl
  | _ => exact (congrArg (BitVec.setWidth 24) (w.extractLsb' 0 0).eq_nil).symm

/-- The low bits of a command's word are those of its field (R111). -/
theorem encode_extractLsb' (i : Instr) {n : Nat} (h : n ≤ 24) :
    (encode i).extractLsb' 0 n = (operandField i).extractLsb' 0 n := by
  apply BitVec.eq_of_getLsbD_eq
  intro j hj
  rw [BitVec.getLsbD_extractLsb', BitVec.getLsbD_extractLsb', Nat.zero_add, encode_getLsbD, if_pos (by omega)]

theorem fieldS_encode (i : Instr) : fieldS (encode i) = (operandField i).getLsbD 0 := encode_getLsbD i 0

/-- A width that fits its seven bits comes back from them (R111). -/
theorem fieldN_encode {i : Instr} {n : Nat} (hf : operandField i = (BitVec.ofNat 7 n).setWidth 24)
    (hn : n < 128) : fieldN (encode i) = n := by
  rw [fieldN, encode_extractLsb' i (by decide), hf, ← BitVec.setWidth_eq_extractLsb' (by decide),
    BitVec.setWidth_setWidth_of_le _ (by decide), BitVec.setWidth_eq, BitVec.toNat_ofNat, Nat.mod_eq_of_lt hn]

/-- The field of a well-formed command's word reads back as the command has it (R111). -/
theorem readFields_encode {i : Instr} (h : i.wellFormed = true) : readFields (encode i) i = i := by
  cases i with
  | bsWrbit b => exact congrArg Instr.bsWrbit ((fieldS_encode _).trans (by cases b <;> rfl))
  | bsWrbits n => exact congrArg Instr.bsWrbits (fieldN_encode rfl (of_decide_eq_true h))
  | bsRdbits n => exact congrArg Instr.bsRdbits (fieldN_encode rfl (of_decide_eq_true h))
  | gSetm imm =>
    rw [readFields, fieldImm16, encode_extractLsb' _ (by decide), operandField,
      ← BitVec.setWidth_eq_extractLsb' (by decide), BitVec.setWidth_setWidth_of_le _ (by decide), BitVec.setWidth_eq]
  | gSetmode m =>
    have hbit : fieldS (encode (.gSetmode m)) = bitOfMode m := (fieldS_encode _).trans (by cases m <;> rfl)
    rw [readFields, hbit, modeOfBit_bitOfMode]
  | _ => rfl

/-- What is read from a word fits its field (R111). -/
theorem wellFormed_readFields (w : Word) (i : Instr) : (readFields w i).wellFormed = true := by
  cases i with
  | bsWrbits n => exact decide_eq_true (w.extractLsb' 0 7).isLt
  | bsRdbits n => exact decide_eq_true (w.extractLsb' 0 7).isLt
  | _ => rfl

theorem opcode_readFields (w : Word) (i : Instr) : opcode (readFields w i) = opcode i := by
  cases i <;> rfl

/-- The word of every command is zero under its reserved mask (R116). -/
theorem encode_and_reservedMask (i : Instr) : encode i &&& reservedMask i = 0#32 := by
  cases i with
  | bsWrbit b => exact ReservedZero.bsWrbit b
  | bsWrbits n => exact ReservedZero.bsWrbits n
  | bsRdbits n => exact ReservedZero.bsRdbits n
  | gSetm imm => exact ReservedZero.gSetm imm
  | gSetmode m => exact ReservedZero.gSetmode m
  | _ => rfl

/-! ### The decoder -/

theorem whenReservedZero_eq_ok {mask w : Word} {i j : Instr} :
    whenReservedZero mask w i = .ok j ↔ w &&& mask = 0#32 ∧ i = j := by
  by_cases h : w &&& mask = 0#32
  · simp [whenReservedZero, h]
  · simp [whenReservedZero, h]

/-- A word with a command's opcode spells that command, with its own field, when its reserved bits are zero (R113,
R114, R116). -/
theorem decode_of_opcode {w : Word} {i : Instr} (h : opcodeOf w = opcode i) :
    decode w = whenReservedZero (reservedMask i) w (readFields w i) := by
  unfold decode
  rw [h]
  cases i <;> rfl

/-- What a word decodes to has the word's opcode, its reserved bits zero, and its field (R113, R114, R116). -/
theorem of_decode_eq_ok {w : Word} {i : Instr} (h : decode w = .ok i) :
    opcodeOf w = opcode i ∧ w &&& reservedMask i = 0#32 ∧ readFields w i = i := by
  unfold decode at h
  split at h
  case h_26 => cases h
  all_goals
    obtain ⟨hreserved, rfl⟩ := whenReservedZero_eq_ok.1 h
    exact ⟨BitVec.eq_of_toNat_eq ‹_›, hreserved, rfl⟩

theorem decode_eq_ok_iff {w : Word} {i : Instr} :
    decode w = .ok i ↔ opcodeOf w = opcode i ∧ w &&& reservedMask i = 0#32 ∧ readFields w i = i := by
  refine ⟨of_decode_eq_ok, fun ⟨hop, hreserved, hfields⟩ => ?_⟩
  rw [decode_of_opcode hop]
  exact whenReservedZero_eq_ok.2 ⟨hreserved, hfields⟩

/-- A word is its opcode and its field when its reserved bits are zero (R111, R116). -/
theorem encode_readFields {w : Word} {i : Instr} (hop : opcodeOf w = opcode i)
    (hreserved : w &&& reservedMask i = 0#32) : encode (readFields w i) = w := by
  apply BitVec.eq_of_getLsbD_eq
  intro j hj
  rw [encode_getLsbD]
  split
  case isTrue hlow =>
    rw [operandField_readFields, BitVec.getLsbD_setWidth, BitVec.getLsbD_extractLsb', Nat.zero_add]
    by_cases hfield : j < fieldWidth i
    · simp [hlow, hfield]
    · have hmask : (reservedMask i).getLsbD j = true := by
        rw [reservedMask_getLsbD i j hlow, decide_eq_true (by omega)]
      simp [hfield, reserved_bit hreserved j hmask]
  case isFalse hhigh =>
    rw [opcode_readFields, ← hop, opcodeOf, BitVec.getLsbD_extractLsb', decide_eq_true (by omega), Bool.true_and]
    congr 1
    omega

end Sys2Proof.Laws

namespace Sys2Proof.Machine.Laws

open Sys2Proof.Laws

/-! ### Refused words and fields -/

/-- A pending word that spells no command is IllegalCommand (R114). -/
theorem runWord_undefined {w : Word} {s : State} (hw : ¬∃ i, decode w = .ok i) (hs : s.cstate ≠ .halted) :
    runWord w s = .next { s with cstate := .halted, errCode := .illegalCommand } := by
  unfold runWord
  cases hd : decode w with
  | ok i => exact absurd ⟨i, hd⟩ hw
  | error e => exact illegalWord_eq hs

/-- A command that refuses its field stops at once with InvalidParameter (R115). -/
theorem command_invalidParameter {need : Option BsMode} {body : State → Flow Unit} {s : State}
    (hs : s.cstate ≠ .halted) (hm : modeAllows need s = true) (hbody : body s = .raised .invalidParameter s) :
    command need body s = .next { s with cstate := .halted, errCode := .invalidParameter } := by
  rw [command_of_allowed hs hm, hbody]
  rfl

theorem widthInRange_eq_false {n : Nat} (h : n = 0 ∨ 65 ≤ n) : widthInRange n = false := by
  simp only [widthInRange, Bool.and_eq_false_iff, decide_eq_false_iff_not]
  omega

/-! ### The host's DO and CHECK -/

/-- In IDLE, ISSUE makes the command's word pending (R31, R118). -/
theorem hostIssue_of_idle {i : Instr} {s : State} (hs : s.cstate = .idle) :
    hostIssue i s = { s with cstate := .busy (encode i) } := writeCmd_of_idle hs _

theorem afterCommand_of_exec {w : Word} {i : Instr} {s t : State} (hw : decode w = .ok i)
    (hexec : exec i s = .next t) : afterCommand w s = t := by
  simp only [afterCommand, runWord, hw, hexec]

/-- WAIT is over in the state the pending command leaves, unless that is BUSY still (R350, R360). -/
theorem hostWait_of_busy {w : Word} {s : State} (hs : s.cstate = .busy w) :
    hostWait s = if isBusy (afterCommand w s) then .running else .done () (afterCommand w s) := by
  simp only [hostWait, pendingWord_of_busy hs]

theorem errCodeBits_eq_zero {e : ErrCode} : errCodeBits e = 0#4 ↔ e = .none := by
  cases e <;> decide

/-- With no command pending, CHECK sees the ERRCODE that is recorded (R34, R118). -/
theorem hostCheck_of_not_busy {s : State} (hs : ∀ w, s.cstate ≠ .busy w) :
    hostCheck s = if s.errCode = .none then .done () s else .raised s.errCode s := by
  have hread : readReg .status s = statusWord s := by simp only [readReg, isBusy_of_not hs]; rfl
  obtain ⟨-, -, -, -, -, herr, -, -⟩ := statusWord_fields s
  simp only [hostCheck, hread, herr, errCodeBits_eq_zero]

end Sys2Proof.Machine.Laws

namespace Sys2Proof.Proofs

open Sys2Proof.Machine Sys2Proof.Machine.Laws Sys2Proof.Laws

/-- Settles O1: a command's word has its opcode, no reserved bit, and its field. -/
theorem decodeOfEncode : Obligations.DecodeOfEncode := fun i hi =>
  decode_eq_ok_iff.2 ⟨opcodeOf_encode i, encode_and_reservedMask i, readFields_encode hi⟩

/-- Settles O2: a decoded command has its field from the word, so it fits and is written back. -/
theorem encodeOfDecode : Obligations.EncodeOfDecode := by
  intro w i hw
  obtain ⟨hop, hreserved, hfields⟩ := of_decode_eq_ok hw
  rw [← hfields]
  exact ⟨wellFormed_readFields w i, encode_readFields hop hreserved⟩

/-- Settles O3: the command of the word's opcode, with the word's field, is the one it spells. -/
theorem definedWords : Obligations.DefinedWords := by
  refine ⟨fun w => ⟨fun ⟨i, hw⟩ => ?_, fun ⟨i, hop, hreserved⟩ => ⟨readFields w i, ?_⟩⟩, rfl, rfl, rfl, rfl⟩
  · obtain ⟨hop, hreserved, -⟩ := of_decode_eq_ok hw
    exact ⟨i, hop.symm, hreserved⟩
  · rw [decode_of_opcode hop.symm]
    exact whenReservedZero_eq_ok.2 ⟨hreserved, rfl⟩

/-- Settles O5: on the core's turn the word runs, and by O3 it spells no command. -/
theorem undefinedWordFaults : Obligations.UndefinedWordFaults := by
  intro s u w hs hturn hw
  have hu : u.cstate ≠ .halted := by rw [TurnOf.frame hturn]; simp [hs]
  rw [step_of_coreTurn hs hturn]
  exact runWord_undefined (fun hdec => hw ((definedWords.1 w).1 hdec)) hu

/-- Settles O23: the frame of every command checks the BSMODE before the body looks at a field. -/
theorem wrongModeFaults : Obligations.WrongModeFaults := by
  intro i m s hs hneed hmode
  obtain ⟨body, hbody⟩ := exec_eq_command i s
  rw [hbody, hneed, command_of_wrongMode hs (by rw [modeAllows_some, decide_eq_false hmode])]
  rfl

/-- Settles O32: each of the three commands looks at its field first. -/
theorem outOfRangeFieldsFault : Obligations.OutOfRangeFieldsFault := by
  refine ⟨fun s n hs hn => ⟨fun hm => ?_, fun hm => ?_⟩, fun s hs => ?_⟩
  · rw [exec, execBsWrbits]
    exact command_invalidParameter hs (modeAllows_of_eq hm) (by rw [widthInRange_eq_false hn]; rfl)
  · rw [exec, execBsRdbits]
    exact command_invalidParameter hs (modeAllows_of_eq hm) (by rw [widthInRange_eq_false hn]; rfl)
  · rw [exec, execGSetm]
    exact command_invalidParameter hs (modeAllows_none s) rfl

/-- Settles O60: ISSUE makes the word pending, by O1 it runs as the command, and CHECK reads what that leaves. -/
theorem hostDoRunsCommand : Obligations.HostDoRunsCommand := by
  intro i s t hi hs hexec
  have hafter : afterCommand (encode i) { s with cstate := .busy (encode i) } = t :=
    afterCommand_of_exec (decodeOfEncode i hi) hexec
  have hdo : hostDo i s = andThen (if isBusy t then .running else .done () t) fun _ s' => hostCheck s' := by
    rw [hostDo, hostIssue_of_idle hs, hostWait_of_busy rfl, hafter]
  refine ⟨fun ht => ?_, fun w hw => ?_⟩
  · have hcheck : hostDo i s = hostCheck t := by rw [hdo, isBusy_of_not ht]; rfl
    rw [hcheck, hostCheck_of_not_busy ht]
    exact ⟨fun he => if_pos he, fun he => if_neg he⟩
  · rw [hdo, isBusy_of_busy hw]
    rfl

/-- Settles O4, by evaluation of the six words. -/
theorem sampleWordsDecode : Obligations.SampleWordsDecode := by
  unfold Obligations.SampleWordsDecode
  decide

end Sys2Proof.Proofs

/-! PROOF. The BitStream commands that bind, unbind and write the stream: what each leaves, that closing pads with
zero bits, and that a field write is its bit writes (41_bitstream.md R140, R141, R145 to R149, R152). -/

namespace Sys2Proof.Machine.Laws

/-! ### Commands that complete -/

/-- A command that leaves IDLE, and whose body ends, completed its body (R31, R306). -/
theorem command_completed {need : Option BsMode} {body : State → Flow Unit} {s t : State}
    (hs : s.cstate ≠ .halted) (hm : modeAllows need s = true) (hend : body s ≠ .running)
    (h : command need body s = .next t) (ht : t.cstate = .idle) : ∃ u, body s = .done () u ∧ t = complete u := by
  rcases command_cases h with
    ⟨hh, -⟩ | ⟨-, hm', -⟩ | ⟨-, -, hdone⟩ | ⟨-, -, e, u, -, rfl⟩ | ⟨-, -, hrun, -⟩
  · exact absurd hh hs
  · rw [hm] at hm'; cases hm'
  · exact hdone
  · rw [faultEntry_cstate] at ht; cases ht
  · exact absurd hrun hend

/-- Writing ends (R84, R360). -/
theorem Writes.ne_running {bits : List Bool} {s : State} {f : Flow Unit} (h : Writes bits s f) : f ≠ .running := by
  rintro rfl
  exact h.ends

/-- What was written, after completion (R49). -/
theorem Wrote.writeFrame_complete {bits : List Bool} {s u : State} (h : Wrote bits s u) :
    WriteFrame s (complete u) ∧ writtenBits (complete u) = writtenBits s ++ bits := by
  obtain ⟨hframe, hbits, hpre, hcount, hasked, hlow⟩ := h
  refine ⟨⟨?_, hpre, hcount, hasked, hlow⟩, hbits⟩
  rw [hframe]
  rfl

/-- A command that writes `bits` to a sink that accepts the bytes they complete, completes (R89). -/
theorem command_accepted {bits : List Bool} {body : State → Flow Unit} {s : State} (hw : Writes bits s (body s))
    (hs : s.cstate ≠ .halted) (hm : s.bsMode = .write) (hacc : SinkAccepts (bytesCompleted bits.length s) s) :
    ∃ t, command (some .write) body s = .next t ∧ WriteFrame s t ∧ writtenBits t = writtenBits s ++ bits := by
  obtain ⟨u, hbody, hu⟩ := hw.1 hacc
  rw [command_of_allowed hs (modeAllows_of_eq hm), hbody]
  exact ⟨_, rfl, hu.writeFrame_complete⟩

/-! ### Opening -/

theorem exec_bsOpenw {s : State} (hs : s.cstate ≠ .halted) (hm : s.bsMode = .closed) :
    exec .bsOpenw s = .next (complete (openStream .write s)) := by
  rw [exec, execBsOpenw, command_of_allowed hs (modeAllows_of_eq hm), conclude_done]

theorem exec_bsOpenr {s : State} (hs : s.cstate ≠ .halted) (hm : s.bsMode = .closed) :
    exec .bsOpenr s = .next (complete (openStream .read s)) := by
  rw [exec, execBsOpenr, command_of_allowed hs (modeAllows_of_eq hm), conclude_done]

/-! ### Closing -/

/-- The sink accepts the byte it is offered (R84). -/
theorem putByte_accepted {s : State} (h : sinkAnswerAt 0 s = .ok) (v : Byte) :
    putByte v s = .done () { s with
      sinkBytes := s.sinkBytes ++ [v], sinkAsked := s.sinkAsked + 1, byteCnt := s.byteCnt + 1#64 } := by
  rw [putByte, sinkAnswer_eq_at, h]

/-- The sink refuses the byte it is offered (R84). -/
theorem putByte_refused {s : State} (h : sinkAnswerAt 0 s = .ioErr) (v : Byte) :
    ∃ u, putByte v s = .raised .ioError u ∧ RefusedAt 0 [] s u := by
  refine ⟨{ s with sinkAsked := s.sinkAsked + 1 }, ?_, by simp, List.prefix_rfl, rfl, ?_⟩
  · rw [putByte, sinkAnswer_eq_at, h]
  · rw [writtenBits, List.append_assoc]
    exact List.prefix_append _ _

/-- Only a writer has bits to flush, and only when CNT is not 0 (R147). -/
theorem flushPending_of_empty {s : State} (h : s.bsMode = .write → s.cnt = 0#3) : flushPending s = .done () s :=
  if_neg fun ⟨hw, hc⟩ => hc (h hw)

/-- A writer's pending bits are sent as BUF (R147). -/
theorem flushPending_of_pending {s : State} (hm : s.bsMode = .write) (hc : s.cnt ≠ 0#3) :
    flushPending s = putByte s.buf s :=
  if_pos ⟨hm, hc⟩

/-- BS.CLOSE is never refused for its BSMODE (R147). -/
theorem exec_bsClose {s : State} (hs : s.cstate ≠ .halted) :
    exec .bsClose s = conclude s (andThen (flushPending s) fun _ u =>
      .done () (if u.bsMode = .closed then u else closeStream u)) := by
  rw [exec, execBsClose, command_of_allowed hs (modeAllows_none s)]

/-- When the flush completes in an open stream, the stream is closed (R147). -/
theorem exec_bsClose_flushed {s u : State} (hs : s.cstate ≠ .halted) (hflush : flushPending s = .done () u)
    (hu : u.bsMode ≠ .closed) : exec .bsClose s = .next (complete (closeStream u)) := by
  rw [exec_bsClose hs, hflush, andThen_done, if_neg hu, conclude_done]

/-- Over zero low bits, the byte that is flushed is the pending bits and then zeros (R39, R147). -/
theorem byteBits_buf_of_lowBitsZero {s : State} (h : LowBitsZero s) :
    byteBits s.buf = pendingBits s ++ List.replicate (8 - s.cnt.toNat) false := by
  have hlt := cnt_lt s
  apply List.ext_getElem
  · simp; omega
  · intro i hi hi'
    rw [byteBits_length] at hi
    rw [List.getElem_append]
    split
    case isTrue => simp [byteBits, pendingBits]
    case isFalse hlow =>
      rw [pendingBits_length] at hlow
      simp only [byteBits, List.getElem_map, List.getElem_range, List.getElem_replicate]
      exact h _ (by omega)

theorem flatMap_append_buf_of_lowBitsZero {s : State} (h : LowBitsZero s) :
    (s.sinkBytes ++ [s.buf]).flatMap byteBits = writtenBits s ++ List.replicate (8 - s.cnt.toNat) false := by
  rw [List.flatMap_append, List.flatMap_singleton, byteBits_buf_of_lowBitsZero h, writtenBits, List.append_assoc]

theorem flatMap_sinkBytes_of_cnt_eq_zero {s : State} (h : s.cnt = 0#3) :
    s.sinkBytes.flatMap byteBits = writtenBits s := by
  rw [writtenBits, pendingBits, h]
  exact (List.append_nil _).symm

/-- Fewer than 8 zero bits after `bits` fill the last of the bytes that they need (R152). -/
theorem padded_of_flatMap_eq {l : List Byte} {bits : List Bool} {k : Nat}
    (h : l.flatMap byteBits = bits ++ List.replicate k false) (hk : k < 8) :
    l.flatMap byteBits = bits ++ List.replicate (8 * l.length - bits.length) false ∧
      l.length = (bits.length + 7) / 8 := by
  have hlength : 8 * l.length = bits.length + k := by
    rw [← flatMap_byteBits_length, h, List.length_append, List.length_replicate]
  refine ⟨?_, by omega⟩
  rw [h, hlength, Nat.add_sub_cancel_left]

/-! ### Field writes and bit writes -/

/-- The next command of a sequence, run where the one before left off. -/
def execNext (r : StepOutcome) (i : Instr) : StepOutcome :=
  match r with
  | .next u => exec i u
  | .fault e => .fault e
  | .refused e => .refused e

@[simp] theorem execNext_next (u : State) (i : Instr) : execNext (.next u) i = exec i u := rfl

theorem exec_bsWrbit (b : Bool) (s : State) : exec (.bsWrbit b) s = command (some .write) (putBit b) s := rfl

/-- Sending a byte does not depend on CSTATE (R84). -/
theorem putByte_complete {v : Byte} {s u : State} (h : putByte v s = .done () u) :
    putByte v (complete s) = .done () (complete u) := by
  have hanswer : sinkAnswer (complete s) = sinkAnswer s := rfl
  unfold putByte at h ⊢
  rw [hanswer]
  cases ha : sinkAnswer s with
  | ok => rw [ha] at h; cases h; rfl
  | ioErr => rw [ha] at h; cases h

/-- Writing a bit does not depend on CSTATE (R140). -/
theorem putBit_complete {b : Bool} {s u : State} (h : putBit b s = .done () u) :
    putBit b (complete s) = .done () (complete u) := by
  unfold putBit at h ⊢
  by_cases hc : s.cnt = 7#3
  · rw [if_pos hc] at h
    rw [if_pos (show (complete s).cnt = 7#3 from hc)]
    obtain ⟨⟨⟩, w, hput, hw⟩ := andThen_eq_done h
    cases hw
    exact congrArg (andThen · _) (putByte_complete hput)
  · rw [if_neg hc] at h
    rw [if_neg (show (complete s).cnt ≠ 7#3 from hc)]
    cases h
    rfl

/-- BS.WRBIT from a state that is not HALTED is the bit, written, and completion (R148). -/
theorem exec_bsWrbit_of_done {b : Bool} {s u : State} (hs : s.cstate ≠ .halted) (hm : s.bsMode = .write)
    (h : putBit b s = .done () u) : exec (.bsWrbit b) s = .next (complete u) := by
  rw [exec_bsWrbit, command_of_allowed hs (modeAllows_of_eq hm), h, conclude_done]

theorem exec_bsWrbit_complete {b : Bool} {s u : State} (hm : s.bsMode = .write) (h : putBit b s = .done () u) :
    exec (.bsWrbit b) (complete s) = .next (complete u) :=
  exec_bsWrbit_of_done (s := complete s) (u := complete u) nofun hm (putBit_complete h)

theorem putBit_bsMode {b : Bool} {s u : State} (h : putBit b s = .done () u) : u.bsMode = s.bsMode := by
  have hw := (writes_putBit b s).ends
  rw [h] at hw
  rw [hw.1]

/-- The bits of a field, written by one command each after the command before (R141, R152). -/
theorem foldl_bsWrbit_of_putField {v : DWord} {n : Nat} {s u : State} (hm : s.bsMode = .write)
    (h : putField v n s = .done () u) :
    ((fieldBits n v).map .bsWrbit).foldl execNext (.next (complete s)) = .next (complete u) := by
  induction n generalizing s with
  | zero => cases h; rfl
  | succ n ih =>
    obtain ⟨⟨⟩, w, hbit, hrest⟩ := andThen_eq_done h
    rw [fieldBits_succ, List.map_cons, List.foldl_cons, execNext_next, exec_bsWrbit_complete hm hbit]
    exact ih ((putBit_bsMode hbit).trans hm) hrest

end Sys2Proof.Machine.Laws

namespace Sys2Proof.Proofs

open Sys2Proof.Machine Sys2Proof.Machine.Laws

/-- Settles O26: a closed stream is bound, and by O23 no other is. -/
theorem openWriterResult : Obligations.OpenWriterResult :=
  ⟨rfl, fun s hs => ⟨exec_bsOpenw hs, wrongModeFaults .bsOpenw .closed s hs rfl⟩⟩

/-- Settles O27: a closed stream is bound, with no request to the source, and by O23 no other is. -/
theorem openReaderResult : Obligations.OpenReaderResult :=
  ⟨rfl, fun s hs => ⟨exec_bsOpenr hs, wrongModeFaults .bsOpenr .closed s hs rfl⟩⟩

/-- Settles O28: the cases are those of the flush. -/
theorem closeResult : Obligations.CloseResult := by
  refine ⟨rfl, fun s hs => ⟨fun hm => ?_, fun hm => ?_, fun hm hc hok => ?_, fun hm hc hio => ?_⟩⟩
  · rw [exec_bsClose hs, flushPending_of_empty (by simp [hm]), andThen_done, if_pos hm]
    rfl
  · have hflush : flushPending s = .done () s := flushPending_of_empty fun hw => by
      rcases hm with hr | ⟨-, hc⟩
      · rw [hr] at hw; cases hw
      · exact hc
    exact exec_bsClose_flushed hs hflush (by rcases hm with hr | ⟨hw, -⟩ <;> simp [*])
  · have hflush := (flushPending_of_pending hm hc).trans (putByte_accepted hok s.buf)
    exact exec_bsClose_flushed hs hflush (by simp [hm])
  · obtain ⟨u, hput, hu⟩ := putByte_refused hio s.buf
    rw [exec_bsClose hs, flushPending_of_pending hm hc, hput]
    exact ⟨_, rfl, refusedFrame_faultEntry hu⟩

/-- Settles O29: by O28 the sink got nothing, or the byte of the pending bits over zeros, fewer than 8 of them. -/
theorem closePadsWithZeros : Obligations.ClosePadsWithZeros := by
  intro s t hs hm hlow hexec ht
  obtain ⟨-, hresult⟩ := closeResult
  obtain ⟨-, hempty, hflushed, hrefused⟩ := hresult s hs
  by_cases hc : s.cnt = 0#3
  · rw [hempty (.inr ⟨hm, hc⟩)] at hexec
    cases hexec
    refine padded_of_flatMap_eq (k := 0) ?_ (by decide)
    exact (flatMap_sinkBytes_of_cnt_eq_zero hc).trans (List.append_nil _).symm
  · have hpos : s.cnt.toNat ≠ 0 := fun h => hc (BitVec.eq_of_toNat_eq h)
    cases ha : sinkAnswerAt 0 s with
    | ok =>
      rw [hflushed hm hc ha] at hexec
      cases hexec
      exact padded_of_flatMap_eq (flatMap_append_buf_of_lowBitsZero hlow) (by omega)
    | ioErr =>
      obtain ⟨u, hu, hframe, -⟩ := hrefused hm hc ha
      rw [hu] at hexec
      cases hexec
      rw [hframe] at ht
      cases ht

/-- Settles O30: writing a bit appends it. -/
theorem writeBitResult : Obligations.WriteBitResult :=
  ⟨rfl, rfl, fun s b hs hm hacc => command_accepted (writes_putBit b s) hs hm hacc⟩

/-- Settles O31: writing a field appends its bits. -/
theorem writeFieldResult : Obligations.WriteFieldResult := by
  intro s n hs hm h1 h64 hacc
  rw [exec_bsWrbits h1 h64]
  exact command_accepted (writes_putField s.opa n s) hs hm (by simpa using hacc)

/-- Settles O33: the field's first bit starts from `s`, and each other bit where the one before completed. -/
theorem fieldWriteIsBitWrites : Obligations.FieldWriteIsBitWrites := by
  intro s t n hs hm h1 h64 hexec ht
  rw [exec_bsWrbits h1 h64] at hexec
  obtain ⟨u, hput, rfl⟩ :=
    command_completed hs (modeAllows_of_eq hm) (writes_putField s.opa n s).ne_running hexec ht
  have hcommands : ((List.range n).map fun i => Instr.bsWrbit (s.opa.getLsbD (n - 1 - i))) =
      (fieldBits n s.opa).map .bsWrbit := List.map_map.symm
  obtain ⟨m, rfl⟩ := Nat.exists_eq_add_of_le' h1
  obtain ⟨⟨⟩, w, hbit, hrest⟩ := andThen_eq_done hput
  rw [hcommands]
  change List.foldl execNext _ _ = _
  rw [fieldBits_succ, List.map_cons, List.foldl_cons, execNext_next, exec_bsWrbit_of_done hs hm hbit]
  exact foldl_bsWrbit_of_putField ((putBit_bsMode hbit).trans hm) hrest

end Sys2Proof.Proofs

/-! PROOF. The Golomb coder: the word and the result of its register commands, the codewords that the encoders append
and their lengths, what the decoders find, and that decoding undoes encoding (42_golomb.md R170 to R184). -/

namespace Sys2Proof.Machine.Laws

/-! ### Register commands -/

/-- The word of G.SETM: its opcode, and IMM16 in the low bits (R111, R113). -/
theorem encode_gSetm (imm : Half) : encode (.gSetm imm) = 0x10000000#32 ||| imm.setWidth 32 := by
  change 0x10#8 ++ imm.setWidth 24 = _
  rw [BitVec.append_def, BitVec.setWidth'_eq, BitVec.setWidth_setWidth (by decide)]
  rfl

/-- G.SETM is never refused for its BSMODE: a legal IMM16 is written to M (R175). -/
theorem exec_gSetm {imm : Half} {s : State} (hs : s.cstate ≠ .halted) (himm : imm ≠ 0#16) :
    exec (.gSetm imm) s = .next (complete (setM imm s)) := by
  rw [exec, execGSetm, command_of_allowed hs (modeAllows_none s), if_neg himm, conclude_done]

/-! ### Encoding commands that complete -/

/-- G.ENCU, when it completes, wrote the codeword of OPA[31:0] (R171, R177). -/
theorem exec_gEncu_wrote {s t : State} (hs : s.cstate ≠ .halted) (hm : s.bsMode = .write)
    (h : exec .gEncu s = .next t) (ht : t.cstate = .idle) :
    ∃ u, Wrote (golombBits (opaUnsigned32 s) s) s u ∧ t = complete u :=
  command_wrote (body := fun s => encodeU (opaUnsigned32 s) s) (writes_encodeU _ s) hs hm h ht

/-- G.ENC, when it completes, wrote the codeword of the signed OPA[31:0] under GMODE (R179). -/
theorem exec_gEnc_wrote {s t : State} (hs : s.cstate ≠ .halted) (hm : s.bsMode = .write)
    (h : exec .gEnc s = .next t) (ht : t.cstate = .idle) :
    ∃ u, Wrote (signedBits (opaSigned32 s) s) s u ∧ t = complete u :=
  command_wrote (body := fun s => encodeSigned (opaSigned32 s) s) (writes_encodeSigned _ s) hs hm h ht

/-! ### Reading commands -/

theorem exec_gDecu (s : State) :
    exec .gDecu s = command (some .read)
      (fun s => andThen (decodeU s) fun u t => .done () (setRes (unsignedResult u) t)) s := rfl

theorem exec_gDec (s : State) :
    exec .gDec s = command (some .read)
      (fun s => andThen (decodeSigned s) fun n t => .done () (setRes (signedResult n) t)) s := rfl

section
variable {α : Type} {f : State → Flow α} {k : α → State → Flow Unit} {s u : State} {n : Nat}

/-- A reading command whose reading part takes `n` bits for `a`, completes with the value of `a` in RES (R89). -/
theorem command_took {a : α} (hf : f s = .done a u) (hu : Took n s u) (v : α → DWord) (hs : s.cstate ≠ .halted)
    (hm : s.bsMode = .read) :
    ∃ t, command (some .read) (fun s => andThen (f s) fun a t => .done () (setRes (v a) t)) s = .next t ∧
      ReadFrame s t ∧ ReadBits n s t ∧ t.res = v a := by
  rw [command_of_allowed hs (modeAllows_of_eq hm), hf]
  obtain ⟨hframe, hbits⟩ := hu.readFrame (v a)
  exact ⟨_, rfl, hframe, hbits, rfl⟩

/-- A fault of the core after `n` bits were read leaves the stream where it is (R306). -/
theorem Took.readFaultFrame (hu : Took n s u) {e : ErrCode} (he : e ≠ .ioError) :
    ReadFaultFrame e s (faultEntry e u) ∧ ReadBits n s (faultEntry e u) := by
  have hentry : faultEntry e u = { u with errCode := e, cstate := .halted } := by
    cases e with
    | ioError => exact absurd rfl he
    | _ => rfl
  rw [hentry]
  refine ⟨?_, hu.readBits⟩
  rw [ReadFaultFrame, hu.frame]

/-- A reading command whose reading part takes `n` bits and raises an error of the core, faults with it (R306). -/
theorem command_took_raised {e : ErrCode} (hf : f s = .raised e u) (hu : Took n s u) (he : e ≠ .ioError)
    (hs : s.cstate ≠ .halted) (hm : s.bsMode = .read) :
    ∃ t, command (some .read) (fun s => andThen (f s) k) s = .next t ∧ ReadFaultFrame e s t ∧ ReadBits n s t := by
  rw [command_of_allowed hs (modeAllows_of_eq hm), hf]
  exact ⟨_, rfl, hu.readFaultFrame he⟩

/-- A reading command whose reading part never ends leaves the state as it is (R360). -/
theorem command_running (hf : f s = .running) (hs : s.cstate ≠ .halted) (hm : s.bsMode = .read) :
    command (some .read) (fun s => andThen (f s) k) s = .next s := by
  rw [command_of_allowed hs (modeAllows_of_eq hm), hf, andThen_running, conclude_running]

end

/-- What is left unread after exactly the bits in front were read. -/
theorem unread_of_readBits {bits rest : List Bool} {s t : State} (h : ReadBits bits.length s t)
    (hu : unreadBits s = bits ++ rest) : unreadBits t = rest := by
  obtain ⟨hunread, -⟩ := h
  rw [hunread, available_of_le (by rw [hu, List.length_append]; omega), hu, List.drop_left]

/-! ### Signed results -/

/-- RES holds a signed 32-bit result whole (R12). -/
theorem signedResult_toInt {x : Int} (hlo : -2 ^ 31 ≤ x) (hhi : x < 2 ^ 31) : (signedResult x).toInt = x := by
  rw [signedResult, sext64, trunc, BitVec.toInt_signExtend_of_le (by decide), BitVec.toInt_ofInt]
  exact Int.bmod_eq_of_le (by omega) (by omega)

theorem uninterleave_of_even {u : Nat} (h : u % 2 = 0) : uninterleave u = (u : Int) / 2 := by
  rw [uninterleave, if_pos h]
  rfl

theorem uninterleave_of_odd {u : Nat} (h : u % 2 = 1) : uninterleave u = -(((u : Int) + 1) / 2) := by
  rw [uninterleave, if_neg (by omega)]
  rfl

/-- What 32 bits unmap to, fits a signed 32-bit result, so that INTERLEAVING has no Overflow of its own (R180). -/
theorem uninterleave_bounds {u : Nat} (h : u < 2 ^ 32) : -2 ^ 31 ≤ uninterleave u ∧ uninterleave u < 2 ^ 31 := by
  unfold uninterleave
  split <;> omega

theorem uninterleave_interleave (n : Int) : uninterleave (interleave n) = n := by
  unfold interleave uninterleave
  split <;> split <;> omega

theorem interleave_lt {n : Int} (hlo : -2 ^ 31 ≤ n) (hhi : n < 2 ^ 31) : interleave n < 2 ^ 32 := by
  unfold interleave
  split <;> omega

theorem interleave_eq (n : Int) : interleave n = (if 0 ≤ n then 2 * n else -2 * n - 1).toNat := by
  unfold interleave
  split <;> rfl

/-- The bound of a magnitude is `2^31`, less one for a sign bit of 0 (R180). -/
theorem signMagnitude_eq (sign : Bool) (u : Nat) (s : State) :
    signMagnitude sign u s =
      if 2 ^ 31 - (!sign).toNat < u then .raised .overflow s else .done (if sign then -(u : Int) else u) s := by
  cases sign <;> rfl

/-! ### Codewords -/

theorem signedBits_of_interleaving {s : State} (h : s.gMode = .interleaving) (n : Int) :
    signedBits n s = golombBits (interleave n) s := by
  simp only [signedBits, h, interleave_eq]

theorem signedBits_of_signAndMagnitude {s : State} (h : s.gMode = .signAndMagnitude) (n : Int) :
    signedBits n s = decide (n < 0) :: golombBits n.natAbs s := by
  simp only [signedBits, h]

/-- An unsigned codeword does not depend on GMODE (R171). -/
theorem golombBits_of_registers {s t : State} (hM : t.gM = s.gM) (hB : t.gB = s.gB) (hC : t.gCutoff = s.gCutoff)
    (n : Nat) : golombBits n t = golombBits n s := by
  simp only [golombBits, remainderBits, hM, hB, hC]

theorem signedBits_of_registers {s t : State} (hM : t.gM = s.gM) (hB : t.gB = s.gB) (hC : t.gCutoff = s.gCutoff)
    (hmode : t.gMode = s.gMode) (n : Int) : signedBits n t = signedBits n s := by
  simp only [signedBits, golombBits_of_registers hM hB hC, hmode]

theorem golombOk_of_registers {s t : State} (h : GolombOk s) (hM : t.gM = s.gM) (hB : t.gB = s.gB)
    (hC : t.gCutoff = s.gCutoff) : GolombOk t := by
  rw [GolombOk, hM, hB, hC]
  exact h

theorem golombBits_length (n : Nat) (s : State) :
    (golombBits n s).length = n / s.gM.toNat + 1 + (remainderBits (n % s.gM.toNat) s).length := by
  rw [golombBits, List.length_append, unaryBits_length]

/-- A codeword is as long as R182 says. -/
theorem golombBits_length_eq (n : Nat) (s : State) : (golombBits n s).length = codewordLength n s := by
  rw [golombBits_length, codewordLength, remainderBits]
  by_cases hM : s.gM = 1#16
  · have hone : s.gM.toNat = 1 := by rw [hM]; rfl
    rw [if_pos hM, if_pos hM, hone, Nat.div_one]
    rfl
  · rw [if_neg hM, if_neg hM]
    split
    · rw [fieldBits_length]
    · rw [fieldBits_length]

/-! ### Decoding -/

theorem decodeSigned_of_interleaving {s : State} (hmode : s.gMode = .interleaving) :
    decodeSigned s = andThen (decodeU s) fun u t => .done (uninterleave u) t := by
  simp only [decodeSigned, hmode]

theorem decodeSigned_of_sign {sign : Bool} {s t : State} (hmode : s.gMode = .signAndMagnitude)
    (hget : getBit s = .done (some sign) t) :
    decodeSigned s = andThen (decodeU t) fun u v => signMagnitude sign u v := by
  simp only [decodeSigned, hmode, hget, andThen_done]

theorem decodeSigned_of_no_sign {s t : State} (hmode : s.gMode = .signAndMagnitude) (hget : getBit s = .done none t) :
    decodeSigned s = .raised .unexpectedEndOfStream t := by
  simp only [decodeSigned, hmode, hget, andThen_done]

/-- Under INTERLEAVING a codeword is unmapped (R174, R180). -/
theorem decodeSigned_interleaving {q : Nat} {tail : List Bool} {s : State} (hmode : s.gMode = .interleaving)
    (hu : unreadBits s = unaryBits q ++ tail) (hc : CanRead (q + 1 + remainderLength tail s) s) :
    ∃ t, Took (q + 1 + remainderLength tail s) s t ∧
      decodeSigned s =
        if 2 ^ 32 ≤ q * s.gM.toNat + remainderValue tail s then .raised .overflow t
        else .done (uninterleave (q * s.gM.toNat + remainderValue tail s)) t := by
  obtain ⟨t, ht, hdec⟩ := (decodeU_spec hu).1 hc
  refine ⟨t, ht, ?_⟩
  rw [decodeSigned_of_interleaving hmode, hdec]
  split <;> rfl

/-- Under SIGN_AND_MAGNITUDE a sign bit stands before the codeword; whatever does not fit 32 bits does not fit its
bound either (R180). -/
theorem decodeSigned_signAndMagnitude {sign : Bool} {q : Nat} {tail : List Bool} {s : State}
    (hmode : s.gMode = .signAndMagnitude) (hu : unreadBits s = sign :: (unaryBits q ++ tail))
    (hc : CanRead (q + 2 + remainderLength tail s) s) :
    ∃ t, Took (q + 2 + remainderLength tail s) s t ∧
      decodeSigned s =
        if 2 ^ 31 - (!sign).toNat < q * s.gM.toNat + remainderValue tail s then .raised .overflow t
        else .done (if sign then -((q * s.gM.toNat + remainderValue tail s : Nat) : Int)
          else (q * s.gM.toNat + remainderValue tail s : Nat)) t := by
  obtain ⟨t, hget, ht, hrest, -⟩ := getBit_of_cons hu
  obtain ⟨hvalue, hlength⟩ := remainder_congr ht.golomb tail
  have hsum : 1 + (q + 1 + remainderLength tail s) = q + 2 + remainderLength tail s := by omega
  obtain ⟨v, hv, hdec⟩ := (decodeU_spec hrest).1 ((ht.canRead (by simp [hu])).2 (by rwa [hlength, hsum]))
  rw [hlength] at hv
  refine ⟨v, hsum ▸ ht.trans hv, ?_⟩
  rw [decodeSigned_of_sign hmode hget, hdec, hvalue, ht.golomb.1]
  split
  · rw [andThen_raised, if_pos (by omega)]
  · rw [andThen_done, signMagnitude_eq]

/-! ### No end of a codeword -/

/-- EOF inside the unary code (R172, R305). -/
theorem decodeSigned_eof_interleaving {q : Nat} {s : State} (hmode : s.gMode = .interleaving)
    (hu : unreadBits s = List.replicate q false) (hf : sourceFails s = false) (he : sourceEndless s = false) :
    ∃ t, decodeSigned s = .raised .unexpectedEndOfStream t ∧ Took (q + 1) s t := by
  obtain ⟨t, hdec, ht⟩ := (decodeU_zeros hu).1 hf he
  exact ⟨t, by rw [decodeSigned_of_interleaving hmode, hdec, andThen_raised], ht⟩

/-- EOF inside the unary code after a sign bit (R172, R305). -/
theorem decodeSigned_eof_after_sign {sign : Bool} {q : Nat} {s : State} (hmode : s.gMode = .signAndMagnitude)
    (hu : unreadBits s = sign :: List.replicate q false) (hf : sourceFails s = false)
    (he : sourceEndless s = false) :
    ∃ t, decodeSigned s = .raised .unexpectedEndOfStream t ∧ Took (q + 2) s t := by
  obtain ⟨t, hget, ht, hrest, hfails⟩ := getBit_of_cons hu
  obtain ⟨v, hdec, hv⟩ := (decodeU_zeros hrest).1 (hfails.trans hf) (ht.endless.trans he)
  have htook := ht.trans hv
  rw [Nat.add_comm 1] at htook
  exact ⟨v, by rw [decodeSigned_of_sign hmode hget, hdec, andThen_raised], htook⟩

/-- EOF on the sign bit (R180, R305). -/
theorem decodeSigned_eof_on_sign {s : State} (hmode : s.gMode = .signAndMagnitude) (hu : unreadBits s = [])
    (hf : sourceFails s = false) (he : sourceEndless s = false) :
    ∃ t, decodeSigned s = .raised .unexpectedEndOfStream t ∧ Took 1 s t := by
  obtain ⟨t, hget, ht⟩ := getBit_of_eof ((available_of_finite he).trans hu) hf
  exact ⟨t, decodeSigned_of_no_sign hmode hget, ht⟩

theorem decodeSigned_endless_interleaving {q : Nat} {s : State} (hmode : s.gMode = .interleaving)
    (hu : unreadBits s = List.replicate q false) (he : sourceEndless s = true) : decodeSigned s = .running := by
  rw [decodeSigned_of_interleaving hmode, (decodeU_zeros hu).2.2 he, andThen_running]

/-- After the sign bit, which may be the first of the endless zeros, no one bit comes (R360). -/
theorem decodeSigned_endless_signAndMagnitude {sign : Bool} {q : Nat} {s : State}
    (hmode : s.gMode = .signAndMagnitude) (hav : available 1 s = sign :: List.replicate q false)
    (he : sourceEndless s = true) : decodeSigned s = .running := by
  obtain ⟨t, hget, ht⟩ := getBit_of_available hav
  have hrest : unreadBits t = List.replicate q false := by rw [ht.unread, hav]; rfl
  rw [decodeSigned_of_sign hmode hget, (decodeU_zeros hrest).2.2 (ht.endless.trans he), andThen_running]

/-- A reader at the end of its listed bytes finds the next zero byte (R360). -/
theorem available_one_of_endless {s : State} (hu : unreadBits s = []) (he : sourceEndless s = true) :
    available 1 s = false :: List.replicate 7 false := by
  rw [available, hu, he]
  rfl

/-! ### Decoding what was encoded -/

/-- A codeword in front of the unread bits decodes to its value, and exactly its bits are read (R183, R184). -/
theorem decodeU_golombBits {n : Nat} {rest : List Bool} {s : State} (h : GolombOk s) (hn : n < 2 ^ 32)
    (hu : unreadBits s = golombBits n s ++ rest) :
    ∃ t, decodeU s = .done n t ∧ Took (golombBits n s).length s t := by
  have hM : 0 < s.gM.toNat := Nat.pos_of_ne_zero fun h0 => h.1 (BitVec.eq_of_toNat_eq h0)
  obtain ⟨hvalue, hlength⟩ := remainder_roundTrip h (Nat.mod_lt n hM) rest
  have hlen := congrArg List.length hu
  rw [List.length_append, golombBits_length] at hlen
  rw [golombBits, List.append_assoc] at hu
  obtain ⟨t, ht, hdec⟩ := (decodeU_spec hu).1 (.inl (by omega))
  rw [hvalue, Nat.div_add_mod', if_neg (by omega)] at hdec
  rw [hlength, ← golombBits_length] at ht
  exact ⟨t, hdec, ht⟩

/-- The magnitude of a signed 32-bit value is within the bound of its sign (R180). -/
theorem signMagnitude_natAbs {n : Int} (hlo : -2 ^ 31 ≤ n) (hhi : n < 2 ^ 31) (s : State) :
    signMagnitude (decide (n < 0)) n.natAbs s = .done n s := by
  by_cases hneg : n < 0
  · have habs : -(n.natAbs : Int) = n := by omega
    rw [decide_eq_true hneg, signMagnitude, if_pos rfl, if_neg (by omega), habs]
  · have habs : (n.natAbs : Int) = n := by omega
    rw [decide_eq_false hneg, signMagnitude, if_neg nofun, if_neg (by omega), habs]

/-- The same of a signed value, under both sign mappings (R183). -/
theorem decodeSigned_signedBits {n : Int} {rest : List Bool} {s : State} (h : GolombOk s) (hlo : -2 ^ 31 ≤ n)
    (hhi : n < 2 ^ 31) (hu : unreadBits s = signedBits n s ++ rest) :
    ∃ t, decodeSigned s = .done n t ∧ Took (signedBits n s).length s t := by
  cases hmode : s.gMode with
  | interleaving =>
    rw [signedBits_of_interleaving hmode] at hu ⊢
    obtain ⟨t, hdec, ht⟩ := decodeU_golombBits h (interleave_lt hlo hhi) hu
    refine ⟨t, ?_, ht⟩
    rw [decodeSigned_of_interleaving hmode, hdec, andThen_done, uninterleave_interleave]
  | signAndMagnitude =>
    rw [signedBits_of_signAndMagnitude hmode] at hu ⊢
    obtain ⟨t, hget, ht, hrest, -⟩ := getBit_of_cons hu
    obtain ⟨hM, hB, hC, -⟩ := ht.golomb
    have hcode := golombBits_of_registers hM hB hC n.natAbs
    rw [← hcode] at hrest
    obtain ⟨v, hdec, hv⟩ := decodeU_golombBits (golombOk_of_registers h hM hB hC) (by omega) hrest
    refine ⟨v, ?_, ?_⟩
    · rw [decodeSigned_of_sign hmode hget, hdec, andThen_done, signMagnitude_natAbs hlo hhi]
    · rw [hcode] at hv
      rw [List.length_cons, Nat.add_comm]
      exact ht.trans hv

end Sys2Proof.Machine.Laws

namespace Sys2Proof.Proofs

open Sys2Proof.Machine Sys2Proof.Machine.Laws

/-- Settles O39: IMM16 = 0 is the field that O32 refuses, and every other write of M leaves registers that agree. -/
theorem setMResult : Obligations.SetMResult := by
  intro s imm hs
  refine ⟨encode_gSetm imm, ?_, fun himm => ⟨_, exec_gSetm hs himm, setM_golombOk himm s, rfl⟩⟩
  rintro rfl
  obtain ⟨-, hzero⟩ := outOfRangeFieldsFault
  exact hzero s hs

/-- Settles O41: encoding appends the codeword. -/
theorem encodeUnsignedResult : Obligations.EncodeUnsignedResult := by
  intro s hs hm hacc
  rw [← opaUnsigned32_eq] at hacc ⊢
  rw [exec_gEncu]
  exact command_accepted (writes_encodeU (opaUnsigned32 s) s) hs hm hacc

/-- Settles O42, by what DecodeU finds. -/
theorem decodeUnsignedResult : Obligations.DecodeUnsignedResult := by
  intro s q tail hs hm hu hc
  rw [exec_gDecu]
  obtain ⟨t, ht, hdec⟩ := (decodeU_spec hu).1 hc
  constructor
  · intro hfits
    rw [if_neg (by omega)] at hdec
    exact command_took hdec ht unsignedResult hs hm
  · intro hover
    rw [if_pos hover] at hdec
    exact command_took_raised hdec ht nofun hs hm

/-- Settles O43: a codeword without its one bit never ends, or ends at EOF. -/
theorem endOfStreamFaults : Obligations.EndOfStreamFaults := by
  intro s q hs hm
  rw [exec_gDecu, exec_gDec]
  refine ⟨fun hf he => ⟨fun hu => ?_, fun hu hmode => ?_, fun sign hu hmode => ?_, fun hu hmode => ?_⟩,
    fun he => ⟨fun hu => ⟨?_, fun hmode => ?_⟩, fun hmode hu => ?_⟩⟩
  · obtain ⟨t, hdec, ht⟩ := (decodeU_zeros hu).1 hf he
    exact command_took_raised hdec ht nofun hs hm
  · obtain ⟨t, hdec, ht⟩ := decodeSigned_eof_interleaving hmode hu hf he
    exact command_took_raised hdec ht nofun hs hm
  · obtain ⟨t, hdec, ht⟩ := decodeSigned_eof_after_sign hmode hu hf he
    exact command_took_raised hdec ht nofun hs hm
  · obtain ⟨t, hdec, ht⟩ := decodeSigned_eof_on_sign hmode hu hf he
    exact command_took_raised hdec ht nofun hs hm
  · exact command_running ((decodeU_zeros hu).2.2 he) hs hm
  · exact command_running (decodeSigned_endless_interleaving hmode hu he) hs hm
  · obtain ⟨sign, r, hav⟩ : ∃ sign r, available 1 s = sign :: List.replicate r false := by
      rcases hu with hnil | ⟨sign, hcons⟩
      · exact ⟨_, _, available_one_of_endless hnil he⟩
      · exact ⟨sign, q, (available_of_le (by simp [hcons])).trans hcons⟩
    exact command_running (decodeSigned_endless_signAndMagnitude hmode hav he) hs hm

/-- Settles O44: encoding appends the signed codeword. -/
theorem encodeSignedResult : Obligations.EncodeSignedResult := by
  intro s hs hm hacc
  rw [← opaSigned32_eq] at hacc ⊢
  rw [exec_gEnc]
  exact command_accepted (writes_encodeSigned (opaSigned32 s) s) hs hm hacc

/-- Settles O45: a value below `2^32` unmaps to a signed 32-bit result, which RES holds whole. -/
theorem decodeInterleavedResult : Obligations.DecodeInterleavedResult := by
  intro s q tail hs hm hmode hu hc u
  rw [exec_gDec]
  obtain ⟨t, ht, hdec⟩ := decodeSigned_interleaving hmode hu hc
  constructor
  · intro hfits
    rw [if_neg (by omega)] at hdec
    obtain ⟨hlo, hhi⟩ := uninterleave_bounds hfits
    obtain ⟨v, hexec, hframe, hbits, hres⟩ := command_took hdec ht signedResult hs hm
    have hvalue : v.res.toInt = uninterleave u := by rw [hres]; exact signedResult_toInt hlo hhi
    exact ⟨v, hexec, hframe, hbits, fun h => hvalue.trans (uninterleave_of_even h),
      fun h => hvalue.trans (uninterleave_of_odd h)⟩
  · intro hover
    rw [if_pos hover] at hdec
    exact command_took_raised hdec ht nofun hs hm

/-- Settles O46: the bound of the magnitude is that of a signed 32-bit result. -/
theorem decodeSignMagnitudeResult : Obligations.DecodeSignMagnitudeResult := by
  intro s sign q tail hs hm hmode hu hc u
  rw [exec_gDec]
  obtain ⟨t, ht, hdec⟩ := decodeSigned_signAndMagnitude hmode hu hc
  constructor
  · intro hfits
    rw [if_neg (by omega)] at hdec
    obtain ⟨v, hexec, hframe, hbits, hres⟩ := command_took hdec ht signedResult hs hm
    refine ⟨v, hexec, hframe, hbits, ?_⟩
    rw [hres]
    cases sign with
    | false =>
      have hle : u ≤ 2 ^ 31 - 1 := hfits
      exact signedResult_toInt (x := (u : Int)) (by omega) (by omega)
    | true =>
      have hle : u ≤ 2 ^ 31 := hfits
      exact signedResult_toInt (x := -(u : Int)) (by omega) (by omega)
  · intro hover
    rw [if_pos hover] at hdec
    exact command_took_raised hdec ht nofun hs hm

/-- Settles O48: the bits written are the codeword's. -/
theorem codewordLengths : Obligations.CodewordLengths := by
  intro s t hs hm ht
  constructor
  · intro hexec
    obtain ⟨u, hu, rfl⟩ := exec_gEncu_wrote hs hm hexec ht
    obtain ⟨-, hbits⟩ := hu.writeFrame_complete
    rw [hbits, List.length_append, golombBits_length_eq, opaUnsigned32_eq]
  · intro hexec n
    obtain ⟨u, hu, rfl⟩ := exec_gEnc_wrote hs hm hexec ht
    obtain ⟨-, hbits⟩ := hu.writeFrame_complete
    rw [hbits, List.length_append, opaSigned32_eq]
    constructor
    · intro hmode
      rw [signedBits_of_interleaving hmode, golombBits_length_eq, interleave_eq]
    · intro hmode
      rw [signedBits_of_signAndMagnitude hmode, List.length_cons, golombBits_length_eq, Nat.add_assoc, Nat.add_comm 1]

/-- Settles O49: the bits written are the codeword's, which the reader decodes and takes. -/
theorem unsignedRoundTrip : Obligations.UnsignedRoundTrip := by
  intro w w' r bits rest hw hwm hok hexec hidle hbits hr hrm hM hB hC hunread
  obtain ⟨u, hu, rfl⟩ := exec_gEncu_wrote hw hwm hexec hidle
  obtain rfl : bits = golombBits (opaUnsigned32 w) w := List.append_cancel_left (hbits.symm.trans hu.2.1)
  rw [← golombBits_of_registers hM hB hC] at hunread
  have hlt : opaUnsigned32 w < 2 ^ 32 := by rw [opaUnsigned32]; exact BitVec.isLt _
  obtain ⟨t, hdec, ht⟩ := decodeU_golombBits (golombOk_of_registers hok hM hB hC) hlt hunread
  rw [exec_gDecu]
  obtain ⟨r', hexec', hframe, hread, hres⟩ := command_took hdec ht unsignedResult hr hrm
  refine ⟨r', hexec', by rw [hframe], ?_, unread_of_readBits hread hunread⟩
  rw [hres, unsignedResult, BitVec.toNat_ofNat, Nat.mod_eq_of_lt (by omega), opaUnsigned32_eq]

/-- Settles O50: the same of the signed codeword, under the GMODE that both hold. -/
theorem signedRoundTrip : Obligations.SignedRoundTrip := by
  intro w w' r bits rest hw hwm hok hexec hidle hbits hr hrm hM hB hC hmode hunread
  obtain ⟨u, hu, rfl⟩ := exec_gEnc_wrote hw hwm hexec hidle
  obtain rfl : bits = signedBits (opaSigned32 w) w := List.append_cancel_left (hbits.symm.trans hu.2.1)
  rw [← signedBits_of_registers hM hB hC hmode] at hunread
  have hlo : -2 ^ 31 ≤ opaSigned32 w := BitVec.le_toInt _
  have hhi : opaSigned32 w < 2 ^ 31 := BitVec.toInt_lt
  obtain ⟨t, hdec, ht⟩ := decodeSigned_signedBits (golombOk_of_registers hok hM hB hC) hlo hhi hunread
  rw [exec_gDec]
  obtain ⟨r', hexec', hframe, hread, hres⟩ := command_took hdec ht signedResult hr hrm
  refine ⟨r', hexec', by rw [hframe], ?_, unread_of_readBits hread hunread⟩
  rw [hres, signedResult_toInt hlo hhi, opaSigned32_eq]

/-- Settles O40: G.SETMODE is never refused for its BSMODE. -/
theorem setModeResult : Obligations.SetModeResult := by
  refine ⟨rfl, rfl, fun s m hs => ?_⟩
  rw [exec, execGSetmode, command_of_allowed hs (modeAllows_none s), conclude_done]
  rfl

end Sys2Proof.Proofs

/-! PROOF. The predictors: the state that each command leaves, the residuals and predictions that RES holds whole, and
that decoding undoes encoding (43_predictors.md R210 to R223). -/

namespace Sys2Proof.Machine.Laws

/-! ### Commands that only write registers -/

/-- A command that any BSMODE allows, and that makes one update of the state, completes with that update (R31, R310). -/
theorem command_update {f : State → State} {s : State} (hs : s.cstate ≠ .halted) :
    command none (fun s => .done () (f s)) s = .next (complete (f s)) := by
  rw [command_of_allowed hs (modeAllows_none s), conclude_done]

/-! ### Signed results as operands -/

/-- Sign extension keeps the pattern in the low bits (R11). -/
theorem sext64_setWidth (v : Word) : (sext64 v).setWidth 32 = v := by
  ext i hi
  have hi64 : i < 64 := by omega
  rw [sext64, BitVec.getElem_setWidth, BitVec.getLsbD_signExtend, if_pos hi, decide_eq_true hi64, Bool.true_and,
    BitVec.getLsbD_eq_getElem hi]

/-- A signed 32-bit result that is handed on as OPA is read back whole (R12). -/
theorem opaSigned32_of_signedResult {x : Int} {d : State} (h : d.opa = signedResult x) (hlo : -2 ^ 31 ≤ x)
    (hhi : x < 2 ^ 31) : opaSigned32 d = x := by
  rw [opaSigned32_eq, h, signedResult, sext64_setWidth, trunc, BitVec.toInt_ofInt]
  exact Int.bmod_eq_of_le (by omega) (by omega)

/-! ### Audio -/

theorem opaSample_eq (s : State) : opaSample s = s.opa.setWidth 16 :=
  (BitVec.setWidth_eq_extractLsb' (by decide)).symm

theorem exec_apReset {s : State} (hs : s.cstate ≠ .halted) :
    exec .apReset s = .next { s with cstate := .idle, prevL := 0#16, prevR := 0#16 } := by
  rw [exec, execApReset, command_update hs]
  rfl

theorem exec_apEncl {s : State} (hs : s.cstate ≠ .halted) :
    exec .apEncl s = .next { s with
      cstate := .idle, res := signedResult (audioResidual (opaSample s) s), prevL := opaSample s } := by
  rw [exec, execApEncl, command_update hs]
  rfl

theorem exec_apEncr {s : State} (hs : s.cstate ≠ .halted) :
    exec .apEncr s = .next { s with
      cstate := .idle, res := signedResult (audioResidual (opaSample s) s), prevR := opaSample s } := by
  rw [exec, execApEncr, command_update hs]
  rfl

theorem exec_apDecl {s : State} (hs : s.cstate ≠ .halted) :
    exec .apDecl s = .next { s with cstate := .idle, res := sext64 (audioSample s), prevL := audioSample s } := by
  rw [exec, execApDecl, command_update hs]
  rfl

theorem exec_apDecr {s : State} (hs : s.cstate ≠ .halted) :
    exec .apDecr s = .next { s with cstate := .idle, res := sext64 (audioSample s), prevR := audioSample s } := by
  rw [exec, execApDecr, command_update hs]
  rfl

/-- A difference of two samples has 17 bits (R213). -/
theorem audioResidual_bounds (x : Half) (s : State) : -2 ^ 16 < audioResidual x s ∧ audioResidual x s < 2 ^ 16 := by
  have hx := x.le_toInt
  have hx' := x.toInt_lt
  have hp := s.prevL.le_toInt
  have hp' := s.prevL.toInt_lt
  rw [audioResidual]
  omega

/-- Against the same PREV_L, the residual of a sample stands for that sample: no wrap of the sum loses it (R215). -/
theorem audioSample_of_audioResidual {x : Half} {s d : State} (hprev : d.prevL = s.prevL)
    (hopa : d.opa = signedResult (audioResidual x s)) : audioSample d = x := by
  obtain ⟨hlo, hhi⟩ := audioResidual_bounds x s
  rw [audioSample, opaSigned32_of_signedResult hopa (by omega) (by omega), hprev, audioResidual,
    add_sub_cancel, trunc, BitVec.ofInt_toInt]

theorem sext64_half_toInt (x : Half) : (sext64 x).toInt = x.toInt :=
  BitVec.toInt_signExtend_of_le (by decide)

/-! ### Images -/

theorem exec_medPred {s : State} (hs : s.cstate ≠ .halted) :
    exec .medPred s = .next { s with cstate := .idle, res := unsignedResult (medPrediction s).toNat } := by
  rw [exec, execMedPred, command_update hs]
  rfl

theorem exec_medEnc {s : State} (hs : s.cstate ≠ .halted) :
    exec .medEnc s = .next { s with cstate := .idle, res := signedResult ((opaPixel s : Int) - medPrediction s) } := by
  rw [exec, execMedEnc, command_update hs]
  rfl

theorem exec_medDec {s : State} (hs : s.cstate ≠ .halted) :
    exec .medDec s = .next { s with
      cstate := .idle, res := unsignedResult (clampPixel (medPrediction s + opaSigned32 s)).toNat } := by
  rw [exec, execMedDec, command_update hs]
  rfl

/-- The prediction of R220 over the integers. -/
theorem medPredict_eq (a b c : Nat) :
    medPredict a b c =
      if max (a : Int) b ≤ c then min (a : Int) b else if (c : Int) ≤ min (a : Int) b then max (a : Int) b
      else a + b - c := by
  rw [medPredict]
  norm_cast

/-- The prediction lies between the neighbours A and B: `A + B - C` is taken only for a C strictly between them, and
is then strictly between them too (R220). -/
theorem medPredict_bounds (a b c : Nat) : min (a : Int) b ≤ medPredict a b c ∧ medPredict a b c ≤ max (a : Int) b := by
  rw [medPredict_eq]
  split
  case isTrue => omega
  case isFalse hhigh =>
    split
    case isTrue => omega
    case isFalse hlow => omega

/-- A prediction is a pixel (R220, R221). -/
theorem medPrediction_bounds (s : State) : 0 ≤ medPrediction s ∧ medPrediction s ≤ 255 := by
  have hA : medA s < 2 ^ 8 := BitVec.isLt _
  have hB : medB s < 2 ^ 8 := BitVec.isLt _
  obtain ⟨hlo, hhi⟩ := medPredict_bounds (medA s) (medB s) (medC s)
  rw [medPrediction]
  omega

/-- The neighbours are bytes of OPB[23:0] (R221). -/
theorem medPrediction_of_opb {s d : State} (h : d.opb.setWidth 24 = s.opb.setWidth 24) :
    medPrediction d = medPrediction s := by
  have hbyte (start : Nat) (hle : start + 8 ≤ 24) : d.opb.extractLsb' start 8 = s.opb.extractLsb' start 8 := by
    rw [← BitVec.extractLsb'_setWidth_of_le hle, h, BitVec.extractLsb'_setWidth_of_le hle]
  rw [medPrediction, medA, medB, medC, hbyte 0 (by decide), hbyte 8 (by decide), hbyte 16 (by decide)]
  rfl

theorem opaPixel_lt (s : State) : opaPixel s < 2 ^ 8 := BitVec.isLt _

theorem opaPixel_eq (s : State) : opaPixel s = s.opa.toNat % 2 ^ 8 := by simp [opaPixel]

/-- A difference of two pixels has 9 bits (R222). -/
theorem medResidual_bounds (s : State) :
    -255 ≤ (opaPixel s : Int) - medPrediction s ∧ (opaPixel s : Int) - medPrediction s ≤ 255 := by
  have hpixel := opaPixel_lt s
  obtain ⟨hlo, hhi⟩ := medPrediction_bounds s
  omega

theorem clampPixel_bounds (v : Int) : 0 ≤ clampPixel v ∧ clampPixel v ≤ 255 := by
  rw [clampPixel]
  omega

theorem clampPixel_of_pixel {n : Nat} (h : n < 2 ^ 8) : clampPixel n = n := by
  rw [clampPixel]
  omega

/-- RES holds a pixel as it is (R12). -/
theorem unsignedResult_toInt_of_pixel {v : Int} (hv : 0 ≤ v ∧ v ≤ 255) : (unsignedResult v.toNat).toInt = v := by
  obtain ⟨hlo, hhi⟩ := hv
  rw [unsignedResult, BitVec.toInt_ofNat', Int.toNat_of_nonneg hlo]
  exact Int.bmod_eq_of_le (by omega) (by omega)

/-- With the same neighbours, the prediction and the residual of a pixel add up to that pixel (R223). -/
theorem medPrediction_add_residual {s d : State} (hopb : d.opb.setWidth 24 = s.opb.setWidth 24)
    (hopa : d.opa = signedResult ((opaPixel s : Int) - medPrediction s)) :
    medPrediction d + opaSigned32 d = opaPixel s := by
  obtain ⟨hlo, hhi⟩ := medResidual_bounds s
  rw [medPrediction_of_opb hopb, opaSigned32_of_signedResult hopa (by omega) (by omega), add_sub_cancel]

end Sys2Proof.Machine.Laws

namespace Sys2Proof.Proofs

open Sys2Proof.Machine Sys2Proof.Machine.Laws

/-- Settles O52: the residual has 17 bits, so that RES holds it exactly. -/
theorem audioEncodeResult : Obligations.AudioEncodeResult := by
  refine ⟨rfl, rfl, fun s hs => ?_⟩
  obtain ⟨hlo, hhi⟩ := audioResidual_bounds (opaSample s) s
  rw [← opaSample_eq]
  exact ⟨_, signedResult_toInt (x := audioResidual _ s) (by omega) (by omega), exec_apEncl hs, exec_apEncr hs⟩

/-- Settles O53: the wrap is the 16-bit truncation of the sum. -/
theorem audioDecodeResult : Obligations.AudioDecodeResult := by
  refine ⟨rfl, rfl, fun s hs => ?_⟩
  rw [← opaSigned32_eq]
  exact ⟨audioSample s, rfl, exec_apDecl hs, exec_apDecr hs⟩

/-- Settles O54: the encoder's residual stands, in the decoder, for the encoder's sample. -/
theorem audioRoundTrip : Obligations.AudioRoundTrip := by
  intro s t d hs hd hprev hopa
  rw [← opaSample_eq]
  constructor
  · intro henc
    rw [exec_apEncl hs] at henc
    cases henc
    have hsample := audioSample_of_audioResidual hprev hopa
    exact ⟨_, exec_apDecl hd, hsample, by rw [hsample, sext64_half_toInt]⟩
  · intro henc
    rw [exec_apEncr hs] at henc
    cases henc
    have hsample := audioSample_of_audioResidual hprev hopa
    exact ⟨_, exec_apDecr hd, hsample, by rw [hsample, sext64_half_toInt]⟩

/-- Settles O55: the prediction, the residual and the clamped sum are in the range of RES. -/
theorem medResults : Obligations.MedResults := by
  refine ⟨rfl, rfl, rfl, fun s hs => ?_⟩
  intro a b c p
  have hp : medPrediction s = p := medPredict_eq _ _ _
  obtain ⟨hlo, hhi⟩ := medPrediction_bounds s
  obtain ⟨hrlo, hrhi⟩ := medResidual_bounds s
  rw [← hp, ← opaSigned32_eq]
  exact ⟨hlo, hhi,
    ⟨_, unsignedResult_toInt_of_pixel ⟨hlo, hhi⟩, exec_medPred hs⟩,
    ⟨_, signedResult_toInt (by omega) (by omega), exec_medEnc hs⟩,
    ⟨_, unsignedResult_toInt_of_pixel (clampPixel_bounds _), exec_medDec hs⟩⟩

/-- Settles O56: the clamp is given the encoder's pixel, which it keeps. -/
theorem medRoundTrip : Obligations.MedRoundTrip := by
  intro s t d hs hd henc hopb hopa
  rw [exec_medEnc hs] at henc
  cases henc
  have hpixel := opaPixel_lt s
  refine ⟨_, exec_medDec hd, ?_⟩
  rw [medPrediction_add_residual hopb hopa, clampPixel_of_pixel hpixel, Int.toNat_natCast, unsignedResult,
    BitVec.toNat_ofNat, Nat.mod_eq_of_lt (by omega), opaPixel_eq]

/-- Settles O51: AP.RESET is never refused for its BSMODE. -/
theorem audioResetResult : Obligations.AudioResetResult :=
  ⟨rfl, fun _ hs => exec_apReset hs⟩

end Sys2Proof.Proofs

/-! PROOF. EST.CLR and EST.ACC: the state that each command leaves, and that a SUM within COUNT terms of `2^31` takes
one more absolute residual without a wrap (44_estimator.md R241, R242). -/

namespace Sys2Proof.Machine.Laws

theorem exec_estClr {s : State} (hs : s.cstate ≠ .halted) :
    exec .estClr s = .next { s with cstate := .idle, sum := 0#64, count := 0#32 } := by
  rw [exec, execEstClr, command_update hs]
  rfl

/-- A full COUNT stops EST.ACC before it adds anything (R242). -/
theorem exec_estAcc_of_full {s : State} (hs : s.cstate ≠ .halted) (hc : s.count = 0xFFFFFFFF#32) :
    exec .estAcc s = .next { s with cstate := .halted, errCode := .overflow } := by
  rw [exec, execEstAcc, command_of_allowed hs (modeAllows_none s), if_pos hc, conclude_raised]
  rfl

theorem exec_estAcc_of_not_full {s : State} (hs : s.cstate ≠ .halted) (hc : s.count ≠ 0xFFFFFFFF#32) :
    exec .estAcc s = .next { s with
      cstate := .idle
      sum := s.sum + BitVec.ofNat 64 (opaSigned32 s).natAbs
      count := s.count + 1#32 } := by
  rw [exec, execEstAcc, command_of_allowed hs (modeAllows_none s), if_neg hc, conclude_done]
  rfl

theorem count_lt_of_not_full {s : State} (hc : s.count ≠ 0xFFFFFFFF#32) : s.count.toNat < 2 ^ 32 - 1 := by
  have hne : s.count.toNat ≠ 2 ^ 32 - 1 := fun h => hc (BitVec.eq_of_toNat_eq h)
  have hlt := s.count.isLt
  omega

/-- The absolute value of a signed 32-bit operand, that of `-2^31` included (R12). -/
theorem opaSigned32_natAbs_le (s : State) : (opaSigned32 s).natAbs ≤ 2 ^ 31 := by
  have hlo : -2 ^ 31 ≤ opaSigned32 s := BitVec.le_toInt _
  have hhi : opaSigned32 s < 2 ^ 31 := BitVec.toInt_lt
  omega

theorem count_add_one_toNat {s : State} (hc : s.count ≠ 0xFFFFFFFF#32) :
    (s.count + 1#32).toNat = s.count.toNat + 1 := by
  have hlt := count_lt_of_not_full hc
  exact BitVec.toNat_add_of_lt (y := 1#32) (by rw [BitVec.toNat_ofNat]; omega)

/-- The new SUM is at most `(2^32 - 1) * 2^31`, so its 64 bits hold it (R242). -/
theorem sum_add_natAbs_toNat {s : State} (hok : EstimatorOk s) (hc : s.count ≠ 0xFFFFFFFF#32) :
    (s.sum + BitVec.ofNat 64 (opaSigned32 s).natAbs).toNat = s.sum.toNat + (opaSigned32 s).natAbs := by
  have hcount := count_lt_of_not_full hc
  have habs := opaSigned32_natAbs_le s
  have hterm : (BitVec.ofNat 64 (opaSigned32 s).natAbs).toNat = (opaSigned32 s).natAbs :=
    (BitVec.toNat_ofNat _ _).trans (Nat.mod_eq_of_lt (by omega))
  have hsum : s.sum.toNat ≤ s.count.toNat * 2 ^ 31 := hok
  rw [BitVec.toNat_add_of_lt (by omega), hterm]

end Sys2Proof.Machine.Laws

namespace Sys2Proof.Proofs

open Sys2Proof.Machine Sys2Proof.Machine.Laws

/-- Settles O57: neither the SUM nor the COUNT of EST.ACC wraps while COUNT is not full. -/
theorem estimatorSumResult : Obligations.EstimatorSumResult := by
  refine ⟨rfl, rfl, fun s hs => ⟨exec_estClr hs, exec_estAcc_of_full hs, fun hc hok => ?_⟩⟩
  rw [← opaSigned32_eq]
  exact ⟨_, exec_estAcc_of_not_full hs hc, rfl, sum_add_natAbs_toNat hok hc, count_add_one_toNat hc⟩

end Sys2Proof.Proofs

/-! PROOF. Faults: in HALTED no command runs, and a command that faults has moved bits of the stream at most
(60_exceptions.md R301, R306, R308, R310). -/

namespace Sys2Proof.Machine.Laws

/-- `t` is `s` with bits of the stream moved in either direction: nothing but the bit buffer, EOS, BYTECNT and the
two ports changed. BSMODE is not among them. -/
def MovedStream (s t : State) : Prop :=
  t = { s with
    buf := t.buf, cnt := t.cnt, eos := t.eos, byteCnt := t.byteCnt
    sinkBytes := t.sinkBytes, sinkAsked := t.sinkAsked, srcPos := t.srcPos }

theorem movedStream_refl (s : State) : MovedStream s s := rfl

theorem ReadOn.movedStream {s t : State} (h : ReadOn s t) : MovedStream s t := by
  rw [MovedStream, h.frame]

theorem WroteOn.movedStream {s t : State} (h : WroteOn s t) : MovedStream s t := by
  rw [WroteOn] at h
  rw [MovedStream, h]

/-- Where the part `f` of a command, started in `s`, raises an error, it has only moved bits of the stream. -/
def FaultsInStream {α : Type} (s : State) (f : Flow α) : Prop :=
  Ends (fun _ _ => True) (fun _ u => MovedStream s u) True f

theorem faultsInStream_done {α : Type} (a : α) (s u : State) : FaultsInStream s (.done a u) := trivial

theorem faultsInStream_raised {α : Type} (s : State) (e : ErrCode) : FaultsInStream s (.raised e s : Flow α) :=
  movedStream_refl s

theorem Reads.faultsInStream {α : Type} {R : Prop} {s : State} {f : Flow α} (h : Reads R s f) :
    FaultsInStream s f :=
  h.mono (fun _ _ _ => trivial) (fun _ _ ⟨_, hu⟩ => hu.movedStream) fun _ => trivial

theorem Writes.faultsInStream {bits : List Bool} {s : State} {f : Flow Unit} (h : Writes bits s f) :
    FaultsInStream s f :=
  h.ends.mono (fun _ _ _ => trivial) (fun _ _ ⟨_, _, hu⟩ => (RefusedAt.wroteOn hu).movedStream) False.elim

theorem faultsInStream_flushPending (s : State) : FaultsInStream s (flushPending s) :=
  (flushPending_ends s).mono (fun _ _ _ => trivial) (fun _ _ ⟨_, hu⟩ => hu.movedStream) False.elim

/-- A last part that completes at once, as every write of a result does, adds no fault. -/
theorem FaultsInStream.andThen_done {α β : Type} {s : State} {f : Flow α} {v : α → State → β}
    {k : α → State → State} (h : FaultsInStream s f) :
    FaultsInStream s (Machine.andThen f fun a u => .done (v a u) (k a u)) :=
  Ends.andThen h fun _ _ _ => trivial

/-- What is checked before execution is checked before anything moved (R310 item 4). -/
theorem FaultsInStream.checked {c : Prop} [Decidable c] {e : ErrCode} {s : State} {f : Flow Unit}
    (h : FaultsInStream s f) : FaultsInStream s (if c then .raised e s else f) := by
  split
  · exact faultsInStream_raised s e
  · exact h

theorem FaultsInStream.widthInRange {n : Nat} {s : State} {f : Flow Unit} (h : FaultsInStream s f) :
    FaultsInStream s (if widthInRange n then f else .raised .invalidParameter s) := by
  split
  · exact h
  · exact faultsInStream_raised s _

/-- A command that leaves the core HALTED entered a fault, with bits of the stream moved at most (R306, R310). -/
theorem command_halted {need : Option BsMode} {body : State → Flow Unit} {s t : State} (hs : s.cstate ≠ .halted)
    (h : command need body s = .next t) (ht : t.cstate = .halted) (hbody : FaultsInStream s (body s)) :
    ∃ e u, MovedStream s u ∧ t = faultEntry e u := by
  rcases command_cases h with
    ⟨hh, -⟩ | ⟨-, -, rfl⟩ | ⟨-, -, u, -, rfl⟩ | ⟨-, -, e, u, hu, rfl⟩ | ⟨-, -, -, rfl⟩
  · exact absurd hh hs
  · exact ⟨_, s, movedStream_refl s, rfl⟩
  · cases ht
  · rw [hu] at hbody
    exact ⟨e, u, hbody, rfl⟩
  · exact absurd ht hs

/-- No command writes a result before the last part of it that can fault (R306). -/
theorem exec_halted {i : Instr} {s t : State} (hs : s.cstate ≠ .halted) (h : exec i s = .next t)
    (ht : t.cstate = .halted) : ∃ e u, MovedStream s u ∧ t = faultEntry e u := by
  cases i <;>
    simp only [exec, execBsOpenw, execBsOpenr, execBsClose, execBsWrbit, execBsWrbits, execBsRdbit, execBsRdbits,
      execGSetm, execGSetmode, execGEncu, execGDecu, execGEnc, execGDec, execGRdm, execApReset, execApEncl,
      execApEncr, execApDecl, execApDecr, execMedPred, execMedEnc, execMedDec, execEstClr, execEstAcc,
      execEstM] at h <;>
    refine command_halted hs h ht ?_
  case bsClose => exact (faultsInStream_flushPending s).andThen_done
  case bsWrbit b => exact (writes_putBit b s).faultsInStream
  case bsWrbits n => exact (writes_putField _ n s).faultsInStream.widthInRange
  case bsRdbit =>
    refine Ends.andThen (reads_getBit True s).faultsInStream fun b u _ => ?_
    cases b with
    | none => exact faultsInStream_done ..
    | some b => exact faultsInStream_done ..
  case bsRdbits n => exact (reads_getField True n s).faultsInStream.andThen_done.widthInRange
  case gEncu => exact (writes_encodeU _ s).faultsInStream
  case gEnc => exact (writes_encodeSigned _ s).faultsInStream
  case gDecu => exact (reads_decodeU s).faultsInStream.andThen_done
  case gDec => exact (reads_decodeSigned s).faultsInStream.andThen_done
  case gRdm => exact (reads_getField True 16 s).faultsInStream.andThen_done
  case gSetm | estAcc => exact (faultsInStream_done ..).checked
  -- The other commands have no part that can fault (R302, R303, R305, R307).
  all_goals exact faultsInStream_done ..

theorem exec_halted_recordable {i : Instr} {s t : State} (hs : s.cstate ≠ .halted) (h : exec i s = .next t)
    (ht : t.cstate = .halted) : Recordable t.errCode := by
  rcases exec_cstate hs h with ⟨hidle, -⟩ | ⟨-, he⟩ | ⟨rfl, -⟩
  · rw [ht] at hidle; cases hidle
  · exact he
  · exact absurd ht hs

end Sys2Proof.Machine.Laws

namespace Sys2Proof.Proofs

open Sys2Proof.Machine Sys2Proof.Machine.Laws

/-- Settles O22: the frame of every command drops it before its BSMODE and its fields are looked at. -/
theorem haltedDropsCommand : Obligations.HaltedDropsCommand := by
  intro i s hs
  obtain ⟨body, hexec⟩ := exec_eq_command i s
  exact hexec.trans (command_of_halted hs)

/-- Settles O24: a fault is entered from a state in which only bits of the stream have moved. -/
theorem faultLeavesResults : Obligations.FaultLeavesResults := by
  intro i s t hs h ht
  obtain ⟨hnone, hformat⟩ := exec_halted_recordable hs h ht
  obtain ⟨e, u, hu, rfl⟩ := exec_halted hs h ht
  refine ⟨hnone, hformat, ?_⟩
  rw [MovedStream] at hu
  rw [hu]
  simp

end Sys2Proof.Proofs

/-! PROOF. Reset: a command takes no byte back from the sink, and the port exchanges of an abandoned command are among
those that the whole command makes (70_reset_and_hazards.md R340, R341). -/

namespace Sys2Proof.Machine.Laws

/-! ### Bytes already in the sink -/

/-- Where the part `f` of a command, started in `s`, ends, the bytes already in the sink have stayed (R84). -/
def KeepsDelivered {α : Type} (s : State) (f : Flow α) : Prop :=
  Ends (fun _ u => s.sinkBytes <+: u.sinkBytes) (fun _ u => s.sinkBytes <+: u.sinkBytes) True f

theorem keepsDelivered_done {α : Type} {a : α} {s u : State} (h : u.sinkBytes = s.sinkBytes) :
    KeepsDelivered s (.done a u) := by
  rw [KeepsDelivered, Ends, h]

theorem keepsDelivered_raised {α : Type} (s : State) (e : ErrCode) : KeepsDelivered s (.raised e s : Flow α) :=
  List.prefix_rfl

theorem ReadOn.sinkBytes {s u : State} (h : ReadOn s u) : u.sinkBytes = s.sinkBytes := by rw [h.frame]

theorem Reads.keepsDelivered {α : Type} {R : Prop} {s : State} {f : Flow α} (h : Reads R s f) : KeepsDelivered s f :=
  h.mono (fun _ _ ⟨hu, _⟩ => hu.sinkBytes ▸ List.prefix_rfl) (fun _ _ ⟨_, hu⟩ => hu.sinkBytes ▸ List.prefix_rfl)
    fun _ => trivial

theorem Writes.keepsDelivered {bits : List Bool} {s : State} {f : Flow Unit} (h : Writes bits s f) :
    KeepsDelivered s f :=
  h.ends.mono (fun _ _ ⟨_, _, hprefix, _⟩ => hprefix) (fun _ _ ⟨_, _, _, hprefix, _⟩ => hprefix) False.elim

/-- An accepted byte goes behind those already delivered; a refused one leaves them (R84). -/
theorem keepsDelivered_putByte (v : Byte) (s : State) : KeepsDelivered s (putByte v s) := by
  unfold putByte
  cases sinkAnswer s with
  | ok => exact List.prefix_append _ _
  | ioErr => exact List.prefix_rfl

theorem keepsDelivered_flushPending (s : State) : KeepsDelivered s (flushPending s) := by
  unfold flushPending
  split
  · exact keepsDelivered_putByte s.buf s
  · exact keepsDelivered_done rfl

/-- A last part that only writes registers keeps what is in the sink. -/
theorem KeepsDelivered.andThen_done {α β : Type} {s : State} {f : Flow α} {v : α → State → β}
    {k : α → State → State} (h : KeepsDelivered s f) (hk : ∀ a u, (k a u).sinkBytes = u.sinkBytes) :
    KeepsDelivered s (Machine.andThen f fun a u => .done (v a u) (k a u)) :=
  Ends.andThen h fun a u hu => by rw [Ends, hk]; exact hu

theorem KeepsDelivered.widthInRange {n : Nat} {s : State} {f : Flow Unit} (h : KeepsDelivered s f) :
    KeepsDelivered s (if widthInRange n then f else .raised .invalidParameter s) := by
  split
  · exact h
  · exact keepsDelivered_raised s _

/-- The frame of a command keeps what is in the sink where the body does (R306, R310). -/
theorem command_keepsDelivered {need : Option BsMode} {body : State → Flow Unit} {s t : State}
    (h : command need body s = .next t) (hbody : KeepsDelivered s (body s)) : s.sinkBytes <+: t.sinkBytes := by
  rcases command_cases h with
    ⟨-, rfl⟩ | ⟨-, -, rfl⟩ | ⟨-, -, u, hu, rfl⟩ | ⟨-, -, e, u, hu, rfl⟩ | ⟨-, -, -, rfl⟩
  · exact List.prefix_rfl
  · exact List.prefix_rfl
  · rw [hu] at hbody
    exact hbody
  · rw [hu] at hbody
    rw [faultEntry_sinkBytes]
    exact hbody
  · exact List.prefix_rfl

/-- No command takes a byte back from the sink (R84): a writer appends, and the others leave it alone. -/
theorem exec_sinkBytes_prefix {i : Instr} {s t : State} (hs : s.cstate ≠ .halted) (h : exec i s = .next t) :
    s.sinkBytes <+: t.sinkBytes := by
  cases htouch : touchesStream i with
  | false =>
    obtain ⟨-, -, -, -, hsink, -⟩ := (exec_writeSet hs h).stream htouch
    rw [hsink]
  | true =>
    cases i with
    | bsOpenw =>
      rw [exec, execBsOpenw] at h
      exact command_keepsDelivered h (keepsDelivered_done rfl)
    | bsOpenr =>
      rw [exec, execBsOpenr] at h
      exact command_keepsDelivered h (keepsDelivered_done rfl)
    | bsClose =>
      rw [exec, execBsClose] at h
      refine command_keepsDelivered h ((keepsDelivered_flushPending s).andThen_done fun _ u => ?_)
      split <;> rfl
    | bsWrbit b =>
      rw [exec_bsWrbit] at h
      exact command_keepsDelivered h (writes_putBit b s).keepsDelivered
    | bsWrbits n =>
      rw [exec, execBsWrbits] at h
      exact command_keepsDelivered h (writes_putField s.opa n s).keepsDelivered.widthInRange
    | gEncu =>
      rw [exec_gEncu] at h
      exact command_keepsDelivered h (writes_encodeU _ s).keepsDelivered
    | gEnc =>
      rw [exec_gEnc] at h
      exact command_keepsDelivered h (writes_encodeSigned _ s).keepsDelivered
    | bsRdbit =>
      rw [exec, execBsRdbit] at h
      refine command_keepsDelivered h (Ends.andThen (reads_getBit True s).keepsDelivered fun b u hu => ?_)
      cases b with
      | none => exact hu
      | some b => exact hu
    | bsRdbits n =>
      rw [exec, execBsRdbits] at h
      exact command_keepsDelivered h
        (.widthInRange ((reads_getField True n s).keepsDelivered.andThen_done fun _ _ => rfl))
    | gDecu =>
      rw [exec_gDecu] at h
      exact command_keepsDelivered h ((reads_decodeU s).keepsDelivered.andThen_done fun _ _ => rfl)
    | gDec =>
      rw [exec_gDec] at h
      exact command_keepsDelivered h ((reads_decodeSigned s).keepsDelivered.andThen_done fun _ _ => rfl)
    | gRdm =>
      rw [exec, execGRdm] at h
      exact command_keepsDelivered h ((reads_getField True 16 s).keepsDelivered.andThen_done fun _ _ => rfl)
    | _ => cases htouch

/-! ### The state the pending command would leave -/

theorem runWord_afterCommand (w : Word) (s : State) : runWord w s = .next (afterCommand w s) := by
  obtain ⟨t, ht⟩ := runWord_next w s
  rw [afterCommand, ht]

/-- A pending command takes no byte back from the sink (R340). -/
theorem afterCommand_sinkBytes_prefix {w : Word} {s : State} (hs : s.cstate ≠ .halted) :
    s.sinkBytes <+: (afterCommand w s).sinkBytes := by
  rcases runWord_cases hs (runWord_afterCommand w s) with ⟨i, -, hexec⟩ | hill
  · exact exec_sinkBytes_prefix hs hexec
  · rw [hill, faultEntry_sinkBytes]

/-- A pending command that leaves the core BUSY never ends, and leaves the state as it is (R360). -/
theorem afterCommand_of_neverEnds {w x : Word} {s : State} (hs : s.cstate ≠ .halted)
    (hx : (afterCommand w s).cstate = .busy x) : afterCommand w s = s := by
  rcases runWord_cases hs (runWord_afterCommand w s) with ⟨i, -, hexec⟩ | hill
  · rcases exec_cstate hs hexec with ⟨hidle, -⟩ | ⟨hhalted, -⟩ | ⟨hself, -⟩
    · rw [hx] at hidle; cases hidle
    · rw [hx] at hhalted; cases hhalted
    · exact hself
  · rw [hill, faultEntry_cstate] at hx; cases hx

/-! ### The exchanges of an abandoned command -/

/-- The bytes that an abandoned command delivered are the first of those that the whole command delivers (R340). -/
theorem abandonPorts_sinkBytes_prefix {s t : State} (h : s.sinkBytes <+: t.sinkBytes) :
    (abandonPorts t s).sinkBytes <+: t.sinkBytes := by
  obtain ⟨more, hmore⟩ := h
  rw [abandonPorts, ← hmore, List.drop_left]
  exact (List.prefix_append_right_inj _).2 (List.take_prefix _ _)

/-- An abandoned command asked the source no more often than the whole command does, when that ends (R340). -/
theorem abandonPorts_srcPos_le {s t : State} (ht : ∀ x, t.cstate ≠ .busy x) :
    (abandonPorts t s).srcPos ≤ t.srcPos := by
  simp only [abandonPorts, isBusy_of_not ht]
  exact Nat.min_le_right _ _

/-- An abandoned command that would never have ended, which only reads (R360), offered the sink nothing. -/
theorem abandonPorts_self_sink (s : State) :
    (abandonPorts s s).sinkBytes = s.sinkBytes ∧ (abandonPorts s s).sinkAsked = s.sinkAsked := by
  simp [abandonPorts]

/-! ### The host's reset -/

/-- A write of CTRL with bit 0 = 1 is the soft reset (R35, R71). -/
theorem hostAccess_srst {v : Word} (hv : v.getLsbD 0 = true) (s : State) :
    hostAccess (.write (Config.coreBase + 8) 4 v) s = .next (softReset s) := by
  rw [hostAccess_write (by decide) (by decide)]
  exact congrArg _ (if_pos hv)

theorem softReset_of_busy {s : State} {w : Word} (h : s.cstate = .busy w) :
    softReset s = resetCore (abandonPorts (afterCommand w s) s) := by
  simp only [softReset, h]

/-- With no command pending a reset flushes nothing and reads nothing (R341). -/
theorem softReset_of_not_busy {s : State} (h : ∀ w, s.cstate ≠ .busy w) : softReset s = resetCore s := by
  unfold softReset
  split
  case h_1 w hc => exact absurd hc (h w)
  all_goals rfl

end Sys2Proof.Machine.Laws

namespace Sys2Proof.Proofs

open Sys2Proof.Machine Sys2Proof.Machine.Laws

/-- Settles O18: the soft reset keeps the ports as `abandonPorts` leaves them, which stays between the state before the
pending command and the state after it. -/
theorem resetAbandonsCommand : Obligations.ResetAbandonsCommand := by
  intro s t v hv h
  rw [hostAccess_srst hv] at h
  cases h
  refine ⟨fun hidle => ?_, fun w hw => ?_⟩
  · rw [softReset_of_not_busy hidle]
    exact ⟨rfl, rfl, rfl⟩
  · have hs : s.cstate ≠ .halted := by rw [hw]; nofun
    rw [softReset_of_busy hw]
    refine ⟨abandonPorts_sinkBytes_prefix (afterCommand_sinkBytes_prefix hs), abandonPorts_srcPos_le, fun x hx => ?_⟩
    rw [afterCommand_of_neverEnds hs hx]
    exact abandonPorts_self_sink s

end Sys2Proof.Proofs
